-- ==== Sys2Proof/Word.lean ====
section
/-! DEFINITION. Word.lean: the bit widths the SCTP codec block fixes (00_scope.md R8). -/

namespace Sys2Proof

/-- A byte of any of the three address spaces (R60). -/
abbrev Byte := BitVec 8

/-- A header nibble: a type tag or a metadata value (R8, R90). -/
abbrev Nibble := BitVec 4

/-- The 64-bit value path: `arg0`, `arg1`, `r0`, `r1`, `lvalue` (R8, R9 `VW`, R100, R104). -/
abbrev Word := BitVec 64

end Sys2Proof
end

