-- ==== Sys2Proof/Syntax.lean ====
section
/-! DEFINITION. Syntax.lean: the instructions, one constructor for each of the 44 rows of
spec/opcode_table.json, and the words they are read from (30_encoding.md R90, R100). -/

namespace Sys2Proof

/-- The two units, each with a command port of its own (R3, R100). -/
inductive UnitId
  | enc
  | dec
deriving DecidableEq, Repr

/-- A command record on a unit's command port (R100, decision D3). -/
structure CmdRecord where
  op : BitVec 8
  arg0 : Word
  arg1 : Word
deriving DecidableEq, Repr

/-- What an instruction is read from. The wire space and the command space use the same byte values and
are told apart by where the byte stands (30_encoding.md preamble; log 1). -/
inductive CodeWord
  /-- the header byte of a field in `DEC`'s source (R90) -/
  | field (header : Byte)
  /-- a record presented on the command port of unit `u` (R100) -/
  | command (u : UnitId) (c : CmdRecord)
deriving DecidableEq, Repr

/-- The instructions. A wire row carries the metadata nibble `m` of its header; its payload is read from
the source by its arm (log 9). A command carries the 64-bit arguments R101 and R102 give it, whole; its
meaning narrows them (R103). -/
inductive Instr
  -- wire field types (R92)
  | int8 (m : Nibble)
  | uint8 (m : Nibble)
  | int16 (m : Nibble)
  | uint16 (m : Nibble)
  | int32 (m : Nibble)
  | uint32 (m : Nibble)
  | int64 (m : Nibble)
  | uint64 (m : Nibble)
  | uleb128 (m : Nibble)
  | sleb128 (m : Nibble)
  | float32 (m : Nibble)
  | float64 (m : Nibble)
  | short (m : Nibble)
  /-- format `VS`: the metadata is the length, 0 to 14 -/
  | vector (m : Nibble)
  /-- format `VL`: header `0xFD`, a ULEB128 length follows -/
  | vectorLarge
  | reserved14 (m : Nibble)
  | eof (m : Nibble)
  -- commands of `ENC` (R101)
  | addInt8 (arg0 : Word)
  | addUint8 (arg0 : Word)
  | addInt16 (arg0 : Word)
  | addUint16 (arg0 : Word)
  | addInt32 (arg0 : Word)
  | addUint32 (arg0 : Word)
  | addInt64 (arg0 : Word)
  | addUint64 (arg0 : Word)
  | addUleb128 (arg0 : Word)
  | addSleb128 (arg0 : Word)
  | addFloat32 (arg0 : Word)
  | addFloat64 (arg0 : Word)
  | addShort (arg0 : Word)
  | addVector (length : Word)
  | reserved0E
  | addEof
  | encInit (cap : Word)
  | encReset
  | encFill (idx arg1 : Word)
  | encRead (off : Word)
  -- commands of `DEC` (R102)
  | decAttach (base size : Word)
  | decAlloc (size : Word)
  | decLoad (idx arg1 : Word)
  | decReset
  | decNext
  | decRun
  | decRead (off : Word)
deriving DecidableEq, Repr

end Sys2Proof
end

