-- ==== Sys2Proof/Decode.lean ====
section
/-! DEFINITION. Decode.lean: from code words to instructions and back (30_encoding.md R90 to R105). -/

namespace Sys2Proof

/-- `unpack(b) = (b[3:0], b[7:4])` (40_header_codec.md R121): the type tag and the metadata. -/
def unpack (b : Byte) : Nibble × Nibble :=
  (b.extractLsb' 0 4, b.extractLsb' 4 4)

/-- The byte `MMMM TTTT` (R90): metadata in bits 7:4, type in bits 3:0. -/
def headerByte (t m : Nibble) : Byte :=
  (m ++ t : BitVec 8)

/-- The type table (R92): the match is on the type nibble only, and for type 13 the metadata tells the
literal length from the large flag. Total: all 256 header bytes name a row (R96). The last arm is type 15;
a nibble has no other value. -/
def decodeHeader (h : Byte) : Instr :=
  let (t, m) := unpack h
  match t.toNat with
  | 0 => .int8 m
  | 1 => .uint8 m
  | 2 => .int16 m
  | 3 => .uint16 m
  | 4 => .int32 m
  | 5 => .uint32 m
  | 6 => .int64 m
  | 7 => .uint64 m
  | 8 => .uleb128 m
  | 9 => .sleb128 m
  | 10 => .float32 m
  | 11 => .float64 m
  | 12 => .short m
  | 13 => if m = 15#4 then .vectorLarge else .vector m
  | 14 => .reserved14 m
  | _ => .eof m

/-- The `ENC` command codes (R101); `0x0E` is the table's reserved row. -/
def decodeEncOp (op : Nat) (a0 a1 : Word) : Option Instr :=
  match op with
  | 0x00 => some (.addInt8 a0)
  | 0x01 => some (.addUint8 a0)
  | 0x02 => some (.addInt16 a0)
  | 0x03 => some (.addUint16 a0)
  | 0x04 => some (.addInt32 a0)
  | 0x05 => some (.addUint32 a0)
  | 0x06 => some (.addInt64 a0)
  | 0x07 => some (.addUint64 a0)
  | 0x08 => some (.addUleb128 a0)
  | 0x09 => some (.addSleb128 a0)
  | 0x0A => some (.addFloat32 a0)
  | 0x0B => some (.addFloat64 a0)
  | 0x0C => some (.addShort a0)
  | 0x0D => some (.addVector a0)
  | 0x0E => some .reserved0E
  | 0x0F => some .addEof
  | 0x10 => some (.encInit a0)
  | 0x11 => some .encReset
  | 0x12 => some (.encFill a0 a1)
  | 0x13 => some (.encRead a0)
  | _ => none

/-- The `DEC` command codes (R102). -/
def decodeDecOp (op : Nat) (a0 a1 : Word) : Option Instr :=
  match op with
  | 0x20 => some (.decAttach a0 a1)
  | 0x21 => some (.decAlloc a0)
  | 0x22 => some (.decLoad a0 a1)
  | 0x23 => some .decReset
  | 0x24 => some .decNext
  | 0x25 => some .decRun
  | 0x26 => some (.decRead a0)
  | _ => none

/-- Why a code word is no instruction. The machine answers both with `REFUSED` (R105). -/
inductive DecodeRefusal
  /-- the code names no command of either unit -/
  | unassignedCode (op : BitVec 8)
  /-- the code is a command of the other unit -/
  | otherUnitsCode (u : UnitId) (op : BitVec 8)
deriving DecidableEq, Repr

/-- The commands of unit `u`. -/
def decodeOpOf (u : UnitId) (c : CmdRecord) : Option Instr :=
  match u with
  | .enc => decodeEncOp c.op.toNat c.arg0 c.arg1
  | .dec => decodeDecOp c.op.toNat c.arg0 c.arg1

/-- A command record presented to unit `u` (R100 to R105). -/
def decodeCommand (u : UnitId) (c : CmdRecord) : Except DecodeRefusal Instr :=
  match decodeOpOf u c with
  | some i => .ok i
  | none =>
    match decodeOpOf (match u with | .enc => .dec | .dec => .enc) c with
    | some _ => .error (.otherUnitsCode u c.op)
    | none => .error (.unassignedCode c.op)

/-- The decoder, total on all code words. -/
def decode : CodeWord → Except DecodeRefusal Instr
  | .field h => .ok (decodeHeader h)
  | .command u c => decodeCommand u c

/-- A command record of `ENC`. -/
def encWord (op : BitVec 8) (a0 a1 : Word) : CodeWord := .command .enc { op := op, arg0 := a0, arg1 := a1 }

/-- A command record of `DEC`. -/
def decWord (op : BitVec 8) (a0 a1 : Word) : CodeWord := .command .dec { op := op, arg0 := a0, arg1 := a1 }

/-- The encoder: the header byte of R90 and R92, or the record of R100 to R102 with 0 in the arguments the
command does not name. -/
def encode : Instr → CodeWord
  | .int8 m => .field (headerByte 0 m)
  | .uint8 m => .field (headerByte 1 m)
  | .int16 m => .field (headerByte 2 m)
  | .uint16 m => .field (headerByte 3 m)
  | .int32 m => .field (headerByte 4 m)
  | .uint32 m => .field (headerByte 5 m)
  | .int64 m => .field (headerByte 6 m)
  | .uint64 m => .field (headerByte 7 m)
  | .uleb128 m => .field (headerByte 8 m)
  | .sleb128 m => .field (headerByte 9 m)
  | .float32 m => .field (headerByte 10 m)
  | .float64 m => .field (headerByte 11 m)
  | .short m => .field (headerByte 12 m)
  | .vector m => .field (headerByte 13 m)
  | .vectorLarge => .field (headerByte 13 15)
  | .reserved14 m => .field (headerByte 14 m)
  | .eof m => .field (headerByte 15 m)
  | .addInt8 a => encWord 0x00 a 0
  | .addUint8 a => encWord 0x01 a 0
  | .addInt16 a => encWord 0x02 a 0
  | .addUint16 a => encWord 0x03 a 0
  | .addInt32 a => encWord 0x04 a 0
  | .addUint32 a => encWord 0x05 a 0
  | .addInt64 a => encWord 0x06 a 0
  | .addUint64 a => encWord 0x07 a 0
  | .addUleb128 a => encWord 0x08 a 0
  | .addSleb128 a => encWord 0x09 a 0
  | .addFloat32 a => encWord 0x0A a 0
  | .addFloat64 a => encWord 0x0B a 0
  | .addShort a => encWord 0x0C a 0
  | .addVector a => encWord 0x0D a 0
  | .reserved0E => encWord 0x0E 0 0
  | .addEof => encWord 0x0F 0 0
  | .encInit a => encWord 0x10 a 0
  | .encReset => encWord 0x11 0 0
  | .encFill a b => encWord 0x12 a b
  | .encRead a => encWord 0x13 a 0
  | .decAttach a b => decWord 0x20 a b
  | .decAlloc a => decWord 0x21 a 0
  | .decLoad a b => decWord 0x22 a b
  | .decReset => decWord 0x23 0 0
  | .decNext => decWord 0x24 0 0
  | .decRun => decWord 0x25 0 0
  | .decRead a => decWord 0x26 a 0

/-- The code word a number of the opcode table stands for. The table numbers both spaces in 8 bits, so a
byte alone does not say which space it belongs to: a byte that is a command code is read as that command
(arguments from the bits above, `arg0` then `arg1`), every other byte as a wire header (DESIGN CHOICE,
log 1). -/
def codeWordOfTable (nbits w : Nat) : CodeWord :=
  let v := w % 2 ^ nbits
  let c : CmdRecord :=
    { op := BitVec.ofNat 8 v, arg0 := BitVec.ofNat 64 (v >>> 8), arg1 := BitVec.ofNat 64 (v >>> 72) }
  if (decodeEncOp c.op.toNat 0 0).isSome then .command .enc c
  else if (decodeDecOp c.op.toNat 0 0).isSome then .command .dec c
  else .field c.op

/-- The instruction the decoder reads from a word of the opcode table. -/
def decodeTableWord (nbits w : Nat) : Option Instr :=
  match decode (codeWordOfTable nbits w) with
  | .ok i => some i
  | .error _ => none

/-- The `n` bytes of a table word in stream order, the first in the low bits. -/
def tableBytes (w n : Nat) : List Byte :=
  (List.range n).map fun i => BitVec.ofNat 8 (w >>> (8 * i))

end Sys2Proof
end

