-- ==== Sys2Proof/Config.lean ====
section
/-! DEFINITION. Config.lean: the implementation parameters of 00_scope.md R9, and the free values of the
bytes whose content the spec leaves unspecified (93_implementation_defined.md U7, U8). -/

namespace Sys2Proof

/-- The parameters of R9 (decisions D6, D7). A machine carries one value of this record and no step
writes it; a statement about every state is a statement about every value of the parameters. -/
structure Config where
  /-- `AW`: bits of a position, size, capacity or length register -/
  aw : Nat
  /-- `WBUF_MAX`: bytes of the physical output buffer -/
  wbufMax : Nat
  /-- `RBUF_MAX`: bytes of the physical owned source buffer -/
  rbufMax : Nat
  /-- `HAW`: bits of a host memory address -/
  haw : Nat
deriving DecidableEq, Repr

/-- The bounds R9 puts on the parameters. -/
def Config.valid (c : Config) : Bool :=
  decide (1 ≤ c.aw) && decide (c.aw ≤ 64) &&
  decide (c.wbufMax ≤ 2 ^ c.aw - 1) && decide (c.rbufMax ≤ 2 ^ c.aw - 1) &&
  decide (1 ≤ c.haw) && decide (c.haw ≤ 64)

/-- The parameters `State.reset` carries: `AW` at the default of R9; for the three OPEN ones the largest
value R9 admits, the one that turns the fewest constructor arguments away (DESIGN CHOICE, unsafe, log 5). -/
def Config.chosen : Config :=
  { aw := 32, wbufMax := 2 ^ 32 - 1, rbufMax := 2 ^ 32 - 1, haw := 64 }

/-- FREE VALUE (U7, log 6): what byte `offset` of `wbuf` holds while nothing has written it since the
`epoch`-th hardware reset. -/
opaque Config.freeWbufByte : (epoch offset : Nat) → Byte

/-- FREE VALUE (U8, log 7): what byte `offset` of `rbuf` holds while nothing has written it since the
`epoch`-th hardware reset. -/
opaque Config.freeRbufByte : (epoch offset : Nat) → Byte

/-- FREE VALUE (R20, log 8): what the host memory byte at `addr` holds before the first host write the
model sees. -/
opaque Config.freeHostByte : (addr : Nat) → Byte

end Sys2Proof
end

