-- ==== Sys2Proof/Machine/State.lean ====
section
/-! DEFINITION. Machine/State.lean: the state of the block (10_state.md R20 to R49), the records its ports
carry (30_encoding.md R104, R106), the reasons a step can stop, and the state after hardware reset (R48). -/

namespace Sys2Proof.Machine

/-- A byte memory: the bytes something has written, by rising address. An unlisted byte has no value here;
what a read of it gives is the free value of its space (log 6, 7, 8). -/
abbrev Memory := List Host.Cell

/-- The fault kinds and code 0 (60_exceptions.md R290). -/
inductive Cause
  | noFault
  | truncated
  | overflow
  | capacityExceeded
  | invalidArgument
  | unknownType
deriving DecidableEq, Repr

/-- The response statuses; the fourth code never occurs (R104). -/
inductive Status
  | ok
  | fault
  | refused
deriving DecidableEq, Repr

/-- The kind of source buffer (R31). -/
inductive RMode
  | owned
  | borrowed
deriving DecidableEq, Repr

/-- The states of the reader and dispatcher (R36). -/
inductive DState
  | ready
  | decoding
  | done
  | aborted
deriving DecidableEq, Repr

/-- The kinds of payload reference; the fourth code never occurs (R41). -/
inductive RefKind
  | null
  | inbuf
  | temp
deriving DecidableEq, Repr

/-- A response record (R104). -/
structure Response where
  status : Status
  cause : Cause
  r0 : Word
  r1 : Word
deriving DecidableEq, Repr

/-- An event record of `DEC_RUN` (R106). -/
structure Event where
  evType : Nibble
  evRefk : RefKind
  evOff : Nat
  evValue : Word
  evSize : Nat
deriving DecidableEq, Repr

/-- What the host may do next (R19): issue a command to a unit, write a byte of its own memory, or pull the
hardware reset (log 2, 8, 12). -/
inductive HostAction
  | command (u : UnitId) (c : CmdRecord)
  | writeHost (addr : Nat) (b : Byte)
  | hardwareReset
deriving DecidableEq, Repr

/-- The encoder unit `ENC` (R22 to R29). Positions and lengths are naturals (R11, R223). -/
structure Enc where
  wbuf : Memory
  wcap : Nat
  wpos : Nat
  efault : Bool
  ecause : Cause
  vvalid : Bool
  vbase : Nat
  vlen : Nat
  /-- MODEL's own: the response of the last `ENC` command (log 4) -/
  resp : Option Response
deriving DecidableEq, Repr

/-- The decoder unit `DEC` (R31 to R42). -/
structure Dec where
  rmode : RMode
  rbuf : Memory
  /-- `2^HAW` is stored whole, after an empty window there (log 17) -/
  rbase : Nat
  rsize : Nat
  rpos : Nat
  dstate : DState
  dcause : Cause
  ltype : Nibble
  lvalue : Word
  lsize : Nat
  lrefk : RefKind
  loff : Nat
  /-- MODEL's own: the response of the last `DEC` command (log 4) -/
  resp : Option Response
  /-- MODEL's own: the events the last `DEC` command emitted, in order (log 4) -/
  events : List Event
deriving DecidableEq, Repr

/-- The state: the two units, which share nothing (R3, R20), and beside them what R20 calls parameters of
the step, which a step that takes only a state must find in it (log 2, 5, 8, 12). -/
structure State where
  enc : Enc
  dec : Dec
  /-- MODEL's own: the parameters of R9; no step writes them -/
  cfg : Config
  /-- MODEL's own: host memory (R60, space `H`) -/
  hmem : Memory
  /-- MODEL's own: what the host does next, first at the head -/
  port : List HostAction
  /-- MODEL's own: how many hardware resets have happened; feeds the free values only -/
  epoch : Nat
deriving DecidableEq, Repr

/-- Why the machine stops. The block's own five faults are no stops: they are next states (R296). -/
inductive Fault
  /-- Raised by the step that takes `writeHost addr _` with `addr` outside `0 .. 2^HAW - 1`, an address that
  does not exist (R9, R33). Safe: the model stops where no hardware address is named (log 10). -/
  | hostAddressOutOfRange (addr : Nat)
deriving DecidableEq, Repr

/-- Why an instruction has no meaning. -/
inductive Refusal
  /-- Raised by an arm of `exec` whose instruction has no meaning yet; no arm does. Safe. -/
  | notModelled (mnemonic : String)
deriving DecidableEq, Repr

/-- `ENC` after hardware reset (R48): `wbuf` unspecified, every register 0. -/
def Enc.reset : Enc :=
  { wbuf := [], wcap := 0, wpos := 0, efault := false, ecause := .noFault, vvalid := false, vbase := 0,
    vlen := 0, resp := none }

/-- `DEC` after hardware reset (R48): `rbuf` unspecified, the registers as the table has them. -/
def Dec.reset : Dec :=
  { rmode := .owned, rbuf := [], rbase := 0, rsize := 0, rpos := 0, dstate := .ready, dcause := .noFault,
    ltype := 15, lvalue := 0, lsize := 0, lrefk := .null, loff := 0, resp := none, events := [] }

/-- The machine right after hardware reset (R48, R330). No command is in progress and none is waiting. -/
def State.reset : State :=
  { enc := Enc.reset, dec := Dec.reset, cfg := Config.chosen, hmem := [], port := [], epoch := 0 }

end Sys2Proof.Machine
end

