-- ==== Sys2Proof/Machine/Memory.lean ====
section
/-! DEFINITION. Machine/Memory.lean: the byte memories behind the spaces W, R and H (20_memory.md R60).
Canonical form: addresses strictly rising, each at most once. An unlisted address has no value, so no entry
can equal what an unlisted address reads as. -/

namespace Sys2Proof.Machine

/-- The byte a memory lists at `a`, if it lists one. -/
def Memory.read : Memory → Nat → Option Byte
  | [], _ => none
  | (k, b) :: m, a => if a = k then some b else if a < k then none else Memory.read m a

/-- Write one byte; the canonical form is kept. -/
def Memory.write : Memory → Nat → Byte → Memory
  | [], a, v => [(a, v)]
  | (k, b) :: m, a, v =>
    if a < k then (a, v) :: (k, b) :: m
    else if a = k then (a, v) :: m
    else (k, b) :: Memory.write m a v

/-- Write a list of bytes at consecutive addresses, one byte at a time, lowest first (R70). -/
def Memory.writeList : Memory → Nat → List Byte → Memory
  | m, _, [] => m
  | m, a, b :: bs => Memory.writeList (Memory.write m a b) (a + 1) bs

/-- The canonical form: addresses strictly rising. -/
abbrev Memory.wf (m : Memory) : Prop := m.Pairwise fun x y => x.1 < y.1

/-- Every listed address is below `n`. -/
abbrev Memory.below (m : Memory) (n : Nat) : Prop := ∀ x ∈ m, x.1 < n

/-- Byte `i` of `wbuf` (R22): what was last written there, else the free value of U7. -/
def wbufByte (s : State) (i : Nat) : Byte :=
  (Memory.read s.enc.wbuf i).getD (Config.freeWbufByte s.epoch i)

/-- Byte `i` of `rbuf` (R32): what was last loaded there, else the free value of U8. -/
def rbufByte (s : State) (i : Nat) : Byte :=
  (Memory.read s.dec.rbuf i).getD (Config.freeRbufByte s.epoch i)

/-- Byte `addr` of host memory: `MemRead(addr, 1)` (R12). -/
def hostByte (s : State) (addr : Nat) : Byte :=
  (Memory.read s.hmem addr).getD (Config.freeHostByte addr)

/-- `src(i)`, the one way `DEC` reads its source (20_memory.md R64). -/
def src (s : State) (i : Nat) : Byte :=
  match s.dec.rmode with
  | .owned => rbufByte s i
  | .borrowed => hostByte s (s.dec.rbase + i)

end Sys2Proof.Machine
end

