-- ==== Sys2Proof/Machine/Ops.lean ====
section
/-! DEFINITION. Machine/Ops.lean: the operations every command is made of: answering, taking a fault and
leaving one (60_exceptions.md R296 to R302), the checked write and read primitives (46_stream_writer.md
R220 to R222, 47_stream_reader_dispatcher.md R250, R251), and one step of the dispatcher (R260). -/

namespace Sys2Proof.Machine

/-- What `exec` and `step` answer. -/
abbrev Out := Host.Outcome State Fault Refusal

/-! ### Updates -/

def State.withEnc (s : State) (e : Enc) : State := { s with enc := e }

def State.withDec (s : State) (d : Dec) : State := { s with dec := d }

def State.withPort (s : State) (p : List HostAction) : State := { s with port := p }

def State.withHmem (s : State) (m : Memory) : State := { s with hmem := m }

/-! ### Responses (30_encoding.md R104) -/

/-- `OK(r0, r1)`. -/
def Response.okWith (r0 r1 : Word) : Response := { status := .ok, cause := .noFault, r0 := r0, r1 := r1 }

/-- `FAULT(cause)`. -/
def Response.faultOf (c : Cause) : Response := { status := .fault, cause := c, r0 := 0, r1 := 0 }

/-- `REFUSED`. -/
def Response.refusal : Response := { status := .refused, cause := .noFault, r0 := 0, r1 := 0 }

/-- `ENC` ends a command with response `r`. -/
def answerEnc (r : Response) (s : State) : State := s.withEnc { s.enc with resp := some r }

/-- `DEC` ends a command with the events `evs` emitted before response `r` (R106). -/
def answerDec (evs : List Event) (r : Response) (s : State) : State :=
  s.withDec { s.dec with resp := some r, events := evs }

/-- `REFUSED` by unit `u`: nothing changes (R105, R304). -/
def refuse (u : UnitId) (s : State) : State :=
  match u with
  | .enc => answerEnc .refusal s
  | .dec => answerDec [] .refusal s

/-! ### Taking a fault, and leaving one -/

/-- `raise c` in a command of unit `u` (R296): the fault state and the cause are written, the response is
`FAULT(c)`, and nothing else changes. `evs` are the events the command emitted before it (`DEC_RUN` only).
No state is saved and control goes nowhere: the block has no handler. -/
def takeFault (u : UnitId) (evs : List Event) (c : Cause) (s : State) : State :=
  match u with
  | .enc => answerEnc (.faultOf c) (s.withEnc { s.enc with efault := true, ecause := c })
  | .dec => answerDec evs (.faultOf c) (s.withDec { s.dec with dstate := .aborted, dcause := c })

/-- A new encoder instance in place of the old (R225): with hardware reset the only way out of the Fault
state (R302). `wbuf` is kept. -/
def Enc.construct (cap : Nat) (e : Enc) : Enc :=
  { e with wcap := cap, wpos := 0, vvalid := false, vbase := 0, vlen := 0, efault := false, ecause := .noFault }

/-- The last-decoded registers at their reset values (R43) and the cursor at the start in `Ready`. -/
def Dec.rewind (d : Dec) : Dec :=
  { d with rpos := 0, dstate := .ready, ltype := 15, lvalue := 0, lsize := 0, lrefk := .null, loff := 0 }

/-- A new decoder instance in place of the old (R255, R256): with hardware reset the only way out of
`Aborted` (R302). `rbuf` is kept. -/
def Dec.construct (mode : RMode) (base size : Nat) (d : Dec) : Dec :=
  { d.rewind with rmode := mode, rbase := base, rsize := size, dcause := .noFault }

/-- Hardware reset (R330, R331): every register of both units as R48 has it and the buffers unspecified
anew, which is what the next `epoch` stands for (log 12). Parameters, host memory and what the host does
next are not the block's. -/
def hardwareReset (s : State) : State :=
  { s with enc := Enc.reset, dec := Dec.reset, epoch := s.epoch + 1 }

/-! ### The frame of a command -/

/-- How a command that does not raise ends. -/
inductive Reply
  | ok (r0 r1 : Word)
  | refused
deriving DecidableEq, Repr

def Reply.response : Reply → Response
  | .ok r0 r1 => .okWith r0 r1
  | .refused => .refusal

/-- Every `ENC` command but its constructor: the Fault-state test comes first (R297), then the body, which
raises, or leaves `ENC` as it says and answers. -/
def encCommand (body : State → Except Cause (Enc × Reply)) (s : State) : Out :=
  if s.enc.efault then .next (answerEnc (.faultOf s.enc.ecause) s)
  else
    match body s with
    | .error c => .next (takeFault .enc [] c s)
    | .ok (e, r) => .next (answerEnc r.response (s.withEnc e))

/-- The `DEC` commands that run no step of the dispatcher and are not constructors: the `Aborted` test comes
first (R297). -/
def decCommand (body : State → Dec × Reply) (s : State) : Out :=
  if s.dec.dstate = .aborted then .next (answerDec [] (.faultOf s.dec.dcause) s)
  else .next (answerDec [] (body s).2.response (s.withDec (body s).1))

/-! ### Write primitives -/

/-- `write_byte(b)` (R220). -/
def writeByte (b : Byte) (e : Enc) : Except Cause Enc :=
  if e.wcap < e.wpos + 1 then .error .capacityExceeded
  else .ok { e with wbuf := Memory.write e.wbuf e.wpos b, wpos := e.wpos + 1 }

/-- `write_bytes(bs)`, all or none (R221). -/
def writeBytes (bs : List Byte) (e : Enc) : Except Cause Enc :=
  if e.wcap < e.wpos + bs.length then .error .capacityExceeded
  else .ok { e with wbuf := Memory.writeList e.wbuf e.wpos bs, wpos := e.wpos + bs.length }

/-- `emit_field(bs, tail)` (R222): one capacity check, in naturals (R223), for the bytes and the `tail`
bytes reserved after them; the tail is skipped, not written. -/
def emitField (bs : List Byte) (tail : Nat) (e : Enc) : Except Cause Enc :=
  if e.wcap < e.wpos + (bs.length + tail) then .error .capacityExceeded
  else .ok { e with wbuf := Memory.writeList e.wbuf e.wpos bs, wpos := e.wpos + (bs.length + tail) }

/-- The end of every `ADD_*` but `ADD_VECTOR`: the field is emitted, the span is invalidated (R27, R224). -/
def addBytes (bs : List Byte) (e : Enc) : Except Cause (Enc × Reply) :=
  match emitField bs 0 e with
  | .error c => .error c
  | .ok e' => .ok ({ e' with vvalid := false }, .ok 0 0)

/-! ### Read primitives -/

/-- `read_byte(p)` (R250). -/
def readByte (s : State) (p : Nat) : Except Cause Byte :=
  if s.dec.rsize ≤ p then .error .truncated else .ok (src s p)

/-- `read_bytes(p, n)`, all or none; for `p <= rsize` (R251). -/
def readBytes (s : State) (p n : Nat) : Except Cause (List Byte) :=
  if s.dec.rsize - p < n then .error .truncated else .ok ((List.range n).map fun i => src s (p + i))

/-! ### One step of the dispatcher -/

/-- The commit record of an arm (R260). -/
structure Commit where
  ltype : Nibble
  lvalue : Word
  lsize : Nat
  lrefk : RefKind
  loff : Nat
  rpos : Nat
deriving DecidableEq, Repr

/-- An arm of the dispatcher: from the offset of a header already read, it raises or commits (R261). -/
abbrev Arm := State → Nat → Except Cause Commit

/-- `commit(...)`: the six registers together (R260). -/
def Dec.commit (c : Commit) (d : Dec) : Dec :=
  { d with ltype := c.ltype, lvalue := c.lvalue, lsize := c.lsize, lrefk := c.lrefk, loff := c.loff, rpos := c.rpos }

/-- The commit of an EOF that leaves the cursor at `p` (R212, R262). -/
def eofCommit (p : Nat) : Commit :=
  { ltype := 15, lvalue := 0, lsize := 0, lrefk := .null, loff := 0, rpos := p }

/-- `step()` of R260, with the arm of the header at `rpos` given: the implicit EOF where no header is left
(R262), else the arm; a field of type 15 ends in `Done`, any other in `Decoding` (R268). -/
def fieldStep (arm : Arm) (s : State) : Except Cause Dec :=
  if s.dec.rsize ≤ s.dec.rpos then
    .ok { s.dec.commit (eofCommit s.dec.rpos) with dstate := .done }
  else
    match arm s s.dec.rpos with
    | .error c => .error c
    | .ok c => .ok { s.dec.commit c with dstate := if c.ltype = 15#4 then .done else .decoding }

/-- `DEC_NEXT()` of R260 with the arm given: the latched fault in `Aborted` (R264), EOF again in `Done`
(R263), else one step and its response. -/
def nextField (arm : Arm) (s : State) : Out :=
  match s.dec.dstate with
  | .aborted => .next (answerDec [] (.faultOf s.dec.dcause) s)
  | .done => .next (answerDec [] (.okWith 15 0) s)
  | .ready | .decoding =>
    match fieldStep arm s with
    | .error c => .next (takeFault .dec [] c s)
    | .ok d => .next (answerDec [] (.okWith (d.ltype.setWidth 64) (BitVec.ofNat 64 d.lsize)) (s.withDec d))

end Sys2Proof.Machine
end

