-- ==== Sys2Proof/Machine/Operands.lean ====
section
/-! DEFINITION. Machine/Operands.lean: how operands are taken from arguments and from bytes, and laid into
bytes (30_encoding.md R94, R95, R103; 42_fixed_width_codec.md R150 to R152; 40_header_codec.md R120). -/

namespace Sys2Proof.Machine

/-- `pack(type, meta)` (R120), with its precondition. -/
def pack (t m : Nat) : Except Cause Byte :=
  if 16 ≤ t ∨ 16 ≤ m then .error .invalidArgument
  else .ok (headerByte (BitVec.ofNat 4 t) (BitVec.ofNat 4 m))

/-- `arg[7:0]` (R103). -/
def lowByte (a : Word) : Byte := a.extractLsb' 0 8

/-- A byte of a buffer as a response word: `zext_64`. -/
def byteWord (b : Byte) : Word := b.setWidth 64

/-- The ten fixed-width types (R152). -/
inductive FixedKind
  | int8 | uint8 | int16 | uint16 | int32 | uint32 | int64 | uint64 | float32 | float64
deriving DecidableEq, Repr

/-- The type tag (R92, R152). -/
def FixedKind.tag : FixedKind → Nat
  | .int8 => 0
  | .uint8 => 1
  | .int16 => 2
  | .uint16 => 3
  | .int32 => 4
  | .uint32 => 5
  | .int64 => 6
  | .uint64 => 7
  | .float32 => 10
  | .float64 => 11

/-- `width(t)` in bytes (R152). -/
def FixedKind.width : FixedKind → Nat
  | .int8 | .uint8 => 1
  | .int16 | .uint16 => 2
  | .int32 | .uint32 | .float32 => 4
  | .int64 | .uint64 | .float64 => 8

/-- The kinds whose pattern is sign-extended into `lvalue` (R45, R152). -/
def FixedKind.signed : FixedKind → Bool
  | .int8 | .int16 | .int32 | .int64 => true
  | .uint8 | .uint16 | .uint32 | .uint64 | .float32 | .float64 => false

/-- `le_bytes(v, w)` (R150). -/
def leBytes (v : Word) (w : Nat) : List Byte :=
  (List.range w).map fun i => v.extractLsb' (8 * i) 8

/-- The pattern of a list of bytes, the first least significant (R151). -/
def leValue : List Byte → Word
  | [] => 0
  | b :: bs => b.setWidth 64 ||| (leValue bs <<< 8)

/-- `sext_64` or `zext_64` of an `8w`-bit pattern (R11, R45). -/
def extendTo64 (signed : Bool) (w : Nat) (raw : Word) : Word :=
  if signed then (raw.setWidth (8 * w)).signExtend 64 else (raw.setWidth (8 * w)).setWidth 64

end Sys2Proof.Machine
end

