-- ==== Sys2Proof/Machine/Eof.lean ====
section
/-! DEFINITION. Machine/Eof.lean: the EOF sentinel and the two reserved rows (45_eof.md R210 to R214,
30_encoding.md R105). -/

namespace Sys2Proof.Machine

/-- The body of `ADD_EOF` (R210). `ENC` keeps no record of it (R211). -/
def addEofBody (s : State) : Except Cause (Enc × Reply) :=
  match pack 15 0 with
  | .error c => .error c
  | .ok h => addBytes [h] s.enc

/-- `ADD_EOF` (R210). -/
def execAddEof (s : State) : Out := encCommand addEofBody s

/-- The reserved command code `0x0E` at `ENC`: `REFUSED` in every state (R105, R297). -/
def execReserved0E (s : State) : Out := .next (refuse .enc s)

/-- `decode_field_15` (R212): the header byte is consumed; the metadata is ignored (R97). -/
def armEof (_m : Nibble) : Arm := fun _ p0 => .ok (eofCommit (p0 + 1))

/-- `decode_field_14` (R213): always `UnknownType`, whatever the metadata. -/
def armReserved14 (_m : Nibble) : Arm := fun _ _ => .error .unknownType

/-- Field `EOF` (R212), pulled. -/
def execEof (m : Nibble) (s : State) : Out := nextField (armEof m) s

/-- The reserved wire type 14 (R213), pulled. -/
def execReserved14 (m : Nibble) (s : State) : Out := nextField (armReserved14 m) s

end Sys2Proof.Machine
end

