-- ==== Sys2Proof/Machine/FixedWidth.lean ====
section
/-! DEFINITION. Machine/FixedWidth.lean: the fixed-width scalar codec (42_fixed_width_codec.md R150 to
R177): one generic rule per direction, and a definition of its own for each command and wire type. A float
is carried as its bit pattern (R175). -/

namespace Sys2Proof.Machine

/-- `add_fixed(t, arg0)` (R174): header with metadata 0, then the low `8w` bits of `arg0`, least significant
byte first; the bits above are ignored (R103). -/
def addFixed (k : FixedKind) (arg0 : Word) (s : State) : Except Cause (Enc × Reply) :=
  match pack k.tag 0 with
  | .error c => .error c
  | .ok h => addBytes (h :: leBytes arg0 k.width) s.enc

/-- `decode_fixed(t, p0)` (R153): all `w` payload bytes or `Truncated`. -/
def armFixed (k : FixedKind) : Arm := fun s p0 =>
  match readBytes s (p0 + 1) k.width with
  | .error c => .error c
  | .ok bs =>
    .ok { ltype := BitVec.ofNat 4 k.tag, lvalue := extendTo64 k.signed k.width (leValue bs), lsize := k.width, lrefk := .inbuf,
          loff := p0 + 1, rpos := p0 + 1 + k.width }

/-! ### The ten add commands -/

/-- `ADD_INT8` (R154). -/
def execAddInt8 (arg0 : Word) (s : State) : Out := encCommand (addFixed .int8 arg0) s

/-- `ADD_UINT8` (R155). -/
def execAddUint8 (arg0 : Word) (s : State) : Out := encCommand (addFixed .uint8 arg0) s

/-- `ADD_INT16` (R156). -/
def execAddInt16 (arg0 : Word) (s : State) : Out := encCommand (addFixed .int16 arg0) s

/-- `ADD_UINT16` (R157). -/
def execAddUint16 (arg0 : Word) (s : State) : Out := encCommand (addFixed .uint16 arg0) s

/-- `ADD_INT32` (R158). -/
def execAddInt32 (arg0 : Word) (s : State) : Out := encCommand (addFixed .int32 arg0) s

/-- `ADD_UINT32` (R159). -/
def execAddUint32 (arg0 : Word) (s : State) : Out := encCommand (addFixed .uint32 arg0) s

/-- `ADD_INT64` (R170). -/
def execAddInt64 (arg0 : Word) (s : State) : Out := encCommand (addFixed .int64 arg0) s

/-- `ADD_UINT64` (R171). -/
def execAddUint64 (arg0 : Word) (s : State) : Out := encCommand (addFixed .uint64 arg0) s

/-- `ADD_FLOAT32` (R172). -/
def execAddFloat32 (arg0 : Word) (s : State) : Out := encCommand (addFixed .float32 arg0) s

/-- `ADD_FLOAT64` (R173). -/
def execAddFloat64 (arg0 : Word) (s : State) : Out := encCommand (addFixed .float64 arg0) s

/-! ### The ten wire types; the metadata is ignored (R97) -/

/-- The arm of `INT8` (R160). -/
def armInt8 (_m : Nibble) : Arm := armFixed .int8

/-- Field `INT8` (R160), pulled. -/
def execInt8 (m : Nibble) (s : State) : Out := nextField (armInt8 m) s

/-- The arm of `UINT8` (R161). -/
def armUint8 (_m : Nibble) : Arm := armFixed .uint8

/-- Field `UINT8` (R161), pulled. -/
def execUint8 (m : Nibble) (s : State) : Out := nextField (armUint8 m) s

/-- The arm of `INT16` (R162). -/
def armInt16 (_m : Nibble) : Arm := armFixed .int16

/-- Field `INT16` (R162), pulled. -/
def execInt16 (m : Nibble) (s : State) : Out := nextField (armInt16 m) s

/-- The arm of `UINT16` (R163). -/
def armUint16 (_m : Nibble) : Arm := armFixed .uint16

/-- Field `UINT16` (R163), pulled. -/
def execUint16 (m : Nibble) (s : State) : Out := nextField (armUint16 m) s

/-- The arm of `INT32` (R164). -/
def armInt32 (_m : Nibble) : Arm := armFixed .int32

/-- Field `INT32` (R164), pulled. -/
def execInt32 (m : Nibble) (s : State) : Out := nextField (armInt32 m) s

/-- The arm of `UINT32` (R165). -/
def armUint32 (_m : Nibble) : Arm := armFixed .uint32

/-- Field `UINT32` (R165), pulled. -/
def execUint32 (m : Nibble) (s : State) : Out := nextField (armUint32 m) s

/-- The arm of `INT64` (R166). -/
def armInt64 (_m : Nibble) : Arm := armFixed .int64

/-- Field `INT64` (R166), pulled. -/
def execInt64 (m : Nibble) (s : State) : Out := nextField (armInt64 m) s

/-- The arm of `UINT64` (R167). -/
def armUint64 (_m : Nibble) : Arm := armFixed .uint64

/-- Field `UINT64` (R167), pulled. -/
def execUint64 (m : Nibble) (s : State) : Out := nextField (armUint64 m) s

/-- The arm of `FLOAT32` (R168). -/
def armFloat32 (_m : Nibble) : Arm := armFixed .float32

/-- Field `FLOAT32` (R168), pulled. -/
def execFloat32 (m : Nibble) (s : State) : Out := nextField (armFloat32 m) s

/-- The arm of `FLOAT64` (R169). -/
def armFloat64 (_m : Nibble) : Arm := armFixed .float64

/-- Field `FLOAT64` (R169), pulled. -/
def execFloat64 (m : Nibble) (s : State) : Out := nextField (armFloat64 m) s

end Sys2Proof.Machine
end

