-- ==== Sys2Proof/Machine/Short.lean ====
section
/-! DEFINITION. Machine/Short.lean: the short-integer codec (43_short_codec.md R180 to R183). -/

namespace Sys2Proof.Machine

/-- The body of `ADD_SHORT` (R180): the argument check comes before the capacity check (D37). -/
def addShortBody (arg0 : Word) (s : State) : Except Cause (Enc × Reply) :=
  let v := (lowByte arg0).toNat
  if 15 < v then .error .invalidArgument
  else
    match pack 12 v with
    | .error c => .error c
    | .ok h => addBytes [h] s.enc

/-- `ADD_SHORT` (R180). -/
def execAddShort (arg0 : Word) (s : State) : Out := encCommand (addShortBody arg0) s

/-- `decode_field_12` (R182): the value is the metadata; the reported size is 1 and the reference is the
header byte itself (C1, D14). -/
def armShort (m : Nibble) : Arm := fun _ p0 =>
  .ok { ltype := 12, lvalue := m.setWidth 64, lsize := 1, lrefk := .inbuf, loff := p0, rpos := p0 + 1 }

/-- Field `SHORT` (R182), pulled. -/
def execShort (m : Nibble) (s : State) : Out := nextField (armShort m) s

end Sys2Proof.Machine
end

