-- ==== Sys2Proof/Machine/Leb128.lean ====
section
/-! DEFINITION. Machine/Leb128.lean: the LEB128 codec (41_leb128_codec.md R130 to R142), its two add
commands and its two wire types. -/

namespace Sys2Proof.Machine

/-! ### Encoders -/

/-- The loop of `uleb_bytes` (R130). Ten groups carry 64 bits, so the bound is never what ends it. -/
def ulebGroups : Nat → Word → List Byte
  | 0, _ => []
  | fuel + 1, v =>
    let g : Byte := (v.extractLsb' 0 7).setWidth 8
    let rest := v >>> 7
    if rest = 0 then [g] else (0x80#8 ||| g) :: ulebGroups fuel rest

/-- `uleb_bytes(v)` (R130). -/
def ulebBytes (v : Word) : List Byte := ulebGroups 10 v

/-- The loop of `sleb_bytes` on a mathematical integer (R131, R142): the group is the residue mod 128, the
shift is floor division by 128. Ten groups carry an `i64`, so the bound is never what ends it. -/
def slebGroups : Nat → Int → List Byte
  | 0, _ => []
  | fuel + 1, v =>
    let g : Byte := BitVec.ofInt 8 (v % 128)
    let rest := v / 128
    if (rest = 0 ∧ g.getLsbD 6 = false) ∨ (rest = -1 ∧ g.getLsbD 6 = true) then [g]
    else (0x80#8 ||| g) :: slebGroups fuel rest

/-- `sleb_bytes(v)` of the 64-bit pattern of `v` (R131, R137). -/
def slebBytes (v : Word) : List Byte := slebGroups 10 v.toInt

/-! ### Decoders -/

/-- What `dec_uleb` returns (R134): the value, the next offset, the total shift, the last byte. -/
structure UlebResult where
  value : Word
  next : Nat
  shift : Nat
  last : Byte
deriving DecidableEq, Repr

/-- The loop of `dec_uleb` (R134): the shift test comes before the read (D17); a group is OR-ed in at its
shift, bits at 64 and above are dropped (D16). The eleventh turn always fails the shift test, so the bound
is never what ends it. -/
def ulebLoop (s : State) : Nat → Nat → Word → Nat → Except Cause UlebResult
  | 0, _, _, _ => .error .overflow
  | fuel + 1, p, result, shift =>
    if 64 ≤ shift then .error .overflow
    else
      match readByte s p with
      | .error c => .error c
      | .ok b =>
        let result' := result ||| ((b.extractLsb' 0 7).setWidth 64 <<< shift)
        if b.getLsbD 7 then ulebLoop s fuel (p + 1) result' (shift + 7)
        else .ok { value := result', next := p + 1, shift := shift + 7, last := b }

/-- `dec_uleb(p)` (R134). -/
def decUleb (s : State) (p : Nat) : Except Cause UlebResult := ulebLoop s 11 p 0 0

/-- The sign extension of `dec_sleb` (R135): only when fewer than 64 bits were read. -/
def slebExtend (r : UlebResult) : Word :=
  if r.shift < 64 ∧ r.last.getLsbD 6 = true then r.value ||| (BitVec.allOnes 64 <<< r.shift) else r.value

/-- `dec_sleb(p)` (R135): the 64-bit pattern of the value, and the next offset. -/
def decSleb (s : State) (p : Nat) : Except Cause (Word × Nat) :=
  match decUleb s p with
  | .error c => .error c
  | .ok r => .ok (slebExtend r, r.next)

/-! ### Commands of the encoder -/

/-- The body of R136 and R137: header of type `t`, then the LEB128 bytes. -/
def addLeb (t : Nat) (payload : List Byte) (s : State) : Except Cause (Enc × Reply) :=
  match pack t 0 with
  | .error c => .error c
  | .ok h => addBytes (h :: payload) s.enc

/-- `ADD_ULEB128` (R136). -/
def execAddUleb128 (arg0 : Word) (s : State) : Out := encCommand (addLeb 8 (ulebBytes arg0)) s

/-- `ADD_SLEB128` (R137). -/
def execAddSleb128 (arg0 : Word) (s : State) : Out := encCommand (addLeb 9 (slebBytes arg0)) s

/-! ### Wire types 8 and 9 -/

/-- `decode_field_8` (R138); the metadata is ignored (R97). -/
def armUleb128 (_m : Nibble) : Arm := fun s p0 =>
  match decUleb s (p0 + 1) with
  | .error c => .error c
  | .ok r => .ok { ltype := 8, lvalue := r.value, lsize := 8, lrefk := .temp, loff := 0, rpos := r.next }

/-- `decode_field_9` (R139); the metadata is ignored (R97). -/
def armSleb128 (_m : Nibble) : Arm := fun s p0 =>
  match decSleb s (p0 + 1) with
  | .error c => .error c
  | .ok (v, p) => .ok { ltype := 9, lvalue := v, lsize := 8, lrefk := .temp, loff := 0, rpos := p }

/-- Field `ULEB128` (R138), pulled. -/
def execUleb128 (m : Nibble) (s : State) : Out := nextField (armUleb128 m) s

/-- Field `SLEB128` (R139), pulled. -/
def execSleb128 (m : Nibble) (s : State) : Out := nextField (armSleb128 m) s

end Sys2Proof.Machine
end

