-- ==== Sys2Proof/Machine/Vector.lean ====
section
/-! DEFINITION. Machine/Vector.lean: the vector codec (44_vector_codec.md R190 to R196). -/

namespace Sys2Proof.Machine

/-- Header and length of a vector field: format `VS` below 15, else format `VL` (R190). -/
def vectorHeader (length : Word) : Except Cause (List Byte) :=
  if length.toNat < 15 then
    match pack 13 length.toNat with
    | .error c => .error c
    | .ok h => .ok [h]
  else
    match pack 13 15 with
    | .error c => .error c
    | .ok h => .ok (h :: ulebBytes length)

/-- The body of `ADD_VECTOR` (R190): one capacity check for header, length and span; the cursor moves past
the span at once and the span bytes are not written (D21). -/
def addVectorBody (length : Word) (s : State) : Except Cause (Enc × Reply) :=
  match vectorHeader length with
  | .error c => .error c
  | .ok hdr =>
    match emitField hdr length.toNat s.enc with
    | .error c => .error c
    | .ok e =>
      let base := s.enc.wpos + hdr.length
      .ok ({ e with vbase := base, vlen := length.toNat, vvalid := true }, .ok (BitVec.ofNat 64 base) length)

/-- `ADD_VECTOR` (R190). -/
def execAddVector (length : Word) (s : State) : Out := encCommand (addVectorBody length) s

/-- The body of `ENC_FILL` (R192). -/
def encFillBody (idx arg1 : Word) (s : State) : Except Cause (Enc × Reply) :=
  if s.enc.vvalid = false ∨ s.enc.vlen ≤ idx.toNat then .ok (s.enc, .refused)
  else
    .ok ({ s.enc with wbuf := Memory.write s.enc.wbuf (s.enc.vbase + idx.toNat) (lowByte arg1) }, .ok 0 0)

/-- `ENC_FILL` (R192). -/
def execEncFill (idx arg1 : Word) (s : State) : Out := encCommand (encFillBody idx arg1) s

/-- The view of `length` bytes at offset `p` (R195): the bytes are not read, only bounds-checked, in
naturals (R73, R80). -/
def commitView (length p : Nat) (s : State) : Except Cause Commit :=
  if s.dec.rsize - p < length then .error .truncated
  else
    .ok { ltype := 13, lvalue := BitVec.ofNat 64 p, lsize := length, lrefk := .inbuf, loff := p, rpos := p + length }

/-- `decode_field_13` with the length in the metadata (R195, format `VS`). -/
def armVector (m : Nibble) : Arm := fun s p0 => commitView m.toNat (p0 + 1) s

/-- `decode_field_13` with the large flag (R195, format `VL`): the faults of the ULEB128 length come first
(R299); a length below 15 is accepted (R98). -/
def armVectorLarge : Arm := fun s p0 =>
  match decUleb s (p0 + 1) with
  | .error c => .error c
  | .ok r => commitView r.value.toNat r.next s

/-- Field `VECTOR`, literal length (R195), pulled. -/
def execVector (m : Nibble) (s : State) : Out := nextField (armVector m) s

/-- Field `VECTOR`, large flag (R195), pulled. -/
def execVectorLarge (s : State) : Out := nextField armVectorLarge s

end Sys2Proof.Machine
end

