-- ==== Sys2Proof/Machine/Dispatcher.lean ====
section
/-! DEFINITION. Machine/Dispatcher.lean: the field dispatcher: the pull model `DEC_NEXT` and the push model
`DEC_RUN` (47_stream_reader_dispatcher.md R260 to R275). -/

namespace Sys2Proof.Machine

/-- The dispatch table (R261): from a header byte to the arm that decodes it. The last arm is type 15; a
nibble has no other value. -/
def armOf (h : Byte) : Arm :=
  let (t, m) := unpack h
  match t.toNat with
  | 0 => armInt8 m
  | 1 => armUint8 m
  | 2 => armInt16 m
  | 3 => armUint16 m
  | 4 => armInt32 m
  | 5 => armUint32 m
  | 6 => armInt64 m
  | 7 => armUint64 m
  | 8 => armUleb128 m
  | 9 => armSleb128 m
  | 10 => armFloat32 m
  | 11 => armFloat64 m
  | 12 => armShort m
  | 13 => if m = 15#4 then armVectorLarge else armVector m
  | 14 => armReserved14 m
  | _ => armEof m

/-- Read the header at the cursor and run its arm (R260). -/
def armAt : Arm := fun s p0 =>
  match readByte s p0 with
  | .error c => .error c
  | .ok h => armOf h s p0

/-- `DEC_NEXT` (R260). -/
def execDecNext (s : State) : Out := nextField armAt s

/-- The event of the field a step has just committed (R270). -/
def eventOf (d : Dec) : Event :=
  { evType := d.ltype, evRefk := d.lrefk, evOff := d.loff, evValue := d.lvalue, evSize := d.lsize }

/-- The terminal signal `(EOF, null, 0)` (R271). -/
def terminalEvent : Event := { evType := 15, evRefk := .null, evOff := 0, evValue := 0, evSize := 0 }

/-- The end of a `DEC_RUN` that reached EOF: the terminal event, then `OK(count, 0)` (R271). -/
def runEnd (count : Nat) (evs : List Event) (s : State) : State :=
  answerDec (evs ++ [terminalEvent]) (.okWith (BitVec.ofNat 64 count) 0) s

/-- The loop of `DEC_RUN` (R271), with the fields and events delivered so far. `fuel` bounds the turns;
`rsize - rpos + 1` turns are always enough (R273), so its end is never reached. In `Done` the terminal
signal is given at once (log 14). -/
def runLoop : Nat → Nat → List Event → State → State
  | 0, count, evs, s => runEnd count evs s
  | fuel + 1, count, evs, s =>
    if s.dec.dstate = .done then runEnd count evs s
    else
      match fieldStep armAt s with
      | .error c => takeFault .dec evs c s
      | .ok d =>
        if d.ltype = 15#4 then runEnd count evs (s.withDec d)
        else runLoop fuel (count + 1) (evs ++ [eventOf d]) (s.withDec d)

/-- `DEC_RUN` (R271). -/
def execDecRun (s : State) : Out :=
  if s.dec.dstate = .aborted then .next (answerDec [] (.faultOf s.dec.dcause) s)
  else .next (runLoop (s.dec.rsize - s.dec.rpos + 1) 0 [] s)

end Sys2Proof.Machine
end

