-- ==== Sys2Proof/Machine/Reader.lean ====
section
/-! DEFINITION. Machine/Reader.lean: construction, filling, restart and readout of the decoder
(47_stream_reader_dispatcher.md R255 to R259). -/

namespace Sys2Proof.Machine

/-- `DEC_ATTACH` (R255): accepted in every state; no host memory is read. The sums are naturals (R223). The empty
window at `base = 2^HAW` passes the check, and `rbase`, which R33 makes `HAW` bits wide, then holds `base` whole:
the spec does not say what it holds (DESIGN CHOICE, unsafe, log 17). -/
def execDecAttach (base size : Word) (s : State) : Out :=
  if 2 ^ s.cfg.aw - 1 < size.toNat ∨ 2 ^ s.cfg.haw < base.toNat + size.toNat then
    .next (takeFault .dec [] .invalidArgument s)
  else .next (answerDec [] (.okWith 0 0) (s.withDec (s.dec.construct .borrowed base.toNat size.toNat)))

/-- `DEC_ALLOC` (R256): accepted in every state; `rbuf` is not cleared. -/
def execDecAlloc (size : Word) (s : State) : Out :=
  if s.cfg.rbufMax < size.toNat then .next (takeFault .dec [] .invalidArgument s)
  else .next (answerDec [] (.okWith 0 0) (s.withDec (s.dec.construct .owned 0 size.toNat)))

/-- The body of `DEC_LOAD` (R257): only an owned buffer, only before decoding begins, only inside. -/
def decLoadBody (idx arg1 : Word) (s : State) : Dec × Reply :=
  if s.dec.rmode ≠ .owned ∨ s.dec.dstate ≠ .ready ∨ s.dec.rsize ≤ idx.toNat then (s.dec, .refused)
  else ({ s.dec with rbuf := Memory.write s.dec.rbuf idx.toNat (lowByte arg1) }, .ok 0 0)

/-- `DEC_LOAD` (R257). -/
def execDecLoad (idx arg1 : Word) (s : State) : Out := decCommand (decLoadBody idx arg1) s

/-- The body of `DEC_RESET` (R258): buffer, kind and size are kept. -/
def decResetBody (s : State) : Dec × Reply := (s.dec.rewind, .ok 0 0)

/-- `DEC_RESET` (R258). -/
def execDecReset (s : State) : Out := decCommand decResetBody s

/-- The body of `DEC_READ` (R259). -/
def decReadBody (off : Word) (s : State) : Dec × Reply :=
  if s.dec.rsize ≤ off.toNat then (s.dec, .refused) else (s.dec, .ok (byteWord (src s off.toNat)) 0)

/-- `DEC_READ` (R259). -/
def execDecRead (off : Word) (s : State) : Out := decCommand (decReadBody off) s

end Sys2Proof.Machine
end

