-- ==== Sys2Proof/Machine/Writer.lean ====
section
/-! DEFINITION. Machine/Writer.lean: construction, restart and readout of the encoder (46_stream_writer.md
R225 to R228). -/

namespace Sys2Proof.Machine

/-- `ENC_INIT` (R225): accepted in every state; a capacity the unit does not have is `InvalidArgument`
(D12) and replaces an older cause (R298). -/
def execEncInit (cap : Word) (s : State) : Out :=
  if s.cfg.wbufMax < cap.toNat then .next (takeFault .enc [] .invalidArgument s)
  else .next (answerEnc (.okWith 0 0) (s.withEnc (s.enc.construct cap.toNat)))

/-- The body of `ENC_RESET` (R226): capacity and buffer are kept. -/
def encResetBody (s : State) : Except Cause (Enc × Reply) :=
  .ok ({ s.enc with wpos := 0, vvalid := false, vbase := 0, vlen := 0 }, .ok 0 0)

/-- `ENC_RESET` (R226). -/
def execEncReset (s : State) : Out := encCommand encResetBody s

/-- The body of `ENC_READ` (R227): only output bytes are readable. -/
def encReadBody (off : Word) (s : State) : Except Cause (Enc × Reply) :=
  if s.enc.wpos ≤ off.toNat then .ok (s.enc, .refused)
  else .ok (s.enc, .ok (byteWord (wbufByte s off.toNat)) 0)

/-- `ENC_READ` (R227). -/
def execEncRead (off : Word) (s : State) : Out := encCommand (encReadBody off) s

/-- The output of the encoder: the bytes below `wpos` (R228). It is output only in the Active state. -/
def outputBytes (s : State) : List Byte := (List.range s.enc.wpos).map (wbufByte s)

end Sys2Proof.Machine
end

