-- ==== Sys2Proof/Machine/Dispatch.lean ====
section
/-! DEFINITION. Machine/Dispatch.lean: from an instruction to its meaning. A wire row is the field under the
cursor, pulled (log 9). -/

namespace Sys2Proof.Machine

def exec (i : Instr) (s : State) : Host.Outcome State Fault Refusal :=
  match i with
  | .int8 m => Sys2Proof.Machine.execInt8 m s
  | .uint8 m => Sys2Proof.Machine.execUint8 m s
  | .int16 m => Sys2Proof.Machine.execInt16 m s
  | .uint16 m => Sys2Proof.Machine.execUint16 m s
  | .int32 m => Sys2Proof.Machine.execInt32 m s
  | .uint32 m => Sys2Proof.Machine.execUint32 m s
  | .int64 m => Sys2Proof.Machine.execInt64 m s
  | .uint64 m => Sys2Proof.Machine.execUint64 m s
  | .uleb128 m => Sys2Proof.Machine.execUleb128 m s
  | .sleb128 m => Sys2Proof.Machine.execSleb128 m s
  | .float32 m => Sys2Proof.Machine.execFloat32 m s
  | .float64 m => Sys2Proof.Machine.execFloat64 m s
  | .short m => Sys2Proof.Machine.execShort m s
  | .vector m => Sys2Proof.Machine.execVector m s
  | .vectorLarge => Sys2Proof.Machine.execVectorLarge s
  | .reserved14 m => Sys2Proof.Machine.execReserved14 m s
  | .eof m => Sys2Proof.Machine.execEof m s
  | .addInt8 arg0 => Sys2Proof.Machine.execAddInt8 arg0 s
  | .addUint8 arg0 => Sys2Proof.Machine.execAddUint8 arg0 s
  | .addInt16 arg0 => Sys2Proof.Machine.execAddInt16 arg0 s
  | .addUint16 arg0 => Sys2Proof.Machine.execAddUint16 arg0 s
  | .addInt32 arg0 => Sys2Proof.Machine.execAddInt32 arg0 s
  | .addUint32 arg0 => Sys2Proof.Machine.execAddUint32 arg0 s
  | .addInt64 arg0 => Sys2Proof.Machine.execAddInt64 arg0 s
  | .addUint64 arg0 => Sys2Proof.Machine.execAddUint64 arg0 s
  | .addUleb128 arg0 => Sys2Proof.Machine.execAddUleb128 arg0 s
  | .addSleb128 arg0 => Sys2Proof.Machine.execAddSleb128 arg0 s
  | .addFloat32 arg0 => Sys2Proof.Machine.execAddFloat32 arg0 s
  | .addFloat64 arg0 => Sys2Proof.Machine.execAddFloat64 arg0 s
  | .addShort arg0 => Sys2Proof.Machine.execAddShort arg0 s
  | .addVector length => Sys2Proof.Machine.execAddVector length s
  | .reserved0E => Sys2Proof.Machine.execReserved0E s
  | .addEof => Sys2Proof.Machine.execAddEof s
  | .encInit cap => Sys2Proof.Machine.execEncInit cap s
  | .encReset => Sys2Proof.Machine.execEncReset s
  | .encFill idx arg1 => Sys2Proof.Machine.execEncFill idx arg1 s
  | .encRead off => Sys2Proof.Machine.execEncRead off s
  | .decAttach base size => Sys2Proof.Machine.execDecAttach base size s
  | .decAlloc size => Sys2Proof.Machine.execDecAlloc size s
  | .decLoad idx arg1 => Sys2Proof.Machine.execDecLoad idx arg1 s
  | .decReset => Sys2Proof.Machine.execDecReset s
  | .decNext => Sys2Proof.Machine.execDecNext s
  | .decRun => Sys2Proof.Machine.execDecRun s
  | .decRead off => Sys2Proof.Machine.execDecRead off s

end Sys2Proof.Machine
end

