-- ==== Sys2Proof/Machine/Port.lean ====
section
/-! DEFINITION. Machine/Port.lean: what the machine does next. The host's actions stand in `port`, in the
order the ports accept them (R15, R77, D38; log 2, 3). -/

namespace Sys2Proof.Machine

/-- What a step finds on the port. -/
inductive Fetched
  /-- no action waits: the units are idle and hold their state (R312) -/
  | idle
  /-- a command that is an instruction, and the state with it taken from the port -/
  | run (i : Instr) (s : State)
  /-- a record that names no command of unit `u` (R105) -/
  | unassigned (u : UnitId) (s : State)
  /-- a write of the host to its own memory -/
  | writeHost (addr : Nat) (b : Byte) (s : State)
  /-- hardware reset (R330) -/
  | reset (s : State)
deriving DecidableEq, Repr

/-- Take the next host action and decode it. -/
def fetch (s : State) : Fetched :=
  match s.port with
  | [] => .idle
  | .command u c :: rest =>
    match decode (.command u c) with
    | .ok i => .run i (s.withPort rest)
    | .error _ => .unassigned u (s.withPort rest)
  | .writeHost addr b :: rest => .writeHost addr b (s.withPort rest)
  | .hardwareReset :: rest => .reset (s.withPort rest)

/-- The host writes a byte of its memory; addresses are `HAW` bits wide (R33, R60; log 8, 10). -/
def hostWrite (addr : Nat) (b : Byte) (s : State) : Out :=
  if 2 ^ s.cfg.haw ≤ addr then .fault (.hostAddressOutOfRange addr)
  else .next (s.withHmem (Memory.write s.hmem addr b))

/-- The state with a command record as the next thing the host does. -/
def placeCommand (u : UnitId) (c : CmdRecord) (s : State) : State :=
  s.withPort (.command u c :: s.port)

/-- The state with the bytes `bs` under the cursor of an owned source and a `DEC_NEXT` as the next thing the
host does. A decoder that has ended its pass is put back into one (log 1). -/
def placeField (bs : List Byte) (s : State) : State :=
  let d := s.dec
  let d' : Dec :=
    { d with
      rmode := .owned
      rbuf := Memory.writeList d.rbuf d.rpos bs
      rsize := max d.rsize (d.rpos + bs.length)
      dstate := match d.dstate with
        | .ready => .ready
        | .decoding | .done | .aborted => .decoding
      dcause := .noFault }
  placeCommand .dec { op := 0x24, arg0 := 0, arg1 := 0 } (s.withDec d')

end Sys2Proof.Machine
end

