-- ==== Sys2Proof/Machine/Step.lean ====
section
/-! DEFINITION. Machine/Step.lean: one step of the machine: one action of the host, and for a command its
whole run to the response (R15, D1). -/

namespace Sys2Proof.Machine

/-- One step. Nothing is left to do on an empty port (R312). -/
def step (s : State) : Host.Outcome State Fault Refusal :=
  match fetch s with
  | .idle => .next s
  | .run i s' => exec i s'
  | .unassigned u s' => .next (refuse u s')
  | .writeHost addr b s' => hostWrite addr b s'
  | .reset s' => .next (hardwareReset s')

/-- The state whose very next step runs the instruction of a word of the opcode table (log 1): a command
stands on the port; a wire field stands under the cursor, with a `DEC_NEXT` on the port. Sixteen bytes hold
the longest field of format `VS` and every other field whose bytes after the header are 0. -/
def State.withFetchWord (s : State) (nbits w : Nat) : State :=
  match codeWordOfTable nbits w with
  | .command u c => placeCommand u c s
  | .field _ => placeField (tableBytes (w % 2 ^ nbits) 16) s

end Sys2Proof.Machine
end

