-- ==== Sys2Proof/Machine/Flags.lean ====
section
/-! DEFINITION. Machine/Flags.lean: the fault lines (60_exceptions.md R300), the numeric codes of the state
fields (R290, decisions D5, D34) and the read-only status port (10_state.md R21). The block has no
arithmetic flags (R142, R177). -/

namespace Sys2Proof.Machine

/-- The line `enc_fault = efault` (R300). -/
def encFaultLine (s : State) : Bool := s.enc.efault

/-- The line `dec_fault = (dstate == Aborted)` (R300). -/
def decFaultLine (s : State) : Bool := decide (s.dec.dstate = .aborted)

/-- The cause codes (R290). -/
def Cause.code : Cause → Nat
  | .noFault => 0
  | .truncated => 1
  | .overflow => 2
  | .capacityExceeded => 3
  | .invalidArgument => 4
  | .unknownType => 5

/-- The status codes (R104). -/
def Status.code : Status → Nat
  | .ok => 0
  | .fault => 1
  | .refused => 2

/-- The `rmode` codes (R31). -/
def RMode.code : RMode → Nat
  | .owned => 0
  | .borrowed => 1

/-- The `dstate` codes (R36). -/
def DState.code : DState → Nat
  | .ready => 0
  | .decoding => 1
  | .done => 2
  | .aborted => 3

/-- The `lrefk` codes (R41). -/
def RefKind.code : RefKind → Nat
  | .null => 0
  | .inbuf => 1
  | .temp => 2

/-- The registers the status port shows (R21), under the names of 10_state.md. -/
inductive StatusReg
  | wcap | wpos | efault | ecause | vvalid | vbase | vlen
  | rmode | rbase | rsize | rpos | dstate | dcause | ltype | lvalue | lsize | lrefk | loff
deriving DecidableEq, Repr

/-- What the host reads on the status port between commands: the value the last completed command left
(R21). Reading changes nothing. -/
def statusPort (s : State) : StatusReg → Nat
  | .wcap => s.enc.wcap
  | .wpos => s.enc.wpos
  | .efault => s.enc.efault.toNat
  | .ecause => s.enc.ecause.code
  | .vvalid => s.enc.vvalid.toNat
  | .vbase => s.enc.vbase
  | .vlen => s.enc.vlen
  | .rmode => s.dec.rmode.code
  | .rbase => s.dec.rbase
  | .rsize => s.dec.rsize
  | .rpos => s.dec.rpos
  | .dstate => s.dec.dstate.code
  | .dcause => s.dec.dcause.code
  | .ltype => s.dec.ltype.toNat
  | .lvalue => s.dec.lvalue.toNat
  | .lsize => s.dec.lsize
  | .lrefk => s.dec.lrefk.code
  | .loff => s.dec.loff

end Sys2Proof.Machine
end

