-- ==== Sys2Proof/Machine/Stream.lean ====
section
/-! DEFINITION. Machine/Stream.lean: streams of fields as the spec's notation names them (30_encoding.md
R110, R112): what a field is on the wire in its canonical spelling (R98), which commands add it, and which
event delivers it. No meaning of an instruction rests on this file; the round trips of the spec (R176,
R183, R196, R228, R275) are stated with it. -/

namespace Sys2Proof.Machine

/-- A field of a stream, `<MNEMONIC>(<value>)` (R110). Floats are bit patterns. -/
inductive Field
  | int8 (v : BitVec 8)
  | uint8 (v : BitVec 8)
  | int16 (v : BitVec 16)
  | uint16 (v : BitVec 16)
  | int32 (v : BitVec 32)
  | uint32 (v : BitVec 32)
  | int64 (v : BitVec 64)
  | uint64 (v : BitVec 64)
  | float32 (v : BitVec 32)
  | float64 (v : BitVec 64)
  | uleb128 (v : Word)
  | sleb128 (v : Word)
  | short (v : Nibble)
  | vector (bytes : List Byte)
  | eof
deriving DecidableEq, Repr

/-- A field that can be added: the length of a vector is a `u64` (R190). -/
def Field.valid : Field → Bool
  | .vector bs => decide (bs.length < 2 ^ 64)
  | .int8 _ | .uint8 _ | .int16 _ | .uint16 _ | .int32 _ | .uint32 _ | .int64 _ | .uint64 _
  | .float32 _ | .float64 _ | .uleb128 _ | .sleb128 _ | .short _ | .eof => true

/-- Header and length of a vector of `n` bytes (R190). -/
def vectorLead (n : Nat) : List Byte :=
  if n < 15 then [headerByte 13 (BitVec.ofNat 4 n)] else 0xFD#8 :: ulebBytes (BitVec.ofNat 64 n)

/-- The canonical bytes of a field (R91, R98). -/
def Field.bytes : Field → List Byte
  | .int8 v => 0#8 :: leBytes (v.setWidth 64) 1
  | .uint8 v => 1#8 :: leBytes (v.setWidth 64) 1
  | .int16 v => 2#8 :: leBytes (v.setWidth 64) 2
  | .uint16 v => 3#8 :: leBytes (v.setWidth 64) 2
  | .int32 v => 4#8 :: leBytes (v.setWidth 64) 4
  | .uint32 v => 5#8 :: leBytes (v.setWidth 64) 4
  | .int64 v => 6#8 :: leBytes v 8
  | .uint64 v => 7#8 :: leBytes v 8
  | .float32 v => 10#8 :: leBytes (v.setWidth 64) 4
  | .float64 v => 11#8 :: leBytes v 8
  | .uleb128 v => 8#8 :: ulebBytes v
  | .sleb128 v => 9#8 :: slebBytes v
  | .short v => [headerByte 12 v]
  | .vector bs => vectorLead bs.length ++ bs
  | .eof => [15#8]

/-- One record on the command port of `ENC`. -/
def encRecord (op : BitVec 8) (a0 a1 : Word) : CmdRecord := { op := op, arg0 := a0, arg1 := a1 }

/-- The fills of a span from index `i` on (R192). -/
def fillsFrom : Nat → List Byte → List CmdRecord
  | _, [] => []
  | i, b :: bs => encRecord 0x12 (BitVec.ofNat 64 i) (b.setWidth 64) :: fillsFrom (i + 1) bs

/-- The pseudo-command `ADD_VECTOR_BYTES [b0 ... b(n-1)]` (R112): the reservation, then every fill in order. -/
def addVectorBytes (bs : List Byte) : List CmdRecord :=
  encRecord 0x0D (BitVec.ofNat 64 bs.length) 0 :: fillsFrom 0 bs

/-- The commands that add a field (R101, R112). -/
def Field.commands : Field → List CmdRecord
  | .int8 v => [encRecord 0x00 (v.setWidth 64) 0]
  | .uint8 v => [encRecord 0x01 (v.setWidth 64) 0]
  | .int16 v => [encRecord 0x02 (v.setWidth 64) 0]
  | .uint16 v => [encRecord 0x03 (v.setWidth 64) 0]
  | .int32 v => [encRecord 0x04 (v.setWidth 64) 0]
  | .uint32 v => [encRecord 0x05 (v.setWidth 64) 0]
  | .int64 v => [encRecord 0x06 v 0]
  | .uint64 v => [encRecord 0x07 v 0]
  | .float32 v => [encRecord 0x0A (v.setWidth 64) 0]
  | .float64 v => [encRecord 0x0B v 0]
  | .uleb128 v => [encRecord 0x08 v 0]
  | .sleb128 v => [encRecord 0x09 v 0]
  | .short v => [encRecord 0x0C (v.setWidth 64) 0]
  | .vector bs => addVectorBytes bs
  | .eof => [encRecord 0x0F 0 0]

/-- The event that delivers a field whose header is at offset `p`: its (type, value, size) with the payload
reference (R40, R45, R270). An EOF is the terminal event. -/
def Field.event (p : Nat) : Field → Event
  | .int8 v => { evType := 0, evRefk := .inbuf, evOff := p + 1, evValue := v.signExtend 64, evSize := 1 }
  | .uint8 v => { evType := 1, evRefk := .inbuf, evOff := p + 1, evValue := v.setWidth 64, evSize := 1 }
  | .int16 v => { evType := 2, evRefk := .inbuf, evOff := p + 1, evValue := v.signExtend 64, evSize := 2 }
  | .uint16 v => { evType := 3, evRefk := .inbuf, evOff := p + 1, evValue := v.setWidth 64, evSize := 2 }
  | .int32 v => { evType := 4, evRefk := .inbuf, evOff := p + 1, evValue := v.signExtend 64, evSize := 4 }
  | .uint32 v => { evType := 5, evRefk := .inbuf, evOff := p + 1, evValue := v.setWidth 64, evSize := 4 }
  | .int64 v => { evType := 6, evRefk := .inbuf, evOff := p + 1, evValue := v, evSize := 8 }
  | .uint64 v => { evType := 7, evRefk := .inbuf, evOff := p + 1, evValue := v, evSize := 8 }
  | .float32 v => { evType := 10, evRefk := .inbuf, evOff := p + 1, evValue := v.setWidth 64, evSize := 4 }
  | .float64 v => { evType := 11, evRefk := .inbuf, evOff := p + 1, evValue := v, evSize := 8 }
  | .uleb128 v => { evType := 8, evRefk := .temp, evOff := 0, evValue := v, evSize := 8 }
  | .sleb128 v => { evType := 9, evRefk := .temp, evOff := 0, evValue := v, evSize := 8 }
  | .short v => { evType := 12, evRefk := .inbuf, evOff := p, evValue := v.setWidth 64, evSize := 1 }
  | .vector bs =>
    let off := p + (vectorLead bs.length).length
    { evType := 13, evRefk := .inbuf, evOff := off, evValue := BitVec.ofNat 64 off, evSize := bs.length }
  | .eof => terminalEvent

/-- The bytes of a stream, in insertion order with no gap (R68). -/
def streamBytes (fs : List Field) : List Byte := fs.flatMap Field.bytes

/-- The commands that add a stream, on the port of `ENC`. -/
def streamCommands (fs : List Field) : List HostAction :=
  (fs.flatMap Field.commands).map (.command .enc)

/-- The fields before the first EOF: what a decoder delivers (R211, R212). -/
def fieldsToEof : List Field → List Field
  | [] => []
  | f :: fs => if f = .eof then [] else f :: fieldsToEof fs

/-- The events of the fields of a stream whose first header is at offset `p`, without the terminal one. -/
def streamEvents : Nat → List Field → List Event
  | _, [] => []
  | p, f :: fs => f.event p :: streamEvents (p + f.bytes.length) fs

end Sys2Proof.Machine
end

