-- ==== Sys2Proof/WellFormed.lean ====
section
/-! DEFINITION. WellFormed.lean: which terms of `Instr` stand for an encoding. -/

namespace Sys2Proof

/-- A term is well formed when some code word means it. The one check: format `VS` has metadata 0 to 14,
since metadata 15 is the row `VECTOR_LARGE` (R91, R92). Every other operand is admitted at every value:
non-zero metadata on the types that do not use it is accepted (R97), and every 64-bit argument is a legal
operand (R103). -/
def Instr.wellFormed : Instr → Bool
  | .vector m => m != 15#4
  | .int8 _ | .uint8 _ | .int16 _ | .uint16 _ | .int32 _ | .uint32 _ | .int64 _ | .uint64 _
  | .uleb128 _ | .sleb128 _ | .float32 _ | .float64 _ | .short _ | .vectorLarge | .reserved14 _
  | .eof _ => true
  | .addInt8 _ | .addUint8 _ | .addInt16 _ | .addUint16 _ | .addInt32 _ | .addUint32 _
  | .addInt64 _ | .addUint64 _ | .addUleb128 _ | .addSleb128 _ | .addFloat32 _ | .addFloat64 _
  | .addShort _ | .addVector _ | .reserved0E | .addEof | .encInit _ | .encReset | .encFill _ _
  | .encRead _ => true
  | .decAttach _ _ | .decAlloc _ | .decLoad _ _ | .decReset | .decNext | .decRun | .decRead _ => true

end Sys2Proof
end

