-- ==== Sys2Proof/Safety.lean ====
section
/-! DEFINITION. Safety.lean: the terms the statements are written in: the invariant of 10_state.md R49, and
how a command may end, each as the unit it leaves written out register by register. -/

namespace Sys2Proof

/-- The commands of `ENC`. -/
def Instr.isEnc : Instr → Bool
  | .addInt8 _ | .addUint8 _ | .addInt16 _ | .addUint16 _ | .addInt32 _ | .addUint32 _
  | .addInt64 _ | .addUint64 _ | .addUleb128 _ | .addSleb128 _ | .addFloat32 _ | .addFloat64 _
  | .addShort _ | .addVector _ | .reserved0E | .addEof | .encInit _ | .encReset | .encFill _ _
  | .encRead _ => true
  | .int8 _ | .uint8 _ | .int16 _ | .uint16 _ | .int32 _ | .uint32 _ | .int64 _ | .uint64 _
  | .uleb128 _ | .sleb128 _ | .float32 _ | .float64 _ | .short _ | .vector _ | .vectorLarge
  | .reserved14 _ | .eof _ => false
  | .decAttach _ _ | .decAlloc _ | .decLoad _ _ | .decReset | .decNext | .decRun | .decRead _ => false

/-- The instructions that pull fields: the wire rows, `DEC_NEXT` and `DEC_RUN`. -/
def Instr.isPull : Instr → Bool
  | .int8 _ | .uint8 _ | .int16 _ | .uint16 _ | .int32 _ | .uint32 _ | .int64 _ | .uint64 _
  | .uleb128 _ | .sleb128 _ | .float32 _ | .float64 _ | .short _ | .vector _ | .vectorLarge
  | .reserved14 _ | .eof _ | .decNext | .decRun => true
  | .addInt8 _ | .addUint8 _ | .addInt16 _ | .addUint16 _ | .addInt32 _ | .addUint32 _
  | .addInt64 _ | .addUint64 _ | .addUleb128 _ | .addSleb128 _ | .addFloat32 _ | .addFloat64 _
  | .addShort _ | .addVector _ | .reserved0E | .addEof | .encInit _ | .encReset | .encFill _ _
  | .encRead _ => false
  | .decAttach _ _ | .decAlloc _ | .decLoad _ _ | .decReset | .decRead _ => false

/-- The constructors of the two units (R18): the commands that begin a new instance. -/
def Instr.isConstructor : Instr → Bool
  | .encInit _ | .decAttach _ _ | .decAlloc _ => true
  | .int8 _ | .uint8 _ | .int16 _ | .uint16 _ | .int32 _ | .uint32 _ | .int64 _ | .uint64 _
  | .uleb128 _ | .sleb128 _ | .float32 _ | .float64 _ | .short _ | .vector _ | .vectorLarge
  | .reserved14 _ | .eof _ => false
  | .addInt8 _ | .addUint8 _ | .addInt16 _ | .addUint16 _ | .addInt32 _ | .addUint32 _
  | .addInt64 _ | .addUint64 _ | .addUleb128 _ | .addSleb128 _ | .addFloat32 _ | .addFloat64 _
  | .addShort _ | .addVector _ | .reserved0E | .addEof | .encReset | .encFill _ _ | .encRead _ => false
  | .decLoad _ _ | .decReset | .decNext | .decRun | .decRead _ => false

end Sys2Proof

namespace Sys2Proof.Machine

/-- What holds after reset and after every command (R49), with the bounds of R9, R42 and R63 and the
canonical form of the three memories. -/
structure MachineInv (s : State) : Prop where
  cfg_valid : s.cfg.valid = true
  wpos_le_wcap : s.enc.wpos ≤ s.enc.wcap
  wcap_le_max : s.enc.wcap ≤ s.cfg.wbufMax
  span_ends_at_wpos : s.enc.vvalid = true → s.enc.vbase + s.enc.vlen = s.enc.wpos
  efault_iff_cause : s.enc.efault = true ↔ s.enc.ecause ≠ .noFault
  wbuf_wf : Memory.wf s.enc.wbuf
  wbuf_below : Memory.below s.enc.wbuf s.cfg.wbufMax
  rpos_le_rsize : s.dec.rpos ≤ s.dec.rsize
  rsize_fits : s.dec.rsize ≤ 2 ^ s.cfg.aw - 1
  owned_fits : s.dec.rmode = .owned → s.dec.rsize ≤ s.cfg.rbufMax
  window_fits : s.dec.rmode = .borrowed → s.dec.rbase + s.dec.rsize ≤ 2 ^ s.cfg.haw
  aborted_iff_cause : s.dec.dstate = .aborted ↔ s.dec.dcause ≠ .noFault
  ltype_not_reserved : s.dec.ltype ≠ 14
  view_inside : s.dec.lrefk = .inbuf → s.dec.loff + s.dec.lsize ≤ s.dec.rsize
  no_view_no_offset : s.dec.lrefk ≠ .inbuf → s.dec.loff = 0
  ready_at_start : s.dec.dstate = .ready → s.dec.rpos = 0
  done_shows_eof : s.dec.dstate = .done →
    s.dec.ltype = 15 ∧ s.dec.lvalue = 0 ∧ s.dec.lsize = 0 ∧ s.dec.lrefk = .null ∧ s.dec.loff = 0
  rbuf_wf : Memory.wf s.dec.rbuf
  rbuf_below : Memory.below s.dec.rbuf s.cfg.rbufMax
  hmem_wf : Memory.wf s.hmem
  hmem_below : Memory.below s.hmem (2 ^ s.cfg.haw)

/-- `DEC` is in a pass: `Ready` or `Decoding` (R268). -/
def Live (s : State) : Prop := s.dec.dstate = .ready ∨ s.dec.dstate = .decoding

/-- `i` at `s` completes, and changes nothing outside `ENC`, which it leaves as `e`. -/
def LeavesEnc (i : Instr) (s : State) (e : Enc) : Prop := exec i s = .next { s with enc := e }

/-- `i` at `s` completes, and changes nothing outside `DEC`, which it leaves as `d`. -/
def LeavesDec (i : Instr) (s : State) (d : Dec) : Prop := exec i s = .next { s with dec := d }

/-- `ENC` in the Fault state answers the latched cause and changes nothing (R297). -/
def encLatched (s : State) : Enc :=
  { s.enc with resp := some { status := .fault, cause := s.enc.ecause, r0 := 0, r1 := 0 } }

/-- `ENC` after `raise c` (R296). -/
def encRaised (c : Cause) (s : State) : Enc :=
  { s.enc with efault := true, ecause := c, resp := some { status := .fault, cause := c, r0 := 0, r1 := 0 } }

/-- `ENC` after a refused command (R304). -/
def encRefused (s : State) : Enc :=
  { s.enc with resp := some { status := .refused, cause := .noFault, r0 := 0, r1 := 0 } }

/-- `DEC` in `Aborted` answers the latched cause, changes nothing and emits no event (R297). -/
def decLatched (s : State) : Dec :=
  { s.dec with resp := some { status := .fault, cause := s.dec.dcause, r0 := 0, r1 := 0 }, events := [] }

/-- `DEC` after `raise c` in a command that emitted `evs` before it (R296). -/
def decRaised (evs : List Event) (c : Cause) (s : State) : Dec :=
  { s.dec with
    dstate := .aborted, dcause := c, resp := some { status := .fault, cause := c, r0 := 0, r1 := 0 }, events := evs }

/-- `DEC` after a refused command (R304). -/
def decRefused (s : State) : Dec :=
  { s.dec with resp := some { status := .refused, cause := .noFault, r0 := 0, r1 := 0 }, events := [] }

/-- `OK(r0, r1)` (R104). -/
def okResponse (r0 r1 : Word) : Response := { status := .ok, cause := .noFault, r0 := r0, r1 := r1 }

/-- `DEC` after a pull that delivered the commit record `c` and ended in `st` (R260). -/
def delivered (c : Commit) (st : DState) (s : State) : Dec :=
  { s.dec with
    ltype := c.ltype, lvalue := c.lvalue, lsize := c.lsize, lrefk := c.lrefk, loff := c.loff, rpos := c.rpos,
    dstate := st, resp := some (okResponse (c.ltype.setWidth 64) (BitVec.ofNat 64 c.lsize)), events := [] }

/-- `i` at `s` completes with `OK(r0, r1)`, having put `bs` at the write position and moved it past `bs` and
`tail` more bytes; the span registers become as given. Every other byte of `wbuf`, every other register and
everything outside `ENC` is as before. -/
def Emits (i : Instr) (s : State) (bs : List Byte) (tail : Nat) (valid : Bool) (base len : Nat) (r0 r1 : Word) : Prop :=
  ∃ t, exec i s = .next t ∧
    t = { s with enc := { s.enc with
            wbuf := t.enc.wbuf, wpos := s.enc.wpos + bs.length + tail, vvalid := valid, vbase := base, vlen := len,
            resp := some (okResponse r0 r1) } } ∧
    (∀ k b, bs[k]? = some b → wbufByte t (s.enc.wpos + k) = b) ∧
    ∀ a, a < s.enc.wpos ∨ s.enc.wpos + bs.length ≤ a → wbufByte t a = wbufByte s a

/-- What every `ADD_*` but `ADD_VECTOR` does with the bytes `bs` of its field (R222, R224, R296, R297). -/
def AddsField (i : Instr) (s : State) (bs : List Byte) : Prop :=
  (s.enc.efault = true → LeavesEnc i s (encLatched s)) ∧
  (s.enc.efault = false → s.enc.wpos + bs.length ≤ s.enc.wcap →
    Emits i s bs 0 false s.enc.vbase s.enc.vlen 0 0) ∧
  (s.enc.efault = false → s.enc.wcap < s.enc.wpos + bs.length → LeavesEnc i s (encRaised .capacityExceeded s))

/-- Byte `k` of a 64-bit pattern. -/
def byteAt (v : Word) (k : Nat) : Byte := v.extractLsb' (8 * k) 8

/-- The source holds `bs` from offset `p` on (R64). -/
def SourceHolds (s : State) (p : Nat) (bs : List Byte) : Prop :=
  p + bs.length ≤ s.dec.rsize ∧ ∀ k b, bs[k]? = some b → src s (p + k) = b

/-- The wire row `i` of type `t` with a `w`-byte payload under the cursor: it delivers `v`, or raises
`Truncated` where fewer than `w` bytes follow the header (R153, R296). -/
def ScalarField (i : Instr) (s : State) (t : Nibble) (w : Nat) (v : Word) : Prop :=
  (s.dec.rpos + 1 + w ≤ s.dec.rsize →
    LeavesDec i s (delivered
      { ltype := t, lvalue := v, lsize := w, lrefk := .inbuf, loff := s.dec.rpos + 1, rpos := s.dec.rpos + 1 + w }
      .decoding s)) ∧
  (s.dec.rsize < s.dec.rpos + 1 + w → LeavesDec i s (decRaised [] .truncated s))

/-- The source holds a LEB128 spelling of `n` bytes at offset `p`, and `v` is its unsigned value: every byte
but the last has bit 7 set, and bit `7k + i` of the value is bit `i` of byte `k`; bits at 64 and above are
dropped (R91 format `LB`, R94, R98). -/
def LebAt (s : State) (p n : Nat) (v : Word) : Prop :=
  1 ≤ n ∧ n ≤ 10 ∧ p + n ≤ s.dec.rsize ∧ (∀ k, k + 1 < n → (src s (p + k)).getLsbD 7 = true) ∧
  (src s (p + n - 1)).getLsbD 7 = false ∧
  ∀ j, j < 64 → v.getLsbD j = (decide (j < 7 * n) && (src s (p + j / 7)).getLsbD (j % 7))

/-- `w` is `v` with bits `7n` and above set to bit 6 of the last of the `n` LEB128 bytes at `p`; with ten
bytes there are no such bits (R94, R135). -/
def SignExtends (s : State) (p n : Nat) (v w : Word) : Prop :=
  ∀ j, j < 64 → w.getLsbD j = if j < 7 * n then v.getLsbD j else (src s (p + n - 1)).getLsbD 6

/-- Ten LEB128 bytes at `p`, none of which ends the number (R292). -/
def LebOverflows (s : State) (p : Nat) : Prop :=
  ∀ k, k < 10 → p + k < s.dec.rsize ∧ (src s (p + k)).getLsbD 7 = true

/-- The source ends after fewer than ten LEB128 bytes at `p`, none of which ends the number (R291). -/
def LebTruncated (s : State) (p : Nat) : Prop :=
  ∃ n, n < 10 ∧ p + n = s.dec.rsize ∧ ∀ k, k < n → (src s (p + k)).getLsbD 7 = true

end Sys2Proof.Machine
end

