-- ==== Sys2Proof/Certificates/Slice0/Obligations.lean ====
section
/-! DEFINITION. Certificates/Slice0/Obligations.lean: the statements for the provers. `State.reset` carries
parameters the model chose (log 5); no statement but those about `State.reset` itself mentions them, and a
statement about every state is about every value of the parameters. -/

open Sys2Proof Sys2Proof.Machine

/-! ### Reset, invariant, step -/

/-- After hardware reset every register holds the value of the table (R48) and both fault lines are 0 (R330). The
other clauses are the model's choice, no rule's: no action waits on the port and the event list is empty (log 13);
every byte of `wbuf` (log 6) and of `rbuf` (log 7) reads as the free value, the model's form of `unspecified`. -/
def Obligations.ResetGivesTheTableValues : Prop :=
  (∀ r v, (r, v) ∈
      [(StatusReg.wcap, 0), (.wpos, 0), (.efault, 0), (.ecause, 0), (.vvalid, 0), (.vbase, 0), (.vlen, 0),
       (.rmode, 0), (.rbase, 0), (.rsize, 0), (.rpos, 0), (.dstate, 0), (.dcause, 0), (.ltype, 15), (.lvalue, 0),
       (.lsize, 0), (.lrefk, 0), (.loff, 0)] → statusPort State.reset r = v) ∧
  encFaultLine State.reset = false ∧ decFaultLine State.reset = false ∧
  State.reset.port = [] ∧ State.reset.dec.events = [] ∧
  (∀ i, wbufByte State.reset i = Config.freeWbufByte State.reset.epoch i) ∧
  ∀ i, rbufByte State.reset i = Config.freeRbufByte State.reset.epoch i

/-- R336: a unit fresh from reset is usable without a constructor: `DEC` decodes the empty stream and every
`ADD_*` of `ENC` with a legal operand finds a capacity of 0. -/
def Obligations.FreshUnitsAreUsable : Prop :=
  LeavesDec .decNext State.reset
    (delivered { ltype := 15, lvalue := 0, lsize := 0, lrefk := .null, loff := 0, rpos := 0 } .done State.reset) ∧
  State.reset.enc.wcap = 0 ∧
  ∀ v i, i ∈
      [Instr.addInt8 v, .addUint8 v, .addInt16 v, .addUint16 v, .addInt32 v, .addUint32 v, .addInt64 v, .addUint64 v,
       .addUleb128 v, .addSleb128 v, .addFloat32 v, .addFloat64 v, .addShort (v % 16), .addVector v, .addEof] →
    LeavesEnc i State.reset (encRaised .capacityExceeded State.reset)

/-- A hardware reset at any moment puts every register of both units at its reset value and leaves the buffers
unspecified anew; parameters and host memory are not the block's (the model's choice of form, log 12; the free
bytes, log 6 and 7). -/
def Obligations.HardwareResetStepResets : Prop :=
  ∀ s rest, s.port = .hardwareReset :: rest →
    ∃ t, step s = .next t ∧ (∀ r, statusPort t r = statusPort State.reset r) ∧
      (∀ i, wbufByte t i = Config.freeWbufByte (s.epoch + 1) i) ∧
      (∀ i, rbufByte t i = Config.freeRbufByte (s.epoch + 1) i) ∧
      t.cfg = s.cfg ∧ t.hmem = s.hmem ∧ t.port = rest

/-- The invariant of R49 (with the bounds of R9, R42, R63 and the canonical form of the memories) holds at
reset. It holds there for the parameters the model chose (log 5). -/
def Obligations.InvHoldsAtReset : Prop := MachineInv State.reset

/-- Every step keeps the invariant of R49, from every state that has it. -/
def Obligations.StepKeepsInv : Prop :=
  ∀ s t, MachineInv s → step s = .next t → MachineInv t

/-- When the record at the head of the port decodes to an instruction, the step is that instruction at the
state with the record taken from the port; and a `DEC_NEXT` that finds a header under the cursor is the wire
instruction of that header. -/
def Obligations.StepRunsTheDecodedInstruction : Prop :=
  (∀ s u c rest i, s.port = .command u c :: rest → decode (.command u c) = .ok i →
    step s = exec i { s with port := rest }) ∧
  ∀ s a b rest, s.port = .command .dec { op := 0x24, arg0 := a, arg1 := b } :: rest → Live s →
    s.dec.rpos < s.dec.rsize → step s = exec (decodeHeader (src s s.dec.rpos)) { s with port := rest }

/-- R105: every code R101 and R102 do not list, and every code of the other unit, is `REFUSED` and changes
nothing. -/
def Obligations.UnlistedCodesAreRefused : Prop :=
  ∀ s u c rest, s.port = .command u c :: rest →
    (u = .enc → (c.op.toNat = 0x0E ∨ 0x13 < c.op.toNat) →
      step s = .next { s with port := rest, enc := encRefused s }) ∧
    (u = .dec → (c.op.toNat < 0x20 ∨ 0x26 < c.op.toNat) →
      step s = .next { s with port := rest, dec := decRefused s })

/-- On an empty port the machine holds its state (R312); a host write changes one byte of host memory and
nothing else, and stops the machine where no such address exists (the model's choice of form, log 8, 10). -/
def Obligations.StepTakesHostActions : Prop :=
  (∀ s, s.port = [] → step s = .next s) ∧
  ∀ s addr b rest, s.port = .writeHost addr b :: rest →
    (addr < 2 ^ s.cfg.haw →
      ∃ t, step s = .next t ∧ t = { s with port := rest, hmem := t.hmem } ∧
        ∀ a, hostByte t a = if a = addr then b else hostByte s a) ∧
    (2 ^ s.cfg.haw ≤ addr → step s = .fault (.hostAddressOutOfRange addr))

/-- R350, R104: every command responds, in every state, with a response whose cause is 0 unless its status is
`FAULT` and whose results are 0 unless its status is `OK`. -/
def Obligations.EveryCommandResponds : Prop :=
  ∀ i s, ∃ t r, exec i s = .next t ∧ (if i.isEnc then t.enc.resp else t.dec.resp) = some r ∧
    (r.status = .fault ∨ r.cause = .noFault) ∧ (r.status = .ok ∨ (r.r0 = 0 ∧ r.r1 = 0))

/-! ### Encodings -/

/-- Decoding the encoding of a well-formed instruction gives it back, with every operand at every value. -/
def Obligations.DecodeAfterEncode : Prop :=
  ∀ i : Instr, i.wellFormed = true → decode (encode i) = .ok i

/-- What decodes is well formed; a header byte is encoded back exactly, and a command record up to the
arguments its command does not name (R100). -/
def Obligations.EncodeAfterDecode : Prop :=
  (∀ h, (decodeHeader h).wellFormed = true ∧ encode (decodeHeader h) = .field h) ∧
  ∀ u c i, decode (.command u c) = .ok i →
    i.wellFormed = true ∧ ∃ c', encode i = .command u c' ∧ c'.op = c.op ∧ decode (.command u c') = .ok i

/-- Words written out from R92, R101 and R102 decode to the rows they stand for. -/
def Obligations.WordsOfTheTableDecode : Prop :=
  decode (.field 0x50) = .ok (.int8 5) ∧ decode (.field 0xAC) = .ok (.short 10) ∧
  decode (.field 0x2D) = .ok (.vector 2) ∧ decode (.field 0xFD) = .ok .vectorLarge ∧
  decode (.field 0x78) = .ok (.uleb128 7) ∧ decode (.field 0x3E) = .ok (.reserved14 3) ∧
  decode (.field 0xFF) = .ok (.eof 15) ∧
  decode (.command .enc { op := 0x0D, arg0 := 20, arg1 := 9 }) = .ok (.addVector 20) ∧
  decode (.command .enc { op := 0x12, arg0 := 1, arg1 := 2 }) = .ok (.encFill 1 2) ∧
  decode (.command .dec { op := 0x20, arg0 := 0x1000, arg1 := 7 }) = .ok (.decAttach 0x1000 7) ∧
  decode (.command .dec { op := 0x0C, arg0 := 0, arg1 := 0 }) = .error (.otherUnitsCode .dec 0x0C) ∧
  decode (.command .dec { op := 0x27, arg0 := 0, arg1 := 0 }) = .error (.unassignedCode 0x27)

/-- R120, R121, R122: `pack` and `unpack`, and that they are inverse. -/
def Obligations.PackAndUnpackAreInverse : Prop :=
  (∀ t m, pack t m = if t < 16 ∧ m < 16 then .ok (BitVec.ofNat 8 (t + 16 * m)) else .error .invalidArgument) ∧
  (∀ b, unpack b = (BitVec.ofNat 4 (b.toNat % 16), BitVec.ofNat 4 (b.toNat / 16))) ∧
  (∀ t m b, t < 16 → m < 16 → pack t m = .ok b → unpack b = (BitVec.ofNat 4 t, BitVec.ofNat 4 m)) ∧
  ∀ b, pack (unpack b).1.toNat (unpack b).2.toNat = .ok b

/-- R141: over the bytes the encoder gives for `v`, the decoder returns `v` and consumes them all; and encoding
what it returned gives the bytes back. For the unsigned and for the signed codec. -/
def Obligations.LebRoundTrips : Prop :=
  ∀ s p (v : Word),
    (SourceHolds s p (ulebBytes v) →
      ∃ r, decUleb s p = .ok r ∧ r.value = v ∧ r.next = p + (ulebBytes v).length ∧ ulebBytes r.value = ulebBytes v) ∧
    (SourceHolds s p (slebBytes v) →
      ∃ w, decSleb s p = .ok (w, p + (slebBytes v).length) ∧ w = v ∧ slebBytes w = slebBytes v)

/-- R130, R132: the length of an unsigned LEB128 spelling, and that no spelling the decoder accepts for the
value is shorter. -/
def Obligations.UlebIsMinimal : Prop :=
  (∀ v : Word, (ulebBytes v).length = if v = 0 then 1 else (Nat.log2 v.toNat + 1 + 6) / 7) ∧
  (∀ v : Word, (ulebBytes v).length = 10 ↔ 2 ^ 63 ≤ v.toNat) ∧
  ∀ s p r, decUleb s p = .ok r → p + (ulebBytes r.value).length ≤ r.next

/-- R131, R132: the length of a signed LEB128 spelling is the least that holds the value, and no spelling the
decoder accepts for the value is shorter. -/
def Obligations.SlebIsMinimal : Prop :=
  (∀ v : Word, 1 ≤ (slebBytes v).length ∧ (slebBytes v).length ≤ 10 ∧
    ∀ n, 1 ≤ n → ((slebBytes v).length ≤ n ↔
      (-(2 : Int) ^ (7 * n - 1) ≤ v.toInt ∧ v.toInt < (2 : Int) ^ (7 * n - 1)))) ∧
  ∀ s p v p', decSleb s p = .ok (v, p') → p + (slebBytes v).length ≤ p'

/-- R134: what `dec_uleb` returns on every spelling it accepts, and when it raises which fault. -/
def Obligations.UlebDecoderFollowsItsBytes : Prop :=
  ∀ s p,
    (∀ n v, LebAt s p n v →
      decUleb s p = .ok { value := v, next := p + n, shift := 7 * n, last := src s (p + n - 1) }) ∧
    (LebOverflows s p → decUleb s p = .error .overflow) ∧
    (p ≤ s.dec.rsize → LebTruncated s p → decUleb s p = .error .truncated)

/-! ### The encoder -/

/-- R174, R296, R297: the ten fixed-width add commands: header with metadata 0, then the low bytes of the
argument, least significant first, if the field fits; else `CapacityExceeded` with nothing written. -/
def Obligations.FixedWidthFieldsAreAdded : Prop :=
  ∀ s (v : Word),
  AddsField (.addInt8 v) s [0x00, byteAt v 0] ∧
  AddsField (.addUint8 v) s [0x01, byteAt v 0] ∧
  AddsField (.addInt16 v) s [0x02, byteAt v 0, byteAt v 1] ∧
  AddsField (.addUint16 v) s [0x03, byteAt v 0, byteAt v 1] ∧
  AddsField (.addInt32 v) s [0x04, byteAt v 0, byteAt v 1, byteAt v 2, byteAt v 3] ∧
  AddsField (.addUint32 v) s [0x05, byteAt v 0, byteAt v 1, byteAt v 2, byteAt v 3] ∧
  AddsField (.addInt64 v) s [0x06, byteAt v 0, byteAt v 1, byteAt v 2, byteAt v 3, byteAt v 4, byteAt v 5, byteAt v 6, byteAt v 7] ∧
  AddsField (.addUint64 v) s [0x07, byteAt v 0, byteAt v 1, byteAt v 2, byteAt v 3, byteAt v 4, byteAt v 5, byteAt v 6, byteAt v 7] ∧
  AddsField (.addFloat32 v) s [0x0A, byteAt v 0, byteAt v 1, byteAt v 2, byteAt v 3] ∧
  AddsField (.addFloat64 v) s [0x0B, byteAt v 0, byteAt v 1, byteAt v 2, byteAt v 3, byteAt v 4, byteAt v 5, byteAt v 6, byteAt v 7]

/-- R136, R137: the LEB128 add commands. -/
def Obligations.LebFieldsAreAdded : Prop :=
  ∀ s (v : Word),
  AddsField (.addUleb128 v) s (0x08 :: ulebBytes v) ∧
  AddsField (.addSleb128 v) s (0x09 :: slebBytes v)

/-- R180: a value of at most 15 is added in one byte; a larger one is `InvalidArgument`, before any capacity
check and with nothing written. -/
def Obligations.ShortFieldsAreAdded : Prop :=
  ∀ s (v : Word),
  (v.toNat % 256 ≤ 15 → AddsField (.addShort v) s [BitVec.ofNat 8 (12 + 16 * (v.toNat % 256))]) ∧
  (15 < v.toNat % 256 →
    (s.enc.efault = true → LeavesEnc (.addShort v) s (encLatched s)) ∧
    (s.enc.efault = false → LeavesEnc (.addShort v) s (encRaised .invalidArgument s)))

/-- R190: `ADD_VECTOR` writes header and length, moves past the whole field, leaves the span bytes as they are
and makes them the current span; one check covers it all. -/
def Obligations.VectorSpansAreReserved : Prop :=
  ∀ s (n : Word) hdr,
  hdr = (if n.toNat < 15 then [BitVec.ofNat 8 (13 + 16 * n.toNat)] else 0xFD#8 :: ulebBytes n) →
  (s.enc.efault = true → LeavesEnc (.addVector n) s (encLatched s)) ∧
  (s.enc.efault = false → s.enc.wpos + hdr.length + n.toNat ≤ s.enc.wcap →
    Emits (.addVector n) s hdr n.toNat true (s.enc.wpos + hdr.length) n.toNat
      (BitVec.ofNat 64 (s.enc.wpos + hdr.length)) n) ∧
  (s.enc.efault = false → s.enc.wcap < s.enc.wpos + hdr.length + n.toNat →
    LeavesEnc (.addVector n) s (encRaised .capacityExceeded s))

/-- R210: `ADD_EOF` writes the byte `0x0F`. -/
def Obligations.EofFieldsAreAdded : Prop := ∀ s, AddsField .addEof s [0x0F]

/-- R225: `ENC_INIT` makes a new encoder in every state, or faults with `InvalidArgument`; `wbuf` is kept. -/
def Obligations.EncInitConstructs : Prop :=
  ∀ s (cap : Word),
  (cap.toNat ≤ s.cfg.wbufMax →
    LeavesEnc (.encInit cap) s
      { wbuf := s.enc.wbuf, wcap := cap.toNat, wpos := 0, efault := false, ecause := .noFault, vvalid := false,
        vbase := 0, vlen := 0, resp := some (okResponse 0 0) }) ∧
  (s.cfg.wbufMax < cap.toNat → LeavesEnc (.encInit cap) s (encRaised .invalidArgument s))

/-- R226: `ENC_RESET` starts the output again and keeps capacity and buffer; not in the Fault state. -/
def Obligations.EncResetRestarts : Prop :=
  ∀ s,
  (s.enc.efault = true → LeavesEnc .encReset s (encLatched s)) ∧
  (s.enc.efault = false →
    LeavesEnc .encReset s
      { s.enc with wpos := 0, vvalid := false, vbase := 0, vlen := 0, resp := some (okResponse 0 0) })

/-- R192: `ENC_FILL` writes one byte of the current span and nothing else, and is `REFUSED` outside it. -/
def Obligations.EncFillWritesTheSpan : Prop :=
  ∀ s (idx b : Word),
  (s.enc.efault = true → LeavesEnc (.encFill idx b) s (encLatched s)) ∧
  (s.enc.efault = false → (s.enc.vvalid = false ∨ s.enc.vlen ≤ idx.toNat) →
    LeavesEnc (.encFill idx b) s (encRefused s)) ∧
  (s.enc.efault = false → s.enc.vvalid = true → idx.toNat < s.enc.vlen →
    ∃ t, exec (.encFill idx b) s = .next t ∧
      t = { s with enc := { s.enc with wbuf := t.enc.wbuf, resp := some (okResponse 0 0) } } ∧
      ∀ a, wbufByte t a = if a = s.enc.vbase + idx.toNat then byteAt b 0 else wbufByte s a)

/-- R227: `ENC_READ` answers one byte of the output and changes nothing. -/
def Obligations.EncReadAnswersOutput : Prop :=
  ∀ s (off : Word),
  (s.enc.efault = true → LeavesEnc (.encRead off) s (encLatched s)) ∧
  (s.enc.efault = false → s.enc.wpos ≤ off.toNat → LeavesEnc (.encRead off) s (encRefused s)) ∧
  (s.enc.efault = false → off.toNat < s.enc.wpos →
    LeavesEnc (.encRead off) s
      { s.enc with resp := some (okResponse ((wbufByte s off.toNat).setWidth 64) 0) })

/-- R105: the table's reserved code is `REFUSED` by `ENC` in every state. -/
def Obligations.ReservedCommandIsRefused : Prop := ∀ s, LeavesEnc .reserved0E s (encRefused s)

/-- R224, last sentence: between constructors and resets the write position never decreases and no byte below
it is rewritten, except span bytes by `ENC_FILL`. -/
def Obligations.EncoderIsMonotone : Prop :=
  ∀ i s t, i.isEnc = true → i.isConstructor = false → i ≠ .encReset → exec i s = .next t →
    s.enc.wpos ≤ t.enc.wpos ∧
    ∀ a, a < s.enc.wpos → wbufByte t a ≠ wbufByte s a →
      (∃ idx b, i = .encFill idx b) ∧ s.enc.vvalid = true ∧ s.enc.vbase ≤ a ∧ a < s.enc.vbase + s.enc.vlen

/-- R63: `ENC` writes `wbuf[i]` only for `i < wcap`. -/
def Obligations.EncoderWritesInsideCapacity : Prop :=
  ∀ i s t, MachineInv s → exec i s = .next t → ∀ a, s.enc.wcap ≤ a → wbufByte t a = wbufByte s a

/-! ### The decoder: construction, filling, readout -/

/-- R255: `DEC_ATTACH` makes a new borrowed decoder in every state, or faults with `InvalidArgument`. For the
empty window at `base = 2^HAW`, that `rbase` holds `base` whole is the model's choice (log 17). -/
def Obligations.DecAttachConstructs : Prop :=
  ∀ s (base size : Word),
  (size.toNat ≤ 2 ^ s.cfg.aw - 1 → base.toNat + size.toNat ≤ 2 ^ s.cfg.haw →
    LeavesDec (.decAttach base size) s
      { rmode := .borrowed, rbuf := s.dec.rbuf, rbase := base.toNat, rsize := size.toNat, rpos := 0, dstate := .ready,
        dcause := .noFault, ltype := 15, lvalue := 0, lsize := 0, lrefk := .null, loff := 0,
        resp := some (okResponse 0 0), events := [] }) ∧
  ((2 ^ s.cfg.aw - 1 < size.toNat ∨ 2 ^ s.cfg.haw < base.toNat + size.toNat) →
    LeavesDec (.decAttach base size) s (decRaised [] .invalidArgument s))

/-- R256: `DEC_ALLOC` makes a new owned decoder in every state, or faults with `InvalidArgument`; `rbuf` is
kept. -/
def Obligations.DecAllocConstructs : Prop :=
  ∀ s (size : Word),
  (size.toNat ≤ s.cfg.rbufMax →
    LeavesDec (.decAlloc size) s
      { rmode := .owned, rbuf := s.dec.rbuf, rbase := 0, rsize := size.toNat, rpos := 0, dstate := .ready,
        dcause := .noFault, ltype := 15, lvalue := 0, lsize := 0, lrefk := .null, loff := 0,
        resp := some (okResponse 0 0), events := [] }) ∧
  (s.cfg.rbufMax < size.toNat → LeavesDec (.decAlloc size) s (decRaised [] .invalidArgument s))

/-- R257: `DEC_LOAD` writes one byte of an owned buffer before decoding begins and nothing else, and is
`REFUSED` otherwise. -/
def Obligations.DecLoadFillsTheBuffer : Prop :=
  ∀ s (idx b : Word),
  (s.dec.dstate = .aborted → LeavesDec (.decLoad idx b) s (decLatched s)) ∧
  (s.dec.dstate ≠ .aborted → (s.dec.rmode ≠ .owned ∨ s.dec.dstate ≠ .ready ∨ s.dec.rsize ≤ idx.toNat) →
    LeavesDec (.decLoad idx b) s (decRefused s)) ∧
  (s.dec.rmode = .owned → s.dec.dstate = .ready → idx.toNat < s.dec.rsize →
    ∃ t, exec (.decLoad idx b) s = .next t ∧
      t = { s with dec := { s.dec with rbuf := t.dec.rbuf, resp := some (okResponse 0 0), events := [] } } ∧
      ∀ a, rbufByte t a = if a = idx.toNat then byteAt b 0 else rbufByte s a)

/-- R258: `DEC_RESET` returns the cursor to the start and keeps buffer, kind and size; not in `Aborted`. -/
def Obligations.DecResetRestarts : Prop :=
  ∀ s,
  (s.dec.dstate = .aborted → LeavesDec .decReset s (decLatched s)) ∧
  (s.dec.dstate ≠ .aborted →
    LeavesDec .decReset s
      { s.dec with
        rpos := 0, dstate := .ready, ltype := 15, lvalue := 0, lsize := 0, lrefk := .null, loff := 0,
        resp := some (okResponse 0 0), events := [] })

/-- R259: `DEC_READ` answers one byte of the source and changes nothing. -/
def Obligations.DecReadAnswersSource : Prop :=
  ∀ s (off : Word),
  (s.dec.dstate = .aborted → LeavesDec (.decRead off) s (decLatched s)) ∧
  (s.dec.dstate ≠ .aborted → s.dec.rsize ≤ off.toNat → LeavesDec (.decRead off) s (decRefused s)) ∧
  (s.dec.dstate ≠ .aborted → off.toNat < s.dec.rsize →
    LeavesDec (.decRead off) s
      { s.dec with resp := some (okResponse ((src s off.toNat).setWidth 64) 0), events := [] })

/-! ### The decoder: the fields -/

/-- R260, R261: where a header stands under the cursor, `DEC_NEXT` is the field of that header. -/
def Obligations.NextRunsTheFieldUnderTheCursor : Prop :=
  ∀ s, Live s → s.dec.rpos < s.dec.rsize → exec .decNext s = exec (decodeHeader (src s s.dec.rpos)) s

/-- R153, R45: the ten fixed-width fields: the little-endian pattern of the payload, sign- or zero-extended,
or `Truncated` where it is not whole; the metadata is ignored. -/
def Obligations.FixedWidthFieldsAreDelivered : Prop :=
  ∀ s m, Live s → s.dec.rpos < s.dec.rsize →
    ScalarField (.int8 m) s 0 1
      ((src s (s.dec.rpos + 1) : BitVec 8).signExtend 64) ∧
    ScalarField (.uint8 m) s 1 1
      ((src s (s.dec.rpos + 1) : BitVec 8).setWidth 64) ∧
    ScalarField (.int16 m) s 2 2
      ((src s (s.dec.rpos + 2) ++ src s (s.dec.rpos + 1) : BitVec 16).signExtend 64) ∧
    ScalarField (.uint16 m) s 3 2
      ((src s (s.dec.rpos + 2) ++ src s (s.dec.rpos + 1) : BitVec 16).setWidth 64) ∧
    ScalarField (.int32 m) s 4 4
      ((src s (s.dec.rpos + 4) ++ src s (s.dec.rpos + 3) ++ src s (s.dec.rpos + 2) ++ src s (s.dec.rpos + 1) : BitVec 32).signExtend 64) ∧
    ScalarField (.uint32 m) s 5 4
      ((src s (s.dec.rpos + 4) ++ src s (s.dec.rpos + 3) ++ src s (s.dec.rpos + 2) ++ src s (s.dec.rpos + 1) : BitVec 32).setWidth 64) ∧
    ScalarField (.int64 m) s 6 8
      (src s (s.dec.rpos + 8) ++ src s (s.dec.rpos + 7) ++ src s (s.dec.rpos + 6) ++ src s (s.dec.rpos + 5) ++ src s (s.dec.rpos + 4) ++ src s (s.dec.rpos + 3) ++ src s (s.dec.rpos + 2) ++ src s (s.dec.rpos + 1) : BitVec 64) ∧
    ScalarField (.uint64 m) s 7 8
      (src s (s.dec.rpos + 8) ++ src s (s.dec.rpos + 7) ++ src s (s.dec.rpos + 6) ++ src s (s.dec.rpos + 5) ++ src s (s.dec.rpos + 4) ++ src s (s.dec.rpos + 3) ++ src s (s.dec.rpos + 2) ++ src s (s.dec.rpos + 1) : BitVec 64) ∧
    ScalarField (.float32 m) s 10 4
      ((src s (s.dec.rpos + 4) ++ src s (s.dec.rpos + 3) ++ src s (s.dec.rpos + 2) ++ src s (s.dec.rpos + 1) : BitVec 32).setWidth 64) ∧
    ScalarField (.float64 m) s 11 8
      (src s (s.dec.rpos + 8) ++ src s (s.dec.rpos + 7) ++ src s (s.dec.rpos + 6) ++ src s (s.dec.rpos + 5) ++ src s (s.dec.rpos + 4) ++ src s (s.dec.rpos + 3) ++ src s (s.dec.rpos + 2) ++ src s (s.dec.rpos + 1) : BitVec 64)

/-- R138, R139: the LEB128 fields on every spelling the decoder accepts: the unsigned value, and the signed
one, with the reference to the temporary and size 8; the metadata is ignored. Where no spelling ends in time they
raise `Overflow` after ten bytes, `Truncated` where the source ends before, and commit nothing. -/
def Obligations.LebFieldsAreDelivered : Prop :=
  ∀ s m, Live s → s.dec.rpos < s.dec.rsize →
    (∀ n v, LebAt s (s.dec.rpos + 1) n v →
      LeavesDec (.uleb128 m) s (delivered
        { ltype := 8, lvalue := v, lsize := 8, lrefk := .temp, loff := 0, rpos := s.dec.rpos + 1 + n } .decoding s) ∧
      ∀ w, SignExtends s (s.dec.rpos + 1) n v w →
        LeavesDec (.sleb128 m) s (delivered
          { ltype := 9, lvalue := w, lsize := 8, lrefk := .temp, loff := 0, rpos := s.dec.rpos + 1 + n } .decoding s)) ∧
    ∀ i, i ∈ [Instr.uleb128 m, .sleb128 m] →
      (LebOverflows s (s.dec.rpos + 1) → LeavesDec i s (decRaised [] .overflow s)) ∧
      (LebTruncated s (s.dec.rpos + 1) → LeavesDec i s (decRaised [] .truncated s))

/-- R182: a `SHORT` field delivers its metadata with size 1 and a reference to the header itself. -/
def Obligations.ShortFieldsAreDelivered : Prop :=
  ∀ s m, Live s → s.dec.rpos < s.dec.rsize →
    LeavesDec (.short m) s (delivered
      { ltype := 12, lvalue := m.setWidth 64, lsize := 1, lrefk := .inbuf, loff := s.dec.rpos, rpos := s.dec.rpos + 1 }
      .decoding s)

/-- R195: a vector delivers a view of its payload, whose length stands in the metadata or in a LEB128 number of
any spelling, or raises `Truncated` where the payload is not whole; where the LEB128 number does not end in time
its own fault is raised. -/
def Obligations.VectorFieldsAreDelivered : Prop :=
  ∀ s, Live s → s.dec.rpos < s.dec.rsize →
    (∀ m : Nibble, m ≠ 15 →
      (s.dec.rpos + 1 + m.toNat ≤ s.dec.rsize →
        LeavesDec (.vector m) s (delivered
          { ltype := 13, lvalue := BitVec.ofNat 64 (s.dec.rpos + 1), lsize := m.toNat, lrefk := .inbuf,
            loff := s.dec.rpos + 1, rpos := s.dec.rpos + 1 + m.toNat } .decoding s)) ∧
      (s.dec.rsize < s.dec.rpos + 1 + m.toNat → LeavesDec (.vector m) s (decRaised [] .truncated s))) ∧
    (∀ n v, LebAt s (s.dec.rpos + 1) n v →
      (s.dec.rpos + 1 + n + v.toNat ≤ s.dec.rsize →
        LeavesDec .vectorLarge s (delivered
          { ltype := 13, lvalue := BitVec.ofNat 64 (s.dec.rpos + 1 + n), lsize := v.toNat, lrefk := .inbuf,
            loff := s.dec.rpos + 1 + n, rpos := s.dec.rpos + 1 + n + v.toNat } .decoding s)) ∧
      (s.dec.rsize < s.dec.rpos + 1 + n + v.toNat → LeavesDec .vectorLarge s (decRaised [] .truncated s))) ∧
    (LebOverflows s (s.dec.rpos + 1) → LeavesDec .vectorLarge s (decRaised [] .overflow s)) ∧
    (LebTruncated s (s.dec.rpos + 1) → LeavesDec .vectorLarge s (decRaised [] .truncated s))

/-- R212: an `EOF` field ends the pass one past its header, whatever its metadata, and what stands behind it is
never looked at: further pulls answer EOF again and leave the cursor. -/
def Obligations.EofFieldsEndThePass : Prop :=
  ∀ s m t, Live s → s.dec.rpos < s.dec.rsize →
    t = s.withDec (delivered
      { ltype := 15, lvalue := 0, lsize := 0, lrefk := .null, loff := 0, rpos := s.dec.rpos + 1 } .done s) →
    exec (.eof m) s = .next t ∧
    LeavesDec .decNext t { t.dec with resp := some (okResponse 15 0), events := [] } ∧
    LeavesDec .decRun t
      { t.dec with
        resp := some (okResponse 0 0),
        events := [{ evType := 15, evRefk := .null, evOff := 0, evValue := 0, evSize := 0 }] }

/-- R213, R295: the reserved type raises `UnknownType`, whatever its metadata, with the cursor left at the header;
and nothing else raises it: a decoder that comes to `Aborted` with that cause has a header of type 14 under its
cursor, or was given the reserved row itself. -/
def Obligations.ReservedTypeAborts : Prop :=
  (∀ s m, Live s → s.dec.rpos < s.dec.rsize → LeavesDec (.reserved14 m) s (decRaised [] .unknownType s)) ∧
  ∀ i s t, exec i s = .next t → s.dec.dstate ≠ .aborted → t.dec.dstate = .aborted → t.dec.dcause = .unknownType →
    (∃ m, i = .reserved14 m) ∨
    ((i = .decNext ∨ i = .decRun) ∧ t.dec.rpos < t.dec.rsize ∧ ∃ m, decodeHeader (src t t.dec.rpos) = .reserved14 m)

/-- R262, R271: where no header is left, `DEC_NEXT` reports the implicit EOF and `DEC_RUN` gives the terminal
event alone; the cursor stays. -/
def Obligations.ExhaustionIsImplicitEof : Prop :=
  ∀ s, Live s → s.dec.rsize ≤ s.dec.rpos →
    LeavesDec .decNext s (delivered
      { ltype := 15, lvalue := 0, lsize := 0, lrefk := .null, loff := 0, rpos := s.dec.rpos } .done s) ∧
    LeavesDec .decRun s
      { s.dec with
        ltype := 15, lvalue := 0, lsize := 0, lrefk := .null, loff := 0, dstate := .done,
        resp := some (okResponse 0 0),
        events := [{ evType := 15, evRefk := .null, evOff := 0, evValue := 0, evSize := 0 }] }

/-- R263, R271: in `Done`, `DEC_NEXT` answers EOF again and `DEC_RUN` gives the terminal event again; nothing
else changes. For a `Done` whose `ltype` is not 15, which no run reaches, it is the model's choice (log 14). -/
def Obligations.DoneIsAbsorbing : Prop :=
  ∀ s, s.dec.dstate = .done →
    LeavesDec .decNext s { s.dec with resp := some (okResponse 15 0), events := [] } ∧
    LeavesDec .decRun s
      { s.dec with
        resp := some (okResponse 0 0),
        events := [{ evType := 15, evRefk := .null, evOff := 0, evValue := 0, evSize := 0 }] }

/-- R265: a pull that finds a header and delivers a field moves the cursor forward inside the source; an
explicit EOF moves it by 1; a fault leaves it. -/
def Obligations.PullsAdvanceInsideTheSource : Prop :=
  ∀ i s t, i.isPull = true → i ≠ .decRun → Live s → s.dec.rpos < s.dec.rsize → exec i s = .next t →
    (t.dec.dstate = .decoding ∧ s.dec.rpos < t.dec.rpos ∧ t.dec.rpos ≤ s.dec.rsize) ∨
    (t.dec.dstate = .done ∧ t.dec.rpos = s.dec.rpos + 1) ∨
    (t.dec.dstate = .aborted ∧ t.dec.rpos = s.dec.rpos)

/-- R271: in `Aborted` `DEC_RUN` answers the latched cause with no event, in `Done` it gives the terminal event
alone; else it does what repeated `DEC_NEXT` does: the fault of the first bad field, the terminal event at EOF,
and before them one event per field delivered, in order; the response counts them. -/
def Obligations.RunRepeatsNext : Prop :=
  ∀ s,
  (s.dec.dstate = .aborted → LeavesDec .decRun s (decLatched s)) ∧
  (s.dec.dstate = .done → s.dec.ltype = 15 →
    LeavesDec .decRun s
      { s.dec with
        resp := some (okResponse 0 0),
        events := [{ evType := 15, evRefk := .null, evOff := 0, evValue := 0, evSize := 0 }] }) ∧
  ∀ t, Live s → exec .decNext s = .next t →
    (t.dec.dstate = .aborted → exec .decRun s = .next t) ∧
    (t.dec.dstate = .done →
      exec .decRun s = .next { t with dec := { t.dec with
        resp := some (okResponse 0 0),
        events := [{ evType := 15, evRefk := .null, evOff := 0, evValue := 0, evSize := 0 }] } }) ∧
    (t.dec.dstate = .decoding →
      ∃ u r, exec .decRun t = .next u ∧ u.dec.resp = some r ∧
        exec .decRun s = .next { u with dec := { u.dec with
          resp := some (if r.status = .ok then { r with r0 := r.r0 + 1 } else r),
          events := { evType := t.dec.ltype, evRefk := t.dec.lrefk, evOff := t.dec.loff, evValue := t.dec.lvalue,
                      evSize := t.dec.lsize } :: u.dec.events } })

/-! ### Faults and isolation -/

/-- R297: in a fault state every command of the unit but its constructors answers the latched cause and changes
nothing, and a reserved code is `REFUSED` all the same. -/
def Obligations.FaultStatesAreSticky : Prop :=
  ∀ s,
  (s.enc.efault = true → ∀ i : Instr, i.isEnc = true → i.isConstructor = false → i ≠ .reserved0E →
    LeavesEnc i s (encLatched s)) ∧
  (s.dec.dstate = .aborted → ∀ i : Instr, i.isEnc = false → i.isConstructor = false → LeavesDec i s (decLatched s)) ∧
  LeavesEnc .reserved0E s (encRefused s) ∧
  ∀ u c rest e, s.port = .command u c :: rest → decode (.command u c) = .error e →
    step s = .next (refuse u { s with port := rest })

/-- R296: a command that raises records its cause and changes nothing else in the machine, whichever command it
is; `ENC` raises only its two kinds, a pull only the three kinds of a stream, a constructor of `DEC` only
`InvalidArgument` (R290). For `DEC_RUN` the same holds of its faulting step (`RunRepeatsNext`). -/
def Obligations.FaultsArePrecise : Prop :=
  ∀ i s t, exec i s = .next t →
    (s.enc.efault = false → t.enc.efault = true →
      ∃ c, (c = .capacityExceeded ∨ c = .invalidArgument) ∧ t = { s with enc := encRaised c s }) ∧
    (i ≠ .decRun → s.dec.dstate ≠ .aborted → t.dec.dstate = .aborted →
      ∃ c, t = { s with dec := decRaised [] c s } ∧
        if i.isPull = true then c = .truncated ∨ c = .overflow ∨ c = .unknownType else c = .invalidArgument)

/-- R300, R302: a fault line falls only by a constructor of its unit that succeeds. -/
def Obligations.FaultLinesFallOnlyByConstructors : Prop :=
  ∀ i s t, exec i s = .next t →
    (encFaultLine s = true → encFaultLine t = false →
      ∃ cap, i = .encInit cap ∧ cap.toNat ≤ s.cfg.wbufMax) ∧
    (decFaultLine s = true → decFaultLine t = false →
      (∃ base size, i = .decAttach base size ∧ base.toNat + size.toNat ≤ 2 ^ s.cfg.haw) ∨
      ∃ size, i = .decAlloc size ∧ size.toNat ≤ s.cfg.rbufMax)

/-- R268: the state machine of `DEC`, over all instructions. -/
def Obligations.DecoderFollowsItsStateMachine : Prop :=
  ∀ i s t, exec i s = .next t →
    (i.isEnc = true → t.dec.dstate = s.dec.dstate) ∧
    ((∃ a b, i = .decLoad a b ∨ i = .decRead a) → t.dec.dstate = s.dec.dstate) ∧
    ((∃ a b, i = .decAttach a b ∨ i = .decAlloc a) →
      (t.dec.dstate = .ready ∧ t.dec.resp = some (okResponse 0 0)) ∨
      (t.dec.dstate = .aborted ∧ t.dec.dcause = .invalidArgument)) ∧
    (i.isEnc = false → i.isConstructor = false → s.dec.dstate = .aborted → t.dec.dstate = .aborted) ∧
    (i = .decReset → s.dec.dstate ≠ .aborted → t.dec.dstate = .ready) ∧
    (i.isPull = true → s.dec.dstate = .done → t.dec.dstate = .done) ∧
    (i.isPull = true → Live s →
      (t.dec.dstate = .decoding ∧ i ≠ .decRun ∧ t.dec.ltype ≠ 15) ∨
      (t.dec.dstate = .done ∧ t.dec.ltype = 15) ∨
      (t.dec.dstate = .aborted ∧ t.dec.dcause ≠ .noFault))

/-- R62, R3: a command changes nothing outside its own unit, and what it does there does not depend on the
other unit; an encoder command does not look at host memory either. -/
def Obligations.UnitsShareNothing : Prop :=
  ∀ i s t, exec i s = .next t →
    (i.isEnc = true → t = { s with enc := t.enc }) ∧
    (i.isEnc = false → t = { s with dec := t.dec }) ∧
    ∀ s', s'.cfg = s.cfg → s'.epoch = s.epoch →
      (i.isEnc = true → s'.enc = s.enc → exec i s' = .next { s' with enc := t.enc }) ∧
      (i.isEnc = false → s'.dec = s.dec → s'.hmem = s.hmem → exec i s' = .next { s' with dec := t.dec })

/-- R63: what a pull or a `DEC_READ` does depends only on the source bytes at offsets below `rsize`: with any
other content of the buffers outside them it does the same. -/
def Obligations.DecoderReadsOnlyItsSource : Prop :=
  ∀ i s s' m n t, (i.isPull = true ∨ ∃ off, i = .decRead off) →
    s' = { s with hmem := m, dec := { s.dec with rbuf := n } } →
    (∀ j, j < s.dec.rsize → src s' j = src s j) → exec i s = .next t →
    exec i s' = .next { t with hmem := m, dec := { t.dec with rbuf := n } }

/-! ### Streams -/

/-- R228, R68: the commands that add a list of fields, run to the end on an Active encoder with room for
them, append exactly the canonical bytes of the fields, in order and without a gap. -/
def Obligations.EncoderOutputIsTheStream : Prop :=
  ∀ s fs, s.enc.efault = false → (∀ f ∈ fs, Field.valid f = true) → s.port = streamCommands fs →
    s.enc.wpos + (streamBytes fs).length ≤ s.enc.wcap →
    ∃ t, core.run (streamCommands fs).length s = .next t ∧ t.enc.efault = false ∧ t.dec = s.dec ∧
      outputBytes t = outputBytes s ++ streamBytes fs

/-- R275, decode half, with R271 and R214: over the canonical bytes of a list of fields, `DEC_RUN` delivers one
event per field, in order, and the terminal event, and completes; whether the stream ends in an `EOF` byte
(with anything after it) or with the source. -/
def Obligations.RunDeliversTheStream : Prop :=
  ∀ s fs, Live s → .eof ∉ fs → (∀ f ∈ fs, Field.valid f = true) →
    (SourceHolds s s.dec.rpos (streamBytes fs ++ [0x0F]) →
      LeavesDec .decRun s
        { s.dec with
          ltype := 15, lvalue := 0, lsize := 0, lrefk := .null, loff := 0, dstate := .done,
          rpos := s.dec.rpos + (streamBytes fs).length + 1, resp := some (okResponse (BitVec.ofNat 64 fs.length) 0),
          events := streamEvents s.dec.rpos fs ++ [terminalEvent] }) ∧
    (SourceHolds s s.dec.rpos (streamBytes fs) → s.dec.rpos + (streamBytes fs).length = s.dec.rsize →
      LeavesDec .decRun s
        { s.dec with
          ltype := 15, lvalue := 0, lsize := 0, lrefk := .null, loff := 0, dstate := .done,
          rpos := s.dec.rsize, resp := some (okResponse (BitVec.ofNat 64 fs.length) 0),
          events := streamEvents s.dec.rpos fs ++ [terminalEvent] })

/-- R275: what a fresh encoder was given field by field, a decoder over its output delivers field by field, up
to and including the first `EOF`, and never faults. -/
def Obligations.StreamsRoundTrip : Prop :=
  ∀ s fs, s.enc.efault = false → s.enc.wpos = 0 → (∀ f ∈ fs, Field.valid f = true) → s.port = streamCommands fs →
    (streamBytes fs).length ≤ s.enc.wcap →
    ∃ t, core.run (streamCommands fs).length s = .next t ∧
      ∀ u, Live u → u.dec.rpos = 0 → u.dec.rsize = t.enc.wpos → (∀ i, i < t.enc.wpos → src u i = wbufByte t i) →
        ∃ v, exec .decRun u = .next v ∧ v.dec.dstate = .done ∧
          v.dec.resp = some (okResponse (BitVec.ofNat 64 (fieldsToEof fs).length) 0) ∧
          v.dec.events = streamEvents 0 (fieldsToEof fs) ++ [terminalEvent]
end

