-- ==== Sys2Proof/Laws/Memory.lean ====
section
/-! SUPPORT. Laws/Memory.lean: a read after a write gives the byte written, a write leaves every other
address alone, and every memory operation keeps the canonical form. -/

namespace Sys2Proof.Machine

@[simp] theorem Memory.read_write_same (m : Memory) (a : Nat) (v : Byte) :
    Memory.read (Memory.write m a v) a = some v := by
  induction m with
  | nil => simp [Memory.write, Memory.read]
  | cons c m ih =>
    obtain ⟨k, b⟩ := c
    simp only [Memory.write]
    split
    · simp [Memory.read]
    · split
      · simp [Memory.read]
      · simp [Memory.read, *]

theorem Memory.read_write_other (m : Memory) {a c : Nat} (v : Byte) (h : c ≠ a) :
    Memory.read (Memory.write m a v) c = Memory.read m c := by
  induction m with
  | nil => simp [Memory.write, Memory.read, h]
  | cons x m ih =>
    obtain ⟨k, b⟩ := x
    simp only [Memory.write]
    split
    · rename_i hk
      by_cases hc : c < a
      · have h1 : c ≠ k := by omega
        have h2 : c < k := by omega
        simp [Memory.read, h, hc, h1, h2]
      · simp [Memory.read, h, hc]
    · split
      · rename_i _ hk
        subst hk
        simp [Memory.read, h]
      · simp only [Memory.read, ih]

/-- Everything `Memory.write` can do to a read. -/
theorem Memory.read_write (m : Memory) (a c : Nat) (v : Byte) :
    Memory.read (Memory.write m a v) c = if c = a then some v else Memory.read m c := by
  by_cases h : c = a
  · simp [h]
  · simp [h, Memory.read_write_other m v h]

/-- Everything `Memory.writeList` can do to a read. -/
theorem Memory.read_writeList (bs : List Byte) (m : Memory) (a c : Nat) :
    Memory.read (Memory.writeList m a bs) c =
      if a ≤ c ∧ c < a + bs.length then bs[c - a]? else Memory.read m c := by
  induction bs generalizing m a with
  | nil => simp [Memory.writeList]
  | cons b bs ih =>
    rw [Memory.writeList, ih, Memory.read_write]
    simp only [List.length_cons]
    by_cases h1 : a + 1 ≤ c ∧ c < a + 1 + bs.length
    · have h2 : a ≤ c ∧ c < a + (bs.length + 1) := by omega
      have h3 : c - a = (c - (a + 1)) + 1 := by omega
      rw [if_pos h1, if_pos h2, h3, List.getElem?_cons_succ]
    · rw [if_neg h1]
      by_cases h2 : c = a
      · subst h2
        simp
      · rw [if_neg h2, if_neg (by omega)]

theorem Memory.mem_write {m : Memory} {a : Nat} {v : Byte} {x : Host.Cell} (h : x ∈ Memory.write m a v) :
    x = (a, v) ∨ x ∈ m := by
  induction m with
  | nil => simpa [Memory.write] using h
  | cons c m ih =>
    obtain ⟨k, b⟩ := c
    simp only [Memory.write] at h
    split at h
    · simpa using h
    · split at h
      · rcases List.mem_cons.1 h with h | h
        · exact .inl h
        · exact .inr (List.mem_cons_of_mem _ h)
      · rcases List.mem_cons.1 h with h | h
        · exact .inr (h ▸ List.mem_cons_self)
        · rcases ih h with h | h
          · exact .inl h
          · exact .inr (List.mem_cons_of_mem _ h)

theorem Memory.write_wf {m : Memory} (a : Nat) (v : Byte) (h : Memory.wf m) : Memory.wf (Memory.write m a v) := by
  induction m with
  | nil => simp [Memory.write, Memory.wf]
  | cons c m ih =>
    obtain ⟨k, b⟩ := c
    obtain ⟨h1, h2⟩ := List.pairwise_cons.1 h
    simp only [Memory.write]
    split
    · rename_i hk
      refine List.pairwise_cons.2 ⟨fun x hx => ?_, h⟩
      rcases List.mem_cons.1 hx with rfl | hx
      · exact hk
      · exact Nat.lt_trans hk (h1 x hx)
    · split
      · rename_i _ hk
        subst hk
        exact List.pairwise_cons.2 ⟨h1, h2⟩
      · refine List.pairwise_cons.2 ⟨fun x hx => ?_, ih h2⟩
        rcases Memory.mem_write hx with rfl | hx
        · show k < a
          omega
        · exact h1 x hx

theorem Memory.writeList_wf (bs : List Byte) {m : Memory} (a : Nat) (h : Memory.wf m) :
    Memory.wf (Memory.writeList m a bs) := by
  induction bs generalizing m a with
  | nil => exact h
  | cons b bs ih => exact ih (a + 1) (Memory.write_wf a b h)

theorem Memory.write_below {m : Memory} {a n : Nat} (v : Byte) (ha : a < n) (h : Memory.below m n) :
    Memory.below (Memory.write m a v) n := by
  intro x hx
  rcases Memory.mem_write hx with rfl | hx
  · exact ha
  · exact h x hx

theorem Memory.writeList_below (bs : List Byte) {m : Memory} {a n : Nat} (ha : a + bs.length ≤ n)
    (h : Memory.below m n) : Memory.below (Memory.writeList m a bs) n := by
  induction bs generalizing m a with
  | nil => exact h
  | cons b bs ih =>
    simp only [List.length_cons] at ha
    exact ih (by omega) (Memory.write_below b (by omega) h)

/-- The three memories of the reset state are in canonical form. -/
theorem State.reset_memories_wf :
    Memory.wf State.reset.enc.wbuf ∧ Memory.wf State.reset.dec.rbuf ∧ Memory.wf State.reset.hmem := by decide

end Sys2Proof.Machine
end

