-- ==== Sys2Proof/Laws/State.lean ====
section
/-! SUPPORT. Laws/State.lean: one lemma per field per update, so that no proof unfolds a record update. -/

namespace Sys2Proof.Machine

@[simp] theorem State.withEnc_enc (s : State) (e : Enc) : (s.withEnc e).enc = e := rfl
@[simp] theorem State.withEnc_dec (s : State) (e : Enc) : (s.withEnc e).dec = s.dec := rfl
@[simp] theorem State.withEnc_cfg (s : State) (e : Enc) : (s.withEnc e).cfg = s.cfg := rfl
@[simp] theorem State.withEnc_hmem (s : State) (e : Enc) : (s.withEnc e).hmem = s.hmem := rfl
@[simp] theorem State.withEnc_port (s : State) (e : Enc) : (s.withEnc e).port = s.port := rfl
@[simp] theorem State.withEnc_epoch (s : State) (e : Enc) : (s.withEnc e).epoch = s.epoch := rfl

@[simp] theorem State.withDec_enc (s : State) (d : Dec) : (s.withDec d).enc = s.enc := rfl
@[simp] theorem State.withDec_dec (s : State) (d : Dec) : (s.withDec d).dec = d := rfl
@[simp] theorem State.withDec_cfg (s : State) (d : Dec) : (s.withDec d).cfg = s.cfg := rfl
@[simp] theorem State.withDec_hmem (s : State) (d : Dec) : (s.withDec d).hmem = s.hmem := rfl
@[simp] theorem State.withDec_port (s : State) (d : Dec) : (s.withDec d).port = s.port := rfl
@[simp] theorem State.withDec_epoch (s : State) (d : Dec) : (s.withDec d).epoch = s.epoch := rfl

@[simp] theorem State.withPort_enc (s : State) (p : List HostAction) : (s.withPort p).enc = s.enc := rfl
@[simp] theorem State.withPort_dec (s : State) (p : List HostAction) : (s.withPort p).dec = s.dec := rfl
@[simp] theorem State.withPort_cfg (s : State) (p : List HostAction) : (s.withPort p).cfg = s.cfg := rfl
@[simp] theorem State.withPort_hmem (s : State) (p : List HostAction) : (s.withPort p).hmem = s.hmem := rfl
@[simp] theorem State.withPort_port (s : State) (p : List HostAction) : (s.withPort p).port = p := rfl
@[simp] theorem State.withPort_epoch (s : State) (p : List HostAction) : (s.withPort p).epoch = s.epoch := rfl

@[simp] theorem State.withHmem_enc (s : State) (m : Memory) : (s.withHmem m).enc = s.enc := rfl
@[simp] theorem State.withHmem_dec (s : State) (m : Memory) : (s.withHmem m).dec = s.dec := rfl
@[simp] theorem State.withHmem_cfg (s : State) (m : Memory) : (s.withHmem m).cfg = s.cfg := rfl
@[simp] theorem State.withHmem_hmem (s : State) (m : Memory) : (s.withHmem m).hmem = m := rfl
@[simp] theorem State.withHmem_port (s : State) (m : Memory) : (s.withHmem m).port = s.port := rfl
@[simp] theorem State.withHmem_epoch (s : State) (m : Memory) : (s.withHmem m).epoch = s.epoch := rfl

@[simp] theorem answerEnc_enc (r : Response) (s : State) : (answerEnc r s).enc = { s.enc with resp := some r } := rfl
@[simp] theorem answerEnc_dec (r : Response) (s : State) : (answerEnc r s).dec = s.dec := rfl
@[simp] theorem answerEnc_cfg (r : Response) (s : State) : (answerEnc r s).cfg = s.cfg := rfl
@[simp] theorem answerEnc_hmem (r : Response) (s : State) : (answerEnc r s).hmem = s.hmem := rfl
@[simp] theorem answerEnc_port (r : Response) (s : State) : (answerEnc r s).port = s.port := rfl
@[simp] theorem answerEnc_epoch (r : Response) (s : State) : (answerEnc r s).epoch = s.epoch := rfl

@[simp] theorem answerDec_enc (evs : List Event) (r : Response) (s : State) : (answerDec evs r s).enc = s.enc := rfl
@[simp] theorem answerDec_dec (evs : List Event) (r : Response) (s : State) : (answerDec evs r s).dec = { s.dec with resp := some r, events := evs } := rfl
@[simp] theorem answerDec_cfg (evs : List Event) (r : Response) (s : State) : (answerDec evs r s).cfg = s.cfg := rfl
@[simp] theorem answerDec_hmem (evs : List Event) (r : Response) (s : State) : (answerDec evs r s).hmem = s.hmem := rfl
@[simp] theorem answerDec_port (evs : List Event) (r : Response) (s : State) : (answerDec evs r s).port = s.port := rfl
@[simp] theorem answerDec_epoch (evs : List Event) (r : Response) (s : State) : (answerDec evs r s).epoch = s.epoch := rfl

@[simp] theorem takeFault_enc_enc (evs : List Event) (c : Cause) (s : State) : (takeFault .enc evs c s).enc = { s.enc with efault := true, ecause := c, resp := some (.faultOf c) } := rfl
@[simp] theorem takeFault_enc_dec (evs : List Event) (c : Cause) (s : State) : (takeFault .enc evs c s).dec = s.dec := rfl
@[simp] theorem takeFault_enc_cfg (evs : List Event) (c : Cause) (s : State) : (takeFault .enc evs c s).cfg = s.cfg := rfl
@[simp] theorem takeFault_enc_hmem (evs : List Event) (c : Cause) (s : State) : (takeFault .enc evs c s).hmem = s.hmem := rfl
@[simp] theorem takeFault_enc_port (evs : List Event) (c : Cause) (s : State) : (takeFault .enc evs c s).port = s.port := rfl
@[simp] theorem takeFault_enc_epoch (evs : List Event) (c : Cause) (s : State) : (takeFault .enc evs c s).epoch = s.epoch := rfl

@[simp] theorem takeFault_dec_enc (evs : List Event) (c : Cause) (s : State) : (takeFault .dec evs c s).enc = s.enc := rfl
@[simp] theorem takeFault_dec_dec (evs : List Event) (c : Cause) (s : State) : (takeFault .dec evs c s).dec = { s.dec with dstate := .aborted, dcause := c, resp := some (.faultOf c), events := evs } := rfl
@[simp] theorem takeFault_dec_cfg (evs : List Event) (c : Cause) (s : State) : (takeFault .dec evs c s).cfg = s.cfg := rfl
@[simp] theorem takeFault_dec_hmem (evs : List Event) (c : Cause) (s : State) : (takeFault .dec evs c s).hmem = s.hmem := rfl
@[simp] theorem takeFault_dec_port (evs : List Event) (c : Cause) (s : State) : (takeFault .dec evs c s).port = s.port := rfl
@[simp] theorem takeFault_dec_epoch (evs : List Event) (c : Cause) (s : State) : (takeFault .dec evs c s).epoch = s.epoch := rfl

@[simp] theorem refuse_enc_enc (s : State) : (refuse .enc s).enc = { s.enc with resp := some .refusal } := rfl
@[simp] theorem refuse_enc_dec (s : State) : (refuse .enc s).dec = s.dec := rfl
@[simp] theorem refuse_enc_cfg (s : State) : (refuse .enc s).cfg = s.cfg := rfl
@[simp] theorem refuse_enc_hmem (s : State) : (refuse .enc s).hmem = s.hmem := rfl
@[simp] theorem refuse_enc_port (s : State) : (refuse .enc s).port = s.port := rfl
@[simp] theorem refuse_enc_epoch (s : State) : (refuse .enc s).epoch = s.epoch := rfl

@[simp] theorem refuse_dec_enc (s : State) : (refuse .dec s).enc = s.enc := rfl
@[simp] theorem refuse_dec_dec (s : State) : (refuse .dec s).dec = { s.dec with resp := some .refusal, events := [] } := rfl
@[simp] theorem refuse_dec_cfg (s : State) : (refuse .dec s).cfg = s.cfg := rfl
@[simp] theorem refuse_dec_hmem (s : State) : (refuse .dec s).hmem = s.hmem := rfl
@[simp] theorem refuse_dec_port (s : State) : (refuse .dec s).port = s.port := rfl
@[simp] theorem refuse_dec_epoch (s : State) : (refuse .dec s).epoch = s.epoch := rfl

@[simp] theorem hardwareReset_enc (s : State) : (hardwareReset s).enc = Enc.reset := rfl
@[simp] theorem hardwareReset_dec (s : State) : (hardwareReset s).dec = Dec.reset := rfl
@[simp] theorem hardwareReset_cfg (s : State) : (hardwareReset s).cfg = s.cfg := rfl
@[simp] theorem hardwareReset_hmem (s : State) : (hardwareReset s).hmem = s.hmem := rfl
@[simp] theorem hardwareReset_port (s : State) : (hardwareReset s).port = s.port := rfl
@[simp] theorem hardwareReset_epoch (s : State) : (hardwareReset s).epoch = s.epoch + 1 := rfl

@[simp] theorem runEnd_enc (n : Nat) (evs : List Event) (s : State) : (runEnd n evs s).enc = s.enc := rfl
@[simp] theorem runEnd_dec (n : Nat) (evs : List Event) (s : State) : (runEnd n evs s).dec = { s.dec with resp := some (.okWith (BitVec.ofNat 64 n) 0), events := evs ++ [terminalEvent] } := rfl
@[simp] theorem runEnd_cfg (n : Nat) (evs : List Event) (s : State) : (runEnd n evs s).cfg = s.cfg := rfl
@[simp] theorem runEnd_hmem (n : Nat) (evs : List Event) (s : State) : (runEnd n evs s).hmem = s.hmem := rfl
@[simp] theorem runEnd_port (n : Nat) (evs : List Event) (s : State) : (runEnd n evs s).port = s.port := rfl
@[simp] theorem runEnd_epoch (n : Nat) (evs : List Event) (s : State) : (runEnd n evs s).epoch = s.epoch := rfl

@[simp] theorem Enc.construct_wbuf (cap : Nat) (e : Enc) : (e.construct cap).wbuf = e.wbuf := rfl
@[simp] theorem Enc.construct_wcap (cap : Nat) (e : Enc) : (e.construct cap).wcap = cap := rfl
@[simp] theorem Enc.construct_wpos (cap : Nat) (e : Enc) : (e.construct cap).wpos = 0 := rfl
@[simp] theorem Enc.construct_efault (cap : Nat) (e : Enc) : (e.construct cap).efault = false := rfl
@[simp] theorem Enc.construct_ecause (cap : Nat) (e : Enc) : (e.construct cap).ecause = .noFault := rfl
@[simp] theorem Enc.construct_vvalid (cap : Nat) (e : Enc) : (e.construct cap).vvalid = false := rfl
@[simp] theorem Enc.construct_vbase (cap : Nat) (e : Enc) : (e.construct cap).vbase = 0 := rfl
@[simp] theorem Enc.construct_vlen (cap : Nat) (e : Enc) : (e.construct cap).vlen = 0 := rfl
@[simp] theorem Enc.construct_resp (cap : Nat) (e : Enc) : (e.construct cap).resp = e.resp := rfl

@[simp] theorem Dec.rewind_rmode (d : Dec) : (d.rewind).rmode = d.rmode := rfl
@[simp] theorem Dec.rewind_rbuf (d : Dec) : (d.rewind).rbuf = d.rbuf := rfl
@[simp] theorem Dec.rewind_rbase (d : Dec) : (d.rewind).rbase = d.rbase := rfl
@[simp] theorem Dec.rewind_rsize (d : Dec) : (d.rewind).rsize = d.rsize := rfl
@[simp] theorem Dec.rewind_rpos (d : Dec) : (d.rewind).rpos = 0 := rfl
@[simp] theorem Dec.rewind_dstate (d : Dec) : (d.rewind).dstate = .ready := rfl
@[simp] theorem Dec.rewind_dcause (d : Dec) : (d.rewind).dcause = d.dcause := rfl
@[simp] theorem Dec.rewind_ltype (d : Dec) : (d.rewind).ltype = 15 := rfl
@[simp] theorem Dec.rewind_lvalue (d : Dec) : (d.rewind).lvalue = 0 := rfl
@[simp] theorem Dec.rewind_lsize (d : Dec) : (d.rewind).lsize = 0 := rfl
@[simp] theorem Dec.rewind_lrefk (d : Dec) : (d.rewind).lrefk = .null := rfl
@[simp] theorem Dec.rewind_loff (d : Dec) : (d.rewind).loff = 0 := rfl
@[simp] theorem Dec.rewind_resp (d : Dec) : (d.rewind).resp = d.resp := rfl
@[simp] theorem Dec.rewind_events (d : Dec) : (d.rewind).events = d.events := rfl

@[simp] theorem Dec.construct_rmode (mode : RMode) (base size : Nat) (d : Dec) : (d.construct mode base size).rmode = mode := rfl
@[simp] theorem Dec.construct_rbuf (mode : RMode) (base size : Nat) (d : Dec) : (d.construct mode base size).rbuf = d.rbuf := rfl
@[simp] theorem Dec.construct_rbase (mode : RMode) (base size : Nat) (d : Dec) : (d.construct mode base size).rbase = base := rfl
@[simp] theorem Dec.construct_rsize (mode : RMode) (base size : Nat) (d : Dec) : (d.construct mode base size).rsize = size := rfl
@[simp] theorem Dec.construct_rpos (mode : RMode) (base size : Nat) (d : Dec) : (d.construct mode base size).rpos = 0 := rfl
@[simp] theorem Dec.construct_dstate (mode : RMode) (base size : Nat) (d : Dec) : (d.construct mode base size).dstate = .ready := rfl
@[simp] theorem Dec.construct_dcause (mode : RMode) (base size : Nat) (d : Dec) : (d.construct mode base size).dcause = .noFault := rfl
@[simp] theorem Dec.construct_ltype (mode : RMode) (base size : Nat) (d : Dec) : (d.construct mode base size).ltype = 15 := rfl
@[simp] theorem Dec.construct_lvalue (mode : RMode) (base size : Nat) (d : Dec) : (d.construct mode base size).lvalue = 0 := rfl
@[simp] theorem Dec.construct_lsize (mode : RMode) (base size : Nat) (d : Dec) : (d.construct mode base size).lsize = 0 := rfl
@[simp] theorem Dec.construct_lrefk (mode : RMode) (base size : Nat) (d : Dec) : (d.construct mode base size).lrefk = .null := rfl
@[simp] theorem Dec.construct_loff (mode : RMode) (base size : Nat) (d : Dec) : (d.construct mode base size).loff = 0 := rfl
@[simp] theorem Dec.construct_resp (mode : RMode) (base size : Nat) (d : Dec) : (d.construct mode base size).resp = d.resp := rfl
@[simp] theorem Dec.construct_events (mode : RMode) (base size : Nat) (d : Dec) : (d.construct mode base size).events = d.events := rfl

@[simp] theorem Dec.commit_rmode (c : Commit) (d : Dec) : (d.commit c).rmode = d.rmode := rfl
@[simp] theorem Dec.commit_rbuf (c : Commit) (d : Dec) : (d.commit c).rbuf = d.rbuf := rfl
@[simp] theorem Dec.commit_rbase (c : Commit) (d : Dec) : (d.commit c).rbase = d.rbase := rfl
@[simp] theorem Dec.commit_rsize (c : Commit) (d : Dec) : (d.commit c).rsize = d.rsize := rfl
@[simp] theorem Dec.commit_rpos (c : Commit) (d : Dec) : (d.commit c).rpos = c.rpos := rfl
@[simp] theorem Dec.commit_dstate (c : Commit) (d : Dec) : (d.commit c).dstate = d.dstate := rfl
@[simp] theorem Dec.commit_dcause (c : Commit) (d : Dec) : (d.commit c).dcause = d.dcause := rfl
@[simp] theorem Dec.commit_ltype (c : Commit) (d : Dec) : (d.commit c).ltype = c.ltype := rfl
@[simp] theorem Dec.commit_lvalue (c : Commit) (d : Dec) : (d.commit c).lvalue = c.lvalue := rfl
@[simp] theorem Dec.commit_lsize (c : Commit) (d : Dec) : (d.commit c).lsize = c.lsize := rfl
@[simp] theorem Dec.commit_lrefk (c : Commit) (d : Dec) : (d.commit c).lrefk = c.lrefk := rfl
@[simp] theorem Dec.commit_loff (c : Commit) (d : Dec) : (d.commit c).loff = c.loff := rfl
@[simp] theorem Dec.commit_resp (c : Commit) (d : Dec) : (d.commit c).resp = d.resp := rfl
@[simp] theorem Dec.commit_events (c : Commit) (d : Dec) : (d.commit c).events = d.events := rfl

end Sys2Proof.Machine
end

