-- ==== Sys2Proof/Laws/Ops.lean ====
section
/-! SUPPORT. Laws/Ops.lean: for each shared operation one lemma that says once everything it can do. -/

namespace Sys2Proof.Machine

/-- Everything an `ENC` command can do. -/
theorem encCommand_cases {body : State → Except Cause (Enc × Reply)} {s t : State}
    (h : encCommand body s = .next t) :
    (s.enc.efault = true ∧ t = answerEnc (.faultOf s.enc.ecause) s) ∨
    (s.enc.efault = false ∧ ∃ c, body s = .error c ∧ t = takeFault .enc [] c s) ∨
    (s.enc.efault = false ∧ ∃ e r, body s = .ok (e, r) ∧ t = answerEnc r.response (s.withEnc e)) := by
  unfold encCommand at h
  split at h
  · rename_i hf
    cases h
    exact .inl ⟨hf, rfl⟩
  · rename_i hf
    split at h
    · rename_i c hb
      cases h
      exact .inr (.inl ⟨by simpa using hf, c, hb, rfl⟩)
    · rename_i e r hb
      cases h
      exact .inr (.inr ⟨by simpa using hf, e, r, hb, rfl⟩)

/-- Everything a `DEC` command that runs no step can do. -/
theorem decCommand_cases {body : State → Dec × Reply} {s t : State} (h : decCommand body s = .next t) :
    (s.dec.dstate = .aborted ∧ t = answerDec [] (.faultOf s.dec.dcause) s) ∨
    (s.dec.dstate ≠ .aborted ∧ t = answerDec [] (body s).2.response (s.withDec (body s).1)) := by
  unfold decCommand at h
  split at h
  · rename_i hf
    cases h
    exact .inl ⟨hf, rfl⟩
  · rename_i hf
    cases h
    exact .inr ⟨hf, rfl⟩

/-- Everything a pull can do. -/
theorem nextField_cases {arm : Arm} {s t : State} (h : nextField arm s = .next t) :
    (s.dec.dstate = .aborted ∧ t = answerDec [] (.faultOf s.dec.dcause) s) ∨
    (s.dec.dstate = .done ∧ t = answerDec [] (.okWith 15 0) s) ∨
    ((s.dec.dstate = .ready ∨ s.dec.dstate = .decoding) ∧ ∃ c, fieldStep arm s = .error c ∧ t = takeFault .dec [] c s) ∨
    ((s.dec.dstate = .ready ∨ s.dec.dstate = .decoding) ∧ ∃ d, fieldStep arm s = .ok d ∧
      t = answerDec [] (.okWith (d.ltype.setWidth 64) (BitVec.ofNat 64 d.lsize)) (s.withDec d)) := by
  unfold nextField at h
  cases hd : s.dec.dstate <;> simp only [hd] at h
  case aborted => cases h; exact .inl ⟨rfl, rfl⟩
  case done => cases h; exact .inr (.inl ⟨rfl, rfl⟩)
  case ready =>
    split at h
    · rename_i c hc
      cases h
      exact .inr (.inr (.inl ⟨.inl rfl, c, hc, rfl⟩))
    · rename_i d hc
      cases h
      exact .inr (.inr (.inr ⟨.inl rfl, d, hc, rfl⟩))
  case decoding =>
    split at h
    · rename_i c hc
      cases h
      exact .inr (.inr (.inl ⟨.inr rfl, c, hc, rfl⟩))
    · rename_i d hc
      cases h
      exact .inr (.inr (.inr ⟨.inr rfl, d, hc, rfl⟩))

/-- Everything a step of the dispatcher that does not raise can do. -/
theorem fieldStep_ok {arm : Arm} {s : State} {d : Dec} (h : fieldStep arm s = .ok d) :
    (s.dec.rsize ≤ s.dec.rpos ∧ d = { s.dec.commit (eofCommit s.dec.rpos) with dstate := .done }) ∨
    (s.dec.rpos < s.dec.rsize ∧ ∃ c, arm s s.dec.rpos = .ok c ∧
      d = { s.dec.commit c with dstate := if c.ltype = 15#4 then .done else .decoding }) := by
  unfold fieldStep at h
  split at h
  · rename_i hp
    cases h
    exact .inl ⟨hp, rfl⟩
  · rename_i hp
    split at h
    · cases h
    · rename_i c hc
      cases h
      exact .inr ⟨by omega, c, hc, rfl⟩

/-- A step of the dispatcher raises only what the arm of a header inside the source raises. -/
theorem fieldStep_error {arm : Arm} {s : State} {c : Cause} (h : fieldStep arm s = .error c) :
    s.dec.rpos < s.dec.rsize ∧ arm s s.dec.rpos = .error c := by
  unfold fieldStep at h
  split at h
  · cases h
  · rename_i hp
    split at h
    · rename_i c' hc
      cases h
      exact ⟨by omega, hc⟩
    · cases h

/-- Everything `emit_field` can do. -/
theorem emitField_ok {bs : List Byte} {tail : Nat} {e e' : Enc} (h : emitField bs tail e = .ok e') :
    e.wpos + (bs.length + tail) ≤ e.wcap ∧
    e' = { e with wbuf := Memory.writeList e.wbuf e.wpos bs, wpos := e.wpos + (bs.length + tail) } := by
  unfold emitField at h
  split at h
  · cases h
  · cases h
    exact ⟨by omega, rfl⟩

/-- `emit_field` raises `CapacityExceeded` and nothing else, exactly when the field does not fit. -/
theorem emitField_error {bs : List Byte} {tail : Nat} {e : Enc} {c : Cause} (h : emitField bs tail e = .error c) :
    c = .capacityExceeded ∧ e.wcap < e.wpos + (bs.length + tail) := by
  unfold emitField at h
  split at h
  · rename_i hc
    cases h
    exact ⟨rfl, hc⟩
  · cases h

/-- Everything the end of an `ADD_*` can do. -/
theorem addBytes_ok {bs : List Byte} {e e' : Enc} {r : Reply} (h : addBytes bs e = .ok (e', r)) :
    e.wpos + bs.length ≤ e.wcap ∧ r = .ok 0 0 ∧
    e' = { e with wbuf := Memory.writeList e.wbuf e.wpos bs, wpos := e.wpos + bs.length, vvalid := false } := by
  unfold addBytes at h
  split at h
  · cases h
  · rename_i e1 h1
    obtain ⟨hc, rfl⟩ := emitField_ok h1
    cases h
    exact ⟨by omega, rfl, by simp⟩

theorem addBytes_error {bs : List Byte} {e : Enc} {c : Cause} (h : addBytes bs e = .error c) :
    c = .capacityExceeded ∧ e.wcap < e.wpos + bs.length := by
  unfold addBytes at h
  split at h
  · rename_i c' h1
    cases h
    simpa using emitField_error h1
  · cases h

/-- `emit_field` with no tail is `write_bytes` (R222). -/
theorem emitField_eq_writeBytes (bs : List Byte) (e : Enc) : emitField bs 0 e = writeBytes bs e := by
  simp [emitField, writeBytes]

/-- `write_byte` is `write_bytes` of one byte (R220, R221). -/
theorem writeByte_eq_writeBytes (b : Byte) (e : Enc) : writeByte b e = writeBytes [b] e := by
  simp [writeByte, writeBytes, Memory.writeList]

/-- `read_byte` answers the source byte inside the source and nothing else. -/
theorem readByte_ok {s : State} {p : Nat} {b : Byte} (h : readByte s p = .ok b) : p < s.dec.rsize ∧ b = src s p := by
  unfold readByte at h
  split at h
  · cases h
  · cases h
    exact ⟨by omega, rfl⟩

theorem readByte_error {s : State} {p : Nat} {c : Cause} (h : readByte s p = .error c) :
    c = .truncated ∧ s.dec.rsize ≤ p := by
  unfold readByte at h
  split at h
  · rename_i hp
    cases h
    exact ⟨rfl, hp⟩
  · cases h

/-- `read_bytes` answers the source bytes when all are there. -/
theorem readBytes_ok {s : State} {p n : Nat} {bs : List Byte} (h : readBytes s p n = .ok bs) :
    n ≤ s.dec.rsize - p ∧ bs = (List.range n).map fun i => src s (p + i) := by
  unfold readBytes at h
  split at h
  · cases h
  · cases h
    exact ⟨by omega, rfl⟩

theorem readBytes_error {s : State} {p n : Nat} {c : Cause} (h : readBytes s p n = .error c) :
    c = .truncated ∧ s.dec.rsize - p < n := by
  unfold readBytes at h
  split at h
  · rename_i hp
    cases h
    exact ⟨rfl, hp⟩
  · cases h

/-- The view of a vector stays inside the source, and is the only thing `commitView` can give. -/
theorem commitView_ok {length p : Nat} {s : State} {c : Commit} (h : commitView length p s = .ok c) :
    length ≤ s.dec.rsize - p ∧
    c = { ltype := 13, lvalue := BitVec.ofNat 64 p, lsize := length, lrefk := .inbuf, loff := p, rpos := p + length } := by
  unfold commitView at h
  split at h
  · cases h
  · cases h
    exact ⟨by omega, rfl⟩

/-- A commit does not touch the source, so the bytes a pass sees do not depend on how far it has come. -/
theorem src_withDec (s : State) (d : Dec) (h1 : d.rmode = s.dec.rmode) (h2 : d.rbuf = s.dec.rbuf)
    (h3 : d.rbase = s.dec.rbase) (i : Nat) : src (s.withDec d) i = src s i := by
  simp only [src, rbufByte, hostByte, State.withDec_dec, State.withDec_epoch, State.withDec_hmem, h1, h2, h3]

end Sys2Proof.Machine
end

