-- ==== Sys2Proof/Laws/Arms.lean ====
section
/-! SUPPORT. Laws/Arms.lean: what the arms of the dispatcher can answer, and what the loop of `DEC_RUN` keeps. -/

namespace Sys2Proof.Machine

/-- Everything the loop of `dec_uleb` says about offsets: at least one byte, at most the turns left, all inside
the source, seven bits for each. -/
theorem ulebLoop_ok {s : State} {fuel p : Nat} {v : Word} {sh : Nat} {r : UlebResult}
    (h : ulebLoop s fuel p v sh = .ok r) :
    p < r.next ∧ r.next ≤ s.dec.rsize ∧ r.shift = sh + 7 * (r.next - p) ∧ r.shift ≤ 70 ∧ r.last = src s (r.next - 1) := by
  induction fuel generalizing p v sh with
  | zero => cases h
  | succ fuel ih =>
    rw [ulebLoop] at h
    split at h
    · cases h
    · split at h
      · cases h
      · rename_i hs _ b hb
        obtain ⟨hp, rfl⟩ := readByte_ok hb
        simp only at h
        split at h
        · have := ih h
          refine ⟨by omega, this.2.1, by omega, this.2.2.2.1, this.2.2.2.2⟩
        · cases h
          refine ⟨by simp, by simp; omega, by simp, by simp; omega, by simp⟩

theorem ulebLoop_error {s : State} {fuel p : Nat} {v : Word} {sh : Nat} {c : Cause}
    (h : ulebLoop s fuel p v sh = .error c) : c = .truncated ∨ c = .overflow := by
  induction fuel generalizing p v sh with
  | zero => cases h; exact .inr rfl
  | succ fuel ih =>
    rw [ulebLoop] at h
    split at h
    · cases h; exact .inr rfl
    · split at h
      · rename_i c' hc
        cases h
        exact .inl (readByte_error hc).1
      · simp only at h
        split at h
        · exact ih h
        · cases h

/-- Everything a LEB128 decode says about offsets (R134). -/
theorem decUleb_ok {s : State} {p : Nat} {r : UlebResult} (h : decUleb s p = .ok r) :
    p < r.next ∧ r.next ≤ s.dec.rsize ∧ r.next ≤ p + 10 ∧ r.shift = 7 * (r.next - p) ∧ r.last = src s (r.next - 1) := by
  have := ulebLoop_ok h
  refine ⟨this.1, this.2.1, by omega, by omega, this.2.2.2.2⟩

theorem decUleb_error {s : State} {p : Nat} {c : Cause} (h : decUleb s p = .error c) :
    c = .truncated ∨ c = .overflow := ulebLoop_error h

/-- What a commit record of an arm satisfies, for a header at offset `p` of a source of `n` bytes. -/
structure GoodCommit (p n : Nat) (c : Commit) : Prop where
  type_ok : c.ltype ≠ 14
  forward : p < c.rpos
  inside : c.rpos ≤ n
  view : c.lrefk = .inbuf → c.loff + c.lsize ≤ n
  no_view : c.lrefk ≠ .inbuf → c.loff = 0
  eof : c.ltype = 15 → c = eofCommit (p + 1)

/-- What an arm may answer (R261, R291, R292, R295). -/
structure GoodArm (arm : Arm) : Prop where
  commits : ∀ s p c, p < s.dec.rsize → arm s p = .ok c → GoodCommit p s.dec.rsize c
  raises : ∀ s p c, arm s p = .error c → c = .truncated ∨ c = .overflow ∨ c = .unknownType

theorem armFixed_good (k : FixedKind) : GoodArm (armFixed k) := by
  refine ⟨fun s p c hp h => ?_, fun s p c h => ?_⟩ <;> unfold armFixed at h <;> split at h
  · cases h
  · rename_i bs hb
    have := (readBytes_ok hb).1
    cases h
    have hw : 1 ≤ k.width := by cases k <;> decide
    refine ⟨?_, ?_, ?_, ?_, ?_, ?_⟩
    · cases k <;> simp [FixedKind.tag]
    · simp; omega
    · simp; omega
    · simp; omega
    · simp
    · cases k <;> simp [FixedKind.tag]
  · rename_i c' hc
    cases h
    exact .inl (readBytes_error hc).1
  · cases h

theorem armUleb128_good (m : Nibble) : GoodArm (armUleb128 m) := by
  refine ⟨fun s p c hp h => ?_, fun s p c h => ?_⟩ <;> unfold armUleb128 at h <;> split at h
  · cases h
  · rename_i r hr
    have := decUleb_ok hr
    cases h
    exact ⟨by simp, by simp; omega, by simp; omega, by simp, by simp, by simp⟩
  · rename_i c' hc
    cases h
    have := decUleb_error hc
    tauto
  · cases h

theorem decSleb_ok {s : State} {p p' : Nat} {v : Word} (h : decSleb s p = .ok (v, p')) :
    ∃ r, decUleb s p = .ok r ∧ v = slebExtend r ∧ p' = r.next := by
  unfold decSleb at h
  split at h
  · cases h
  · rename_i r hr
    cases h
    exact ⟨r, hr, rfl, rfl⟩

theorem decSleb_error {s : State} {p : Nat} {c : Cause} (h : decSleb s p = .error c) : decUleb s p = .error c := by
  unfold decSleb at h
  split at h
  · rename_i c' hc
    cases h
    exact hc
  · cases h

theorem armSleb128_good (m : Nibble) : GoodArm (armSleb128 m) := by
  refine ⟨fun s p c hp h => ?_, fun s p c h => ?_⟩ <;> unfold armSleb128 at h <;> split at h
  · cases h
  · rename_i v p' hr
    obtain ⟨r, hu, rfl, rfl⟩ := decSleb_ok hr
    have := decUleb_ok hu
    cases h
    exact ⟨by simp, by simp; omega, by simp; omega, by simp, by simp, by simp⟩
  · rename_i c' hc
    cases h
    have := decUleb_error (decSleb_error hc)
    tauto
  · cases h

theorem armShort_good (m : Nibble) : GoodArm (armShort m) := by
  refine ⟨fun s p c hp h => ?_, fun s p c h => ?_⟩ <;> unfold armShort at h <;> cases h
  exact ⟨by simp, by simp, by simp; omega, by simp; omega, by simp, by simp⟩

theorem commitView_good {length p q : Nat} {s : State} {c : Commit} (hp : q < p) (hs : p ≤ s.dec.rsize)
    (h : commitView length p s = .ok c) : GoodCommit q s.dec.rsize c := by
  obtain ⟨h1, rfl⟩ := commitView_ok h
  exact ⟨by simp, by simp; omega, by simp; omega, by simp; omega, by simp, by simp⟩

theorem commitView_error {length p : Nat} {s : State} {c : Cause} (h : commitView length p s = .error c) :
    c = .truncated ∧ s.dec.rsize - p < length := by
  unfold commitView at h
  split at h
  · rename_i hl
    cases h
    exact ⟨rfl, hl⟩
  · cases h

theorem armVector_good (m : Nibble) : GoodArm (armVector m) := by
  refine ⟨fun s p c hp h => ?_, fun s p c h => ?_⟩ <;> unfold armVector at h
  · exact commitView_good (by omega) (by omega) h
  · exact .inl (commitView_error h).1

theorem armVectorLarge_good : GoodArm armVectorLarge := by
  refine ⟨fun s p c hp h => ?_, fun s p c h => ?_⟩ <;> unfold armVectorLarge at h <;> split at h
  · cases h
  · rename_i r hr
    have := decUleb_ok hr
    exact commitView_good (by omega) (by omega) h
  · rename_i c' hc
    cases h
    have := decUleb_error hc
    tauto
  · exact .inl (commitView_error h).1

theorem armEof_good (m : Nibble) : GoodArm (armEof m) := by
  refine ⟨fun s p c hp h => ?_, fun s p c h => ?_⟩ <;> unfold armEof at h <;> cases h
  exact ⟨by simp [eofCommit], by simp [eofCommit], by simp [eofCommit]; omega, by simp [eofCommit], by simp [eofCommit],
    fun _ => rfl⟩

theorem armReserved14_good (m : Nibble) : GoodArm (armReserved14 m) := by
  refine ⟨fun s p c hp h => ?_, fun s p c h => ?_⟩ <;> unfold armReserved14 at h <;> cases h
  exact .inr (.inr rfl)

/-- Every arm of the dispatch table (R261). -/
theorem armOf_good (h : Byte) : GoodArm (armOf h) := by
  unfold armOf
  simp only
  split
  case h_14 =>
    split
    · exact armVectorLarge_good
    · exact armVector_good _
  case h_9 => exact armUleb128_good _
  case h_10 => exact armSleb128_good _
  case h_13 => exact armShort_good _
  case h_15 => exact armReserved14_good _
  case h_16 => exact armEof_good _
  all_goals exact armFixed_good _

/-- The arm of the header under the cursor. -/
theorem armAt_good : GoodArm armAt := by
  refine ⟨fun s p c hp h => ?_, fun s p c h => ?_⟩ <;> unfold armAt at h <;> split at h
  · cases h
  · exact (armOf_good _).commits s p c hp h
  · rename_i c' hc
    cases h
    exact .inl (readByte_error hc).1
  · exact (armOf_good _).raises s p c h

/-- What one step of the dispatcher with a good arm keeps and does: the source and what describes it stay, and
the fields are those of a commit, or of the implicit EOF. -/
theorem fieldStep_good {arm : Arm} (ha : GoodArm arm) {s : State} {d : Dec} (h : fieldStep arm s = .ok d) :
    d.rmode = s.dec.rmode ∧ d.rbuf = s.dec.rbuf ∧ d.rbase = s.dec.rbase ∧ d.rsize = s.dec.rsize ∧
    d.dcause = s.dec.dcause ∧ d.resp = s.dec.resp ∧ d.events = s.dec.events ∧
    ((s.dec.rsize ≤ s.dec.rpos ∧ d.dstate = .done ∧ d = { s.dec.commit (eofCommit s.dec.rpos) with dstate := .done }) ∨
     (s.dec.rpos < s.dec.rsize ∧ ∃ c, arm s s.dec.rpos = .ok c ∧ GoodCommit s.dec.rpos s.dec.rsize c ∧
       d = { s.dec.commit c with dstate := if c.ltype = 15#4 then .done else .decoding })) := by
  rcases fieldStep_ok h with ⟨hp, rfl⟩ | ⟨hp, c, hc, rfl⟩
  · exact ⟨rfl, rfl, rfl, rfl, rfl, rfl, rfl, .inl ⟨hp, rfl, rfl⟩⟩
  · exact ⟨rfl, rfl, rfl, rfl, rfl, rfl, rfl, .inr ⟨hp, c, hc, ha.commits s _ c hp hc, rfl⟩⟩

/-- The pattern of a list of bytes, bit by bit. -/
theorem getLsbD_leValue (bs : List Byte) (j : Nat) (hj : j < 64) :
    (leValue bs).getLsbD j = (bs[j / 8]?.getD 0).getLsbD (j % 8) := by
  induction bs generalizing j with
  | nil => simp [leValue]
  | cons b bs ih =>
    simp only [leValue, BitVec.getLsbD_or, BitVec.getLsbD_setWidth, BitVec.getLsbD_shiftLeft, hj, decide_true, Bool.true_and]
    by_cases h8 : j < 8
    · have h0 : j / 8 = 0 := by omega
      have h1 : j % 8 = j := by omega
      simp [h8, h0, h1]
    · obtain ⟨k, rfl⟩ : ∃ k, j = k + 8 := ⟨j - 8, by omega⟩
      have h0 : (k + 8) / 8 = k / 8 + 1 := by omega
      have h1 : (k + 8) % 8 = k % 8 := by omega
      have h2 : b.getLsbD (k + 8) = false := BitVec.getLsbD_of_ge _ _ (by omega)
      rw [h0, h1, h2, Nat.add_sub_cancel, ih k (by omega)]
      simp

end Sys2Proof.Machine
end

