-- ==== Sys2Proof/Laws/PerInstr.lean ====
section
/-! SUPPORT. Laws/PerInstr.lean: the family EncodeMatchesTable: the first byte of an instruction's encoding
matches its own row of spec/opcode_table.json (`match` under `mask`), in the row's own space. -/

namespace Sys2Proof.Laws.EncodeMatchesTable

/-- Where a row of the opcode table is read: the source of `DEC`, or the command port of a unit. -/
inductive Space
  | wire
  | command (u : UnitId)
deriving DecidableEq, Repr

/-- `space`, `match` and `mask` of an instruction's row. -/
def row : Instr → Space × Byte × Byte
  | .int8 _ => (.wire, 0x00, 0x0F)
  | .uint8 _ => (.wire, 0x01, 0x0F)
  | .int16 _ => (.wire, 0x02, 0x0F)
  | .uint16 _ => (.wire, 0x03, 0x0F)
  | .int32 _ => (.wire, 0x04, 0x0F)
  | .uint32 _ => (.wire, 0x05, 0x0F)
  | .int64 _ => (.wire, 0x06, 0x0F)
  | .uint64 _ => (.wire, 0x07, 0x0F)
  | .uleb128 _ => (.wire, 0x08, 0x0F)
  | .sleb128 _ => (.wire, 0x09, 0x0F)
  | .float32 _ => (.wire, 0x0A, 0x0F)
  | .float64 _ => (.wire, 0x0B, 0x0F)
  | .short _ => (.wire, 0x0C, 0x0F)
  | .vector _ => (.wire, 0x0D, 0x0F)
  | .vectorLarge => (.wire, 0xFD, 0xFF)
  | .reserved14 _ => (.wire, 0x0E, 0x0F)
  | .eof _ => (.wire, 0x0F, 0x0F)
  | .addInt8 _ => (.command .enc, 0x00, 0xFF)
  | .addUint8 _ => (.command .enc, 0x01, 0xFF)
  | .addInt16 _ => (.command .enc, 0x02, 0xFF)
  | .addUint16 _ => (.command .enc, 0x03, 0xFF)
  | .addInt32 _ => (.command .enc, 0x04, 0xFF)
  | .addUint32 _ => (.command .enc, 0x05, 0xFF)
  | .addInt64 _ => (.command .enc, 0x06, 0xFF)
  | .addUint64 _ => (.command .enc, 0x07, 0xFF)
  | .addUleb128 _ => (.command .enc, 0x08, 0xFF)
  | .addSleb128 _ => (.command .enc, 0x09, 0xFF)
  | .addFloat32 _ => (.command .enc, 0x0A, 0xFF)
  | .addFloat64 _ => (.command .enc, 0x0B, 0xFF)
  | .addShort _ => (.command .enc, 0x0C, 0xFF)
  | .addVector _ => (.command .enc, 0x0D, 0xFF)
  | .reserved0E => (.command .enc, 0x0E, 0xFF)
  | .addEof => (.command .enc, 0x0F, 0xFF)
  | .encInit _ => (.command .enc, 0x10, 0xFF)
  | .encReset => (.command .enc, 0x11, 0xFF)
  | .encFill _ _ => (.command .enc, 0x12, 0xFF)
  | .encRead _ => (.command .enc, 0x13, 0xFF)
  | .decAttach _ _ => (.command .dec, 0x20, 0xFF)
  | .decAlloc _ => (.command .dec, 0x21, 0xFF)
  | .decLoad _ _ => (.command .dec, 0x22, 0xFF)
  | .decReset => (.command .dec, 0x23, 0xFF)
  | .decNext => (.command .dec, 0x24, 0xFF)
  | .decRun => (.command .dec, 0x25, 0xFF)
  | .decRead _ => (.command .dec, 0x26, 0xFF)

/-- Space and first byte of a code word. -/
def lead : CodeWord → Space × Byte
  | .field h => (.wire, h)
  | .command u c => (.command u, c.op)

def Statement (i : Instr) : Prop :=
  i.wellFormed = true →
    (lead (encode i)).1 = (row i).1 ∧ (lead (encode i)).2 &&& (row i).2.2 = (row i).2.1

theorem int8 (a : Nibble) : Statement (.int8 a) := by
  intro _
  revert a
  decide

theorem uint8 (a : Nibble) : Statement (.uint8 a) := by
  intro _
  revert a
  decide

theorem int16 (a : Nibble) : Statement (.int16 a) := by
  intro _
  revert a
  decide

theorem uint16 (a : Nibble) : Statement (.uint16 a) := by
  intro _
  revert a
  decide

theorem int32 (a : Nibble) : Statement (.int32 a) := by
  intro _
  revert a
  decide

theorem uint32 (a : Nibble) : Statement (.uint32 a) := by
  intro _
  revert a
  decide

theorem int64 (a : Nibble) : Statement (.int64 a) := by
  intro _
  revert a
  decide

theorem uint64 (a : Nibble) : Statement (.uint64 a) := by
  intro _
  revert a
  decide

theorem uleb128 (a : Nibble) : Statement (.uleb128 a) := by
  intro _
  revert a
  decide

theorem sleb128 (a : Nibble) : Statement (.sleb128 a) := by
  intro _
  revert a
  decide

theorem float32 (a : Nibble) : Statement (.float32 a) := by
  intro _
  revert a
  decide

theorem float64 (a : Nibble) : Statement (.float64 a) := by
  intro _
  revert a
  decide

theorem short (a : Nibble) : Statement (.short a) := by
  intro _
  revert a
  decide

theorem vector (a : Nibble) : Statement (.vector a) := by
  intro _
  revert a
  decide

theorem vectorLarge : Statement .vectorLarge := by
  intro _
  decide

theorem reserved14 (a : Nibble) : Statement (.reserved14 a) := by
  intro _
  revert a
  decide

theorem eof (a : Nibble) : Statement (.eof a) := by
  intro _
  revert a
  decide

theorem addInt8 (a : Word) : Statement (.addInt8 a) := fun _ => by simp [lead, row, encode, encWord]

theorem addUint8 (a : Word) : Statement (.addUint8 a) := fun _ => by simp [lead, row, encode, encWord]

theorem addInt16 (a : Word) : Statement (.addInt16 a) := fun _ => by simp [lead, row, encode, encWord]

theorem addUint16 (a : Word) : Statement (.addUint16 a) := fun _ => by simp [lead, row, encode, encWord]

theorem addInt32 (a : Word) : Statement (.addInt32 a) := fun _ => by simp [lead, row, encode, encWord]

theorem addUint32 (a : Word) : Statement (.addUint32 a) := fun _ => by simp [lead, row, encode, encWord]

theorem addInt64 (a : Word) : Statement (.addInt64 a) := fun _ => by simp [lead, row, encode, encWord]

theorem addUint64 (a : Word) : Statement (.addUint64 a) := fun _ => by simp [lead, row, encode, encWord]

theorem addUleb128 (a : Word) : Statement (.addUleb128 a) := fun _ => by simp [lead, row, encode, encWord]

theorem addSleb128 (a : Word) : Statement (.addSleb128 a) := fun _ => by simp [lead, row, encode, encWord]

theorem addFloat32 (a : Word) : Statement (.addFloat32 a) := fun _ => by simp [lead, row, encode, encWord]

theorem addFloat64 (a : Word) : Statement (.addFloat64 a) := fun _ => by simp [lead, row, encode, encWord]

theorem addShort (a : Word) : Statement (.addShort a) := fun _ => by simp [lead, row, encode, encWord]

theorem addVector (a : Word) : Statement (.addVector a) := fun _ => by simp [lead, row, encode, encWord]

theorem reserved0E : Statement .reserved0E := fun _ => by simp [lead, row, encode, encWord]

theorem addEof : Statement .addEof := fun _ => by simp [lead, row, encode, encWord]

theorem encInit (a : Word) : Statement (.encInit a) := fun _ => by simp [lead, row, encode, encWord]

theorem encReset : Statement .encReset := fun _ => by simp [lead, row, encode, encWord]

theorem encFill (a b : Word) : Statement (.encFill a b) := fun _ => by simp [lead, row, encode, encWord]

theorem encRead (a : Word) : Statement (.encRead a) := fun _ => by simp [lead, row, encode, encWord]

theorem decAttach (a b : Word) : Statement (.decAttach a b) := fun _ => by simp [lead, row, encode, decWord]

theorem decAlloc (a : Word) : Statement (.decAlloc a) := fun _ => by simp [lead, row, encode, decWord]

theorem decLoad (a b : Word) : Statement (.decLoad a b) := fun _ => by simp [lead, row, encode, decWord]

theorem decReset : Statement .decReset := fun _ => by simp [lead, row, encode, decWord]

theorem decNext : Statement .decNext := fun _ => by simp [lead, row, encode, decWord]

theorem decRun : Statement .decRun := fun _ => by simp [lead, row, encode, decWord]

theorem decRead (a : Word) : Statement (.decRead a) := fun _ => by simp [lead, row, encode, decWord]

end Sys2Proof.Laws.EncodeMatchesTable
end

