-- ==== Sys2Proof/Tests/Slice0.lean ====
section
/-! SUPPORT. Tests/Slice0.lean: the model against the spec's own words and vectors (95_test_vectors.md, "S" and
"P" its numbered examples), and one witness for the hypotheses of each statement. -/

open Sys2Proof Sys2Proof.Machine

namespace Sys2Proof.Tests

/-! ### Helpers -/

/-- The state an outcome carries. -/
def stateOf : Out → State
  | .next t => t
  | .fault _ => State.reset
  | .refused _ => State.reset

/-- An encoder of capacity `cap` that has put out `bs`. -/
def encoder (cap : Nat) (bs : List Byte) : State :=
  { State.reset with enc := { Enc.reset with wcap := cap, wpos := bs.length, wbuf := Memory.writeList [] 0 bs } }

/-- An encoder of capacity 3 whose whole output is the span of a 2-byte vector. -/
def spanned : State :=
  { State.reset with enc := { Enc.reset with
      wcap := 3, wpos := 3, wbuf := [(0, 0x2D)], vvalid := true, vbase := 1, vlen := 2 } }

/-- An encoder in the Fault state. -/
def faulted : State :=
  { State.reset with enc := { Enc.reset with wcap := 1, efault := true, ecause := .capacityExceeded } }

/-- A decoder of an owned source that holds `bs`, before its first pull. -/
def source (bs : List Byte) : State :=
  { State.reset with dec := { Dec.reset with rsize := bs.length, rbuf := Memory.writeList [] 0 bs } }

/-- The same in mid-pass with the cursor at `p`. -/
def sourceAt (p : Nat) (bs : List Byte) : State :=
  let s := source bs
  s.withDec { s.dec with dstate := .decoding, rpos := p, ltype := 12, lsize := 1, lrefk := .inbuf }

/-- A decoder that has met its end. -/
def ended : State := (source [0x0F]).withDec { (source [0x0F]).dec with dstate := .done, rpos := 1 }

/-- A decoder in `Aborted`. -/
def aborted : State := (source [0x0E]).withDec { (source [0x0E]).dec with dstate := .aborted, dcause := .unknownType }

/-- A borrowed window of host memory. -/
def window (base : Nat) (bs : List Byte) : State :=
  { State.reset with
    hmem := Memory.writeList [] base bs
    dec := { Dec.reset with rmode := .borrowed, rbase := base, rsize := bs.length } }

/-- The bytes an `ENC` command leaves in the buffer of an empty encoder. -/
def wrote (i : Instr) : List Byte := (stateOf (exec i (encoder 32 []))).enc.wbuf.map (·.2)

/-- How `ENC` answers. -/
def encAnswer (i : Instr) (s : State) : Option Response := (stateOf (exec i s)).enc.resp

/-- How `DEC` answers. -/
def decAnswer (i : Instr) (s : State) : Option Response := (stateOf (exec i s)).dec.resp

/-- The triple, reference and cursor a decoder command leaves. -/
def triple (i : Instr) (s : State) : Nibble × Word × Nat × RefKind × Nat × Nat :=
  let d := (stateOf (exec i s)).dec
  (d.ltype, d.lvalue, d.lsize, d.lrefk, d.loff, d.rpos)

/-- State, cause and cursor of the decoder after a command. -/
def ending (i : Instr) (s : State) : DState × Cause × Nat :=
  let d := (stateOf (exec i s)).dec
  (d.dstate, d.dcause, d.rpos)

theorem sourceHolds_of {s : State} {p : Nat} {bs : List Byte} (h : p + bs.length ≤ s.dec.rsize)
    (hb : ∀ k, k < bs.length → bs[k]? = some (src s (p + k))) : SourceHolds s p bs := by
  refine ⟨h, fun k b hk => ?_⟩
  have := hb k (List.getElem?_eq_some_iff.1 hk).1
  rw [this] at hk
  exact Option.some.inj hk

/-! ### Well-formedness -/

/-- Metadata 15 is the large flag (R91), no literal length. -/
theorem test_vector15_is_ill_formed : (Instr.vector 15).wellFormed = false := by decide

theorem test_vector14_is_well_formed : (Instr.vector 14).wellFormed = true := by decide

/-! ### Decoding: words written out from R90 and R92 (metadata in bits 7:4, type in bits 3:0) -/

theorem test_decode_int8 : decode (.field 0b01010000) = .ok (.int8 5) := by decide
theorem test_decode_uint8 : decode (.field 0b00000001) = .ok (.uint8 0) := by decide
theorem test_decode_int16 : decode (.field 0b00010010) = .ok (.int16 1) := by decide
theorem test_decode_uint16 : decode (.field 0b11110011) = .ok (.uint16 15) := by decide
theorem test_decode_int32 : decode (.field 0b11110100) = .ok (.int32 15) := by decide
theorem test_decode_uint32 : decode (.field 0b00100101) = .ok (.uint32 2) := by decide
theorem test_decode_int64 : decode (.field 0b00110110) = .ok (.int64 3) := by decide
theorem test_decode_uint64 : decode (.field 0b01000111) = .ok (.uint64 4) := by decide
theorem test_decode_uleb128 : decode (.field 0b01111000) = .ok (.uleb128 7) := by decide
theorem test_decode_sleb128 : decode (.field 0b00011001) = .ok (.sleb128 1) := by decide
theorem test_decode_float32 : decode (.field 0b00001010) = .ok (.float32 0) := by decide
theorem test_decode_float64 : decode (.field 0b10011011) = .ok (.float64 9) := by decide
theorem test_decode_short : decode (.field 0b10101100) = .ok (.short 10) := by decide
theorem test_decode_vector : decode (.field 0b00101101) = .ok (.vector 2) := by decide
theorem test_decode_reserved14 : decode (.field 0b00111110) = .ok (.reserved14 3) := by decide
theorem test_decode_eof : decode (.field 0b11111111) = .ok (.eof 15) := by decide
theorem test_decode_vectorLarge : decode (.field 0b11111101) = .ok .vectorLarge := by decide

/-! ### Decoding: command records written out from R101 and R102 -/

theorem test_decode_addInt8 :
    decode (.command .enc { op := 0b00000000, arg0 := 300, arg1 := 7 }) = .ok (.addInt8 300) := by decide
theorem test_decode_addUint8 :
    decode (.command .enc { op := 0b00000001, arg0 := 300, arg1 := 7 }) = .ok (.addUint8 300) := by decide
theorem test_decode_addInt16 :
    decode (.command .enc { op := 0b00000010, arg0 := 300, arg1 := 7 }) = .ok (.addInt16 300) := by decide
theorem test_decode_addUint16 :
    decode (.command .enc { op := 0b00000011, arg0 := 300, arg1 := 7 }) = .ok (.addUint16 300) := by decide
theorem test_decode_addInt32 :
    decode (.command .enc { op := 0b00000100, arg0 := 300, arg1 := 7 }) = .ok (.addInt32 300) := by decide
theorem test_decode_addUint32 :
    decode (.command .enc { op := 0b00000101, arg0 := 300, arg1 := 7 }) = .ok (.addUint32 300) := by decide
theorem test_decode_addInt64 :
    decode (.command .enc { op := 0b00000110, arg0 := 300, arg1 := 7 }) = .ok (.addInt64 300) := by decide
theorem test_decode_addUint64 :
    decode (.command .enc { op := 0b00000111, arg0 := 300, arg1 := 7 }) = .ok (.addUint64 300) := by decide
theorem test_decode_addUleb128 :
    decode (.command .enc { op := 0b00001000, arg0 := 300, arg1 := 7 }) = .ok (.addUleb128 300) := by decide
theorem test_decode_addSleb128 :
    decode (.command .enc { op := 0b00001001, arg0 := 300, arg1 := 7 }) = .ok (.addSleb128 300) := by decide
theorem test_decode_addFloat32 :
    decode (.command .enc { op := 0b00001010, arg0 := 300, arg1 := 7 }) = .ok (.addFloat32 300) := by decide
theorem test_decode_addFloat64 :
    decode (.command .enc { op := 0b00001011, arg0 := 300, arg1 := 7 }) = .ok (.addFloat64 300) := by decide
theorem test_decode_addShort :
    decode (.command .enc { op := 0b00001100, arg0 := 300, arg1 := 7 }) = .ok (.addShort 300) := by decide
theorem test_decode_addVector :
    decode (.command .enc { op := 0b00001101, arg0 := 300, arg1 := 7 }) = .ok (.addVector 300) := by decide
theorem test_decode_reserved0E :
    decode (.command .enc { op := 0b00001110, arg0 := 300, arg1 := 7 }) = .ok .reserved0E := by decide
theorem test_decode_addEof :
    decode (.command .enc { op := 0b00001111, arg0 := 300, arg1 := 7 }) = .ok .addEof := by decide
theorem test_decode_encInit :
    decode (.command .enc { op := 0b00010000, arg0 := 300, arg1 := 7 }) = .ok (.encInit 300) := by decide
theorem test_decode_encReset :
    decode (.command .enc { op := 0b00010001, arg0 := 300, arg1 := 7 }) = .ok .encReset := by decide
theorem test_decode_encFill :
    decode (.command .enc { op := 0b00010010, arg0 := 300, arg1 := 7 }) = .ok (.encFill 300 7) := by decide
theorem test_decode_encRead :
    decode (.command .enc { op := 0b00010011, arg0 := 300, arg1 := 7 }) = .ok (.encRead 300) := by decide
theorem test_decode_decAttach :
    decode (.command .dec { op := 0b00100000, arg0 := 300, arg1 := 7 }) = .ok (.decAttach 300 7) := by decide
theorem test_decode_decAlloc :
    decode (.command .dec { op := 0b00100001, arg0 := 300, arg1 := 7 }) = .ok (.decAlloc 300) := by decide
theorem test_decode_decLoad :
    decode (.command .dec { op := 0b00100010, arg0 := 300, arg1 := 7 }) = .ok (.decLoad 300 7) := by decide
theorem test_decode_decReset :
    decode (.command .dec { op := 0b00100011, arg0 := 300, arg1 := 7 }) = .ok .decReset := by decide
theorem test_decode_decNext :
    decode (.command .dec { op := 0b00100100, arg0 := 300, arg1 := 7 }) = .ok .decNext := by decide
theorem test_decode_decRun :
    decode (.command .dec { op := 0b00100101, arg0 := 300, arg1 := 7 }) = .ok .decRun := by decide
theorem test_decode_decRead :
    decode (.command .dec { op := 0b00100110, arg0 := 300, arg1 := 7 }) = .ok (.decRead 300) := by decide

/-- A code of the other unit, and a code of neither (R105). -/
theorem test_decode_refuses :
    decode (.command .enc { op := 0x24, arg0 := 0, arg1 := 0 }) = .error (.otherUnitsCode .enc 0x24) ∧
    decode (.command .dec { op := 0x27, arg0 := 0, arg1 := 0 }) = .error (.unassignedCode 0x27) := by decide

/-- The numbers of the opcode table: a command with its arguments above the code, and a wire header. -/
theorem test_decodeTableWord :
    decodeTableWord 8 0x24 = some .decNext ∧ decodeTableWord 72 0x1405 = some (.addUint32 0x14) ∧
    decodeTableWord 8 0xAC = some (.short 10) := by decide

/-- `withFetchWord` puts the instruction where the next step takes it: `SHORT(10)`, and `ENC_INIT`. -/
theorem test_withFetchWord :
    (stateOf (step (State.reset.withFetchWord 8 0xAC))).dec.lvalue = 10 ∧
    (stateOf (step (State.reset.withFetchWord 8 0x10))).enc.resp = some (okResponse 0 0) := by decide

/-! ### The encoder: the vectors of 95_test_vectors.md 2.2, 2.3, 2.6 to 2.9 and the source's examples -/

/-- S1. -/
theorem test_addInt8 : wrote (.addInt8 0xFFFFFFFFFFFFFF88) = [0x00, 0x88] := by decide

/-- R155; bits above 7 ignored. -/
theorem test_addUint8 : wrote (.addUint8 0x1C8) = [0x01, 0xC8] := by decide

/-- R156. -/
theorem test_addInt16 : wrote (.addInt16 0xFFFFFFFFFFFFFFFE) = [0x02, 0xFE, 0xFF] := by decide

/-- R157. -/
theorem test_addUint16 : wrote (.addUint16 0xBEEF) = [0x03, 0xEF, 0xBE] := by decide

/-- R158. -/
theorem test_addInt32 : wrote (.addInt32 0xFFFFFFFFFFFE1DC0) = [0x04, 0xC0, 0x1D, 0xFE, 0xFF] := by decide

/-- R159. -/
theorem test_addUint32 : wrote (.addUint32 0xDEADBEEF) = [0x05, 0xEF, 0xBE, 0xAD, 0xDE] := by decide

/-- R170. -/
theorem test_addInt64 : wrote (.addInt64 0x8000000000000000) = [0x06, 0x00, 0x00, 0x00, 0x00, 0x00, 0x00, 0x00, 0x80] := by decide

/-- R171. -/
theorem test_addUint64 : wrote (.addUint64 0x0123456789ABCDEF) = [0x07, 0xEF, 0xCD, 0xAB, 0x89, 0x67, 0x45, 0x23, 0x01] := by decide

/-- R172. -/
theorem test_addFloat32 : wrote (.addFloat32 0x3F800000) = [0x0A, 0x00, 0x00, 0x80, 0x3F] := by decide

/-- R173. -/
theorem test_addFloat64 : wrote (.addFloat64 0xC004000000000000) = [0x0B, 0x00, 0x00, 0x00, 0x00, 0x00, 0x00, 0x04, 0xC0] := by decide

/-- R136. -/
theorem test_addUleb128 : wrote (.addUleb128 300) = [0x08, 0xAC, 0x02] := by decide

/-- R137. -/
theorem test_addSleb128 : wrote (.addSleb128 0xFFFFFFFFFFFFFF88) = [0x09, 0x88, 0x7F] := by decide

/-- 2.7; low 8 bits are 5. -/
theorem test_addShort : wrote (.addShort 0x105) = [0x5C] := by decide

/-- 2.2: `2^64 - 1` takes ten bytes. -/
theorem test_addUleb128_max :
    wrote (.addUleb128 0xFFFFFFFFFFFFFFFF) =
      [0x08, 0xFF, 0xFF, 0xFF, 0xFF, 0xFF, 0xFF, 0xFF, 0xFF, 0xFF, 0x01] := by decide

/-- 2.3: `-2^63` takes ten bytes, the last `7F`. -/
theorem test_addSleb128_min :
    wrote (.addSleb128 0x8000000000000000) =
      [0x09, 0x80, 0x80, 0x80, 0x80, 0x80, 0x80, 0x80, 0x80, 0x80, 0x7F] := by decide

/-- 2.7: `ADD_SHORT 16` with capacity 0 is `InvalidArgument`, not `CapacityExceeded` (D37). -/
theorem test_addShort_argument_first :
    encAnswer (.addShort 16) (encoder 0 []) = some (Response.faultOf .invalidArgument) := by decide

/-- 2.8: `ADD_VECTOR 15` writes `FD 0F`, answers (2, 15) and moves to 17. -/
theorem test_addVector_large :
    wrote (.addVector 15) = [0xFD, 0x0F] ∧ encAnswer (.addVector 15) (encoder 17 []) = some (okResponse 2 15) ∧
    (stateOf (exec (.addVector 15) (encoder 17 []))).enc.wpos = 17 := by decide

/-- 2.8: a length of `2^64 - 1` does not wrap. -/
theorem test_addVector_no_wrap :
    encAnswer (.addVector 0xFFFFFFFFFFFFFFFF) (encoder 16 []) = some (Response.faultOf .capacityExceeded) := by decide

/-- S5, and R210's exact fit. -/
theorem test_addEof : (stateOf (exec .addEof (encoder 4 [1, 2, 3]))).enc.wbuf = [(0, 1), (1, 2), (2, 3), (3, 0x0F)] ∧
    (stateOf (exec .addEof (encoder 4 [1, 2, 3]))).enc.wpos = 4 := by decide

/-- P4: a field that does not fit writes nothing. -/
theorem test_addUint8_full :
    (stateOf (exec (.addUint8 200) (encoder 4 [0x03, 0xEF, 0xBE]))).enc =
      { (encoder 4 [0x03, 0xEF, 0xBE]).enc with
        efault := true, ecause := .capacityExceeded, resp := some (Response.faultOf .capacityExceeded) } := by decide

/-- 2.10: the reserved code, in the Fault state too (R297). -/
theorem test_reserved0E : encAnswer .reserved0E faulted = some Response.refusal := by decide

/-- P2, line 9: construction leaves the Fault state. -/
theorem test_encInit :
    (stateOf (exec (.encInit 27) faulted)).enc = { Enc.reset with wcap := 27, resp := some (okResponse 0 0) } := by decide

/-- 2.10: a capacity the unit does not have; the older cause is overwritten (R298). -/
theorem test_encInit_too_large :
    encAnswer (.encInit 0x100000000) faulted = some (Response.faultOf .invalidArgument) ∧
    (stateOf (exec (.encInit 0x100000000) faulted)).enc.ecause = .invalidArgument := by decide

/-- R226: the output starts again, the buffer stays. -/
theorem test_encReset :
    (stateOf (exec .encReset spanned)).enc =
      { Enc.reset with wcap := 3, wbuf := [(0, 0x2D)], resp := some (okResponse 0 0) } := by decide

/-- R226: not in the Fault state. -/
theorem test_encReset_faulted : encAnswer .encReset faulted = some (Response.faultOf .capacityExceeded) := by decide

/-- S3: the second byte of "hi". -/
theorem test_encFill : (stateOf (exec (.encFill 1 0x169) spanned)).enc.wbuf = [(0, 0x2D), (2, 0x69)] := by decide

/-- R192: `ENC_FILL 2` is outside a span of length 2. -/
theorem test_encFill_outside : encAnswer (.encFill 2 0) spanned = some Response.refusal := by decide

/-- R227: after `ADD_SHORT 10`, byte 0 is `AC` and byte 1 is not output. -/
theorem test_encRead :
    encAnswer (.encRead 0) (encoder 8 [0xAC]) = some (okResponse 0xAC 0) ∧
    encAnswer (.encRead 1) (encoder 8 [0xAC]) = some Response.refusal := by decide

/-! ### The decoder: the vectors of 95_test_vectors.md 2.4 to 2.9 and P1 to P3 -/

/-- 2.6; metadata 1 ignored. -/
theorem test_int8 : triple (.int8 1) (source [0x10, 0x88]) = (0, 0xFFFFFFFFFFFFFF88, 1, .inbuf, 1, 2) := by decide

/-- R161. -/
theorem test_uint8 : triple (.uint8 0) (source [0x01, 0xC8]) = (1, 0xC8, 1, .inbuf, 1, 2) := by decide

/-- R162. -/
theorem test_int16 : triple (.int16 0) (source [0x02, 0xFE, 0xFF]) = (2, 0xFFFFFFFFFFFFFFFE, 2, .inbuf, 1, 3) := by decide

/-- R163. -/
theorem test_uint16 : triple (.uint16 0) (source [0x03, 0xEF, 0xBE]) = (3, 0xBEEF, 2, .inbuf, 1, 3) := by decide

/-- 2.6; metadata 15 ignored. -/
theorem test_int32 : triple (.int32 15) (source [0xF4, 0x01, 0x02, 0x03, 0x04]) = (4, 0x04030201, 4, .inbuf, 1, 5) := by decide

/-- R165. -/
theorem test_uint32 : triple (.uint32 0) (source [0x05, 0xEF, 0xBE, 0xAD, 0xDE]) = (5, 0xDEADBEEF, 4, .inbuf, 1, 5) := by decide

/-- R166. -/
theorem test_int64 : triple (.int64 0) (source [0x06, 0x00, 0x00, 0x00, 0x00, 0x00, 0x00, 0x00, 0x80]) = (6, 0x8000000000000000, 8, .inbuf, 1, 9) := by decide

/-- R167. -/
theorem test_uint64 : triple (.uint64 0) (source [0x07, 0xEF, 0xCD, 0xAB, 0x89, 0x67, 0x45, 0x23, 0x01]) = (7, 0x0123456789ABCDEF, 8, .inbuf, 1, 9) := by decide

/-- 2.6, a NaN pattern bit for bit. -/
theorem test_float32 : triple (.float32 0) (source [0x0A, 0x00, 0x00, 0xC0, 0x7F]) = (10, 0x7FC00000, 4, .inbuf, 1, 5) := by decide

/-- R169. -/
theorem test_float64 : triple (.float64 0) (source [0x0B, 0x00, 0x00, 0x00, 0x00, 0x00, 0x00, 0x04, 0xC0]) = (11, 0xC004000000000000, 8, .inbuf, 1, 9) := by decide

/-- 2.4. -/
theorem test_uleb128 : triple (.uleb128 0) (source [0x08, 0xE5, 0x8E, 0x26]) = (8, 624485, 8, .temp, 0, 4) := by decide

/-- 2.5. -/
theorem test_sleb128 : triple (.sleb128 0) (source [0x09, 0xC0, 0xBB, 0x78]) = (9, 0xFFFFFFFFFFFE1DC0, 8, .temp, 0, 4) := by decide

/-- 2.7. -/
theorem test_short : triple (.short 10) (source [0xAC]) = (12, 10, 1, .inbuf, 0, 1) := by decide

/-- 2.8. -/
theorem test_vector : triple (.vector 2) (source [0x2D, 0x68, 0x69]) = (13, 1, 2, .inbuf, 1, 3) := by decide

/-- 2.8, a length prefix that is not minimal. -/
theorem test_vectorLarge : triple .vectorLarge (source [0xFD, 0x82, 0x00, 0x68, 0x69]) = (13, 3, 2, .inbuf, 3, 5) := by decide

/-- 2.9, metadata 15 ignored. -/
theorem test_eof : triple (.eof 15) (source [0xFF, 0x00]) = (15, 0, 0, .null, 0, 1) := by decide

/-- 2.4: the excess bits of a tenth byte are dropped. -/
theorem test_uleb128_tenth_byte :
    triple (.uleb128 0) (source [0x08, 0xFF, 0xFF, 0xFF, 0xFF, 0xFF, 0xFF, 0xFF, 0xFF, 0xFF, 0x02]) =
      (8, 0x7FFFFFFFFFFFFFFF, 8, .temp, 0, 11) := by decide

/-- 2.5: with ten bytes there is no sign extension; bit 6 of the tenth is dropped. -/
theorem test_sleb128_tenth_byte :
    triple (.sleb128 0) (source [0x09, 0x80, 0x80, 0x80, 0x80, 0x80, 0x80, 0x80, 0x80, 0x80, 0x40]) = (9, 0, 8, .temp, 0, 11) := by decide

/-- 2.6: three payload bytes where four are needed. -/
theorem test_int32_truncated : ending (.int32 0) (source [0x04, 0x01, 0x02, 0x03]) = (.aborted, .truncated, 0) := by decide

/-- 2.8: `Overflow` of the prefix comes before anything about the payload. -/
theorem test_vectorLarge_overflow :
    ending .vectorLarge (source [0xFD, 0x80, 0x80, 0x80, 0x80, 0x80, 0x80, 0x80, 0x80, 0x80, 0x80]) = (.aborted, .overflow, 0) := by decide

/-- 2.9. -/
theorem test_reserved14 : ending (.reserved14 1) (source [0x1E, 0x0F]) = (.aborted, .unknownType, 0) := by decide

/-- R255: the example window. -/
theorem test_decAttach :
    (stateOf (exec (.decAttach 0x1000 7) aborted)).dec =
      { Dec.reset with
        rmode := .borrowed, rbuf := [(0, 0x0E)], rbase := 0x1000, rsize := 7, resp := some (okResponse 0 0) } := by decide

/-- R255: a window past the top of the host address space. -/
theorem test_decAttach_past_the_top :
    decAnswer (.decAttach 0xFFFFFFFFFFFFFFFF 2) State.reset = some (Response.faultOf .invalidArgument) := by decide

/-- P3, line 6: the buffer is kept. -/
theorem test_decAlloc :
    (stateOf (exec (.decAlloc 4) aborted)).dec =
      { Dec.reset with rbuf := [(0, 0x0E)], rsize := 4, resp := some (okResponse 0 0) } := by decide

/-- 2.10: a size the unit does not have. -/
theorem test_decAlloc_too_large : ending (.decAlloc 0x100000000) State.reset = (.aborted, .invalidArgument, 0) := by decide

/-- R257. -/
theorem test_decLoad : (stateOf (exec (.decLoad 1 0xAC) (source [0, 0]))).dec.rbuf = [(0, 0), (1, 0xAC)] := by decide

/-- 2.10: not once decoding has begun. -/
theorem test_decLoad_late : decAnswer (.decLoad 0 0xAC) (sourceAt 1 [0xAC, 0x0F]) = some Response.refusal := by decide

/-- R258: the buffer stays, the cursor goes to the start. -/
theorem test_decReset :
    (stateOf (exec .decReset (sourceAt 1 [0xAC, 0x0F]))).dec =
      { (source [0xAC, 0x0F]).dec with resp := some (okResponse 0 0) } := by decide

/-- P3, line 4: not in `Aborted`. -/
theorem test_decReset_aborted : decAnswer .decReset aborted = some (Response.faultOf .unknownType) := by decide

/-- R260, its example: source `00 88 0F`. -/
theorem test_decNext :
    decAnswer .decNext (source [0x00, 0x88, 0x0F]) = some (okResponse 0 1) ∧
    triple .decNext (source [0x00, 0x88, 0x0F]) = (0, 0xFFFFFFFFFFFFFF88, 1, .inbuf, 1, 2) := by decide

/-- P3, line 2: the last good field stays where a bad one stands. -/
theorem test_decNext_fault :
    triple .decNext (sourceAt 1 [0xAC, 0x04, 0x01, 0x02]) = (12, 0, 1, .inbuf, 0, 1) := by decide

/-- R271, its example: `AC 2D 68 69`, no explicit EOF; here in a borrowed window. -/
theorem test_decRun :
    decAnswer .decRun (window 0x1000 [0xAC, 0x2D, 0x68, 0x69]) = some (okResponse 2 0) ∧
    (stateOf (exec .decRun (window 0x1000 [0xAC, 0x2D, 0x68, 0x69]))).dec.events =
      [⟨12, .inbuf, 0, 10, 1⟩, ⟨13, .inbuf, 2, 2, 2⟩, ⟨15, .null, 0, 0, 0⟩] := by decide

/-- P3, push: the event of the good field stays emitted, none for the bad one. -/
theorem test_decRun_fault :
    (stateOf (exec .decRun (source [0xAC, 0x0E, 0x0F]))).dec.events = [⟨12, .inbuf, 0, 10, 1⟩] ∧
    ending .decRun (source [0xAC, 0x0E, 0x0F]) = (.aborted, .unknownType, 1) := by decide

/-- R259. -/
theorem test_decRead :
    decAnswer (.decRead 2) (source [0x2D, 0x68, 0x69]) = some (okResponse 0x69 0) ∧
    decAnswer (.decRead 3) (source [0x2D, 0x68, 0x69]) = some Response.refusal := by decide

/-! ### One witness for the hypotheses of each statement, clause by clause, at the edge of its range -/

/-- `s` with one action on the port. -/
def facing (a : HostAction) (s : State) : State := s.withPort [a]

theorem witness_ResetGivesTheTableValues :
    (StatusReg.ltype, 15) ∈
      [(StatusReg.wcap, 0), (.wpos, 0), (.efault, 0), (.ecause, 0), (.vvalid, 0), (.vbase, 0), (.vlen, 0),
       (.rmode, 0), (.rbase, 0), (.rsize, 0), (.rpos, 0), (.dstate, 0), (.dcause, 0), (.ltype, 15), (.lvalue, 0),
       (.lsize, 0), (.lrefk, 0), (.loff, 0)] := by decide

theorem witness_FreshUnitsAreUsable :
    Instr.addShort ((0xFF : Word) % 16) ∈
      [Instr.addInt8 0xFF, .addUint8 0xFF, .addInt16 0xFF, .addUint16 0xFF, .addInt32 0xFF, .addUint32 0xFF,
       .addInt64 0xFF, .addUint64 0xFF, .addUleb128 0xFF, .addSleb128 0xFF, .addFloat32 0xFF, .addFloat64 0xFF,
       .addShort ((0xFF : Word) % 16), .addVector 0xFF, .addEof] := by decide

theorem witness_HardwareResetStepResets : (facing .hardwareReset faulted).port = .hardwareReset :: [] := rfl

/-- The invariant holds in the middle of an encoder's work, with a command on the port. -/
theorem witness_StepKeepsInv :
    MachineInv (facing (.command .enc { op := 0x12, arg0 := 1, arg1 := 0x69 }) spanned) ∧
    ∃ t, step (facing (.command .enc { op := 0x12, arg0 := 1, arg1 := 0x69 }) spanned) = .next t :=
  ⟨by constructor <;> decide, _, rfl⟩

theorem witness_StepRunsTheDecodedInstruction :
    (∃ i, decode (.command .dec { op := 0x26, arg0 := 5, arg1 := 0 }) = .ok i) ∧
    Live (facing (.command .dec { op := 0x24, arg0 := 0, arg1 := 0 }) (sourceAt 1 [0xAC, 0x0F])) ∧
    (sourceAt 1 [0xAC, 0x0F]).dec.rpos < (sourceAt 1 [0xAC, 0x0F]).dec.rsize :=
  ⟨⟨_, rfl⟩, .inr rfl, by decide⟩

theorem witness_UnlistedCodesAreRefused :
    (facing (.command .enc { op := 0x14, arg0 := 0, arg1 := 0 }) faulted).port =
      .command .enc { op := 0x14, arg0 := 0, arg1 := 0 } :: [] ∧
    ((0x0E : BitVec 8).toNat = 0x0E ∨ 0x13 < (0x0E : BitVec 8).toNat) ∧
    ((0x14 : BitVec 8).toNat = 0x0E ∨ 0x13 < (0x14 : BitVec 8).toNat) ∧
    ((0x1F : BitVec 8).toNat < 0x20 ∨ 0x26 < (0x1F : BitVec 8).toNat) ∧
    ((0x27 : BitVec 8).toNat < 0x20 ∨ 0x26 < (0x27 : BitVec 8).toNat) := ⟨rfl, by decide⟩

theorem witness_StepTakesHostActions :
    State.reset.port = [] ∧ 2 ^ 64 - 1 < 2 ^ State.reset.cfg.haw ∧ 2 ^ State.reset.cfg.haw ≤ 2 ^ 64 ∧
    (facing (.writeHost (2 ^ 64 - 1) 7) State.reset).port = .writeHost (2 ^ 64 - 1) 7 :: [] := ⟨rfl, by decide, by decide, rfl⟩

theorem witness_DecodeAfterEncode : (Instr.vector 14).wellFormed = true ∧ Instr.vectorLarge.wellFormed = true := by decide

theorem witness_EncodeAfterDecode :
    decode (.command .enc { op := 0x11, arg0 := 3, arg1 := 4 }) = .ok .encReset ∧
    decode (.command .dec { op := 0x22, arg0 := 3, arg1 := 4 }) = .ok (.decLoad 3 4) := by decide

theorem witness_PackAndUnpackAreInverse : (15 < 16 ∧ pack 15 15 = .ok 0xFF) ∧ pack 0 0 = .ok 0x00 := by decide

/-- The longest spellings of both codecs, ending with the source. -/
theorem witness_LebRoundTrips :
    SourceHolds (source (0x08 :: ulebBytes 0xFFFFFFFFFFFFFFFF)) 1 (ulebBytes 0xFFFFFFFFFFFFFFFF) ∧
    SourceHolds (source (0x09 :: slebBytes 0x8000000000000000)) 1 (slebBytes 0x8000000000000000) :=
  ⟨sourceHolds_of (by decide) (by decide), sourceHolds_of (by decide) (by decide)⟩

theorem witness_UlebIsMinimal : ∃ r, decUleb (source [0x80, 0x00]) 0 = .ok r := ⟨_, rfl⟩

theorem witness_SlebIsMinimal : ∃ v p, decSleb (source [0xFF, 0x7F]) 0 = .ok (v, p) := ⟨_, _, rfl⟩

/-- One byte, and ten bytes with excess bits in the tenth. -/
theorem witness_UlebDecoderFollowsItsBytes :
    LebAt (source [0x7F]) 0 1 0x7F ∧
    LebAt (source [0xFF, 0xFF, 0xFF, 0xFF, 0xFF, 0xFF, 0xFF, 0xFF, 0xFF, 0x02]) 0 10 0x7FFFFFFFFFFFFFFF ∧
    LebOverflows (source [0x80, 0x80, 0x80, 0x80, 0x80, 0x80, 0x80, 0x80, 0x80, 0x80]) 0 ∧
    LebTruncated (source []) 0 ∧
    LebTruncated (source [0x80, 0x80, 0x80, 0x80, 0x80, 0x80, 0x80, 0x80, 0x80]) 0 := by
  refine ⟨⟨by decide, by decide, by decide, by omega, by decide, by decide⟩,
    ⟨by decide, by decide, by decide, fun k hk => ?_, by decide, by decide⟩, by unfold LebOverflows; decide,
    ⟨0, by decide, by decide, by omega⟩, ⟨9, by decide, by decide, by decide⟩⟩
  have hk' : k < 9 := by omega
  interval_cases k <;> decide

/-- The Fault state; a field that ends exactly at the capacity; one byte short of that. -/
theorem witness_FixedWidthFieldsAreAdded :
    faulted.enc.efault = true ∧
    ((encoder 9 []).enc.efault = false ∧ (encoder 9 []).enc.wpos + 9 ≤ (encoder 9 []).enc.wcap) ∧
    ((encoder 8 []).enc.efault = false ∧ (encoder 8 []).enc.wcap < (encoder 8 []).enc.wpos + 9) := by decide

theorem witness_LebFieldsAreAdded :
    faulted.enc.efault = true ∧
    (encoder 11 []).enc.wpos + (0x08 :: ulebBytes 0xFFFFFFFFFFFFFFFF).length ≤ (encoder 11 []).enc.wcap ∧
    (encoder 10 []).enc.wcap < (encoder 10 []).enc.wpos + (0x09 :: slebBytes 0x8000000000000000).length := by decide

theorem witness_ShortFieldsAreAdded :
    (0x10F : Word).toNat % 256 ≤ 15 ∧ 15 < (16 : Word).toNat % 256 ∧ faulted.enc.efault = true ∧
    (encoder 1 []).enc.wpos + 1 ≤ (encoder 1 []).enc.wcap ∧ (encoder 0 []).enc.wcap < (encoder 0 []).enc.wpos + 1 := by
  decide

/-- Lengths 14 and 15, with the field exactly fitting and one byte short. -/
theorem witness_VectorSpansAreReserved :
    ([0xED#8] = if (14 : Word).toNat < 15 then [BitVec.ofNat 8 (13 + 16 * (14 : Word).toNat)] else 0xFD#8 :: ulebBytes 14) ∧
    ([0xFD#8, 0x0F] = if (15 : Word).toNat < 15 then [BitVec.ofNat 8 (13 + 16 * (15 : Word).toNat)] else 0xFD#8 :: ulebBytes 15) ∧
    (encoder 15 []).enc.wpos + [0xED#8].length + (14 : Word).toNat ≤ (encoder 15 []).enc.wcap ∧
    (encoder 16 []).enc.wcap < (encoder 16 []).enc.wpos + [0xFD#8, 0x0F].length + (15 : Word).toNat ∧
    faulted.enc.efault = true := by decide

theorem witness_EofFieldsAreAdded :
    faulted.enc.efault = true ∧ (encoder 4 [1, 2, 3]).enc.wpos + 1 ≤ (encoder 4 [1, 2, 3]).enc.wcap ∧
    (encoder 3 [1, 2, 3]).enc.wcap < (encoder 3 [1, 2, 3]).enc.wpos + 1 := by decide

theorem witness_EncInitConstructs :
    (0xFFFFFFFF : Word).toNat ≤ faulted.cfg.wbufMax ∧ faulted.cfg.wbufMax < (0x100000000 : Word).toNat := by decide

theorem witness_EncResetRestarts : faulted.enc.efault = true ∧ spanned.enc.efault = false := by decide

theorem witness_EncFillWritesTheSpan :
    faulted.enc.efault = true ∧
    (spanned.enc.efault = false ∧ spanned.enc.vvalid = true ∧ (1 : Word).toNat < spanned.enc.vlen) ∧
    (spanned.enc.vvalid = false ∨ spanned.enc.vlen ≤ (2 : Word).toNat) ∧
    ((encoder 1 []).enc.efault = false ∧ (encoder 1 []).enc.vvalid = false) := by decide

theorem witness_EncReadAnswersOutput :
    faulted.enc.efault = true ∧ spanned.enc.efault = false ∧ spanned.enc.wpos ≤ (3 : Word).toNat ∧
    (2 : Word).toNat < spanned.enc.wpos := by decide

/-- A fill that changes a byte of the output: the one the last clause is about. -/
theorem witness_EncoderIsMonotone :
    ∃ t, exec (.encFill 1 9) (spanned.withEnc { spanned.enc with wbuf := [(2, 8)] }) = .next t ∧
      2 < spanned.enc.wpos ∧ wbufByte t 2 ≠ wbufByte (spanned.withEnc { spanned.enc with wbuf := [(2, 8)] }) 2 :=
  ⟨_, rfl, by decide, by decide⟩

theorem witness_EncoderWritesInsideCapacity :
    MachineInv spanned ∧ (∃ t, exec (.encFill 1 9) spanned = .next t) ∧ spanned.enc.wcap ≤ 3 :=
  ⟨by constructor <;> decide, ⟨_, rfl⟩, by decide⟩

theorem witness_DecAttachConstructs :
    ((0xFFFFFFFF : Word).toNat ≤ 2 ^ aborted.cfg.aw - 1 ∧
      (0xFFFFFFFF00000001 : Word).toNat + (0xFFFFFFFF : Word).toNat ≤ 2 ^ aborted.cfg.haw) ∧
    2 ^ aborted.cfg.aw - 1 < (0x100000000 : Word).toNat ∧
    2 ^ aborted.cfg.haw < (0xFFFFFFFF00000002 : Word).toNat + (0xFFFFFFFF : Word).toNat := by decide

theorem witness_DecAllocConstructs :
    (0xFFFFFFFF : Word).toNat ≤ aborted.cfg.rbufMax ∧ aborted.cfg.rbufMax < (0x100000000 : Word).toNat := by decide

theorem witness_DecLoadFillsTheBuffer :
    aborted.dec.dstate = .aborted ∧
    ((window 0 [1]).dec.dstate ≠ .aborted ∧ (window 0 [1]).dec.rmode ≠ .owned) ∧
    ((sourceAt 1 [1]).dec.dstate ≠ .aborted ∧ (sourceAt 1 [1]).dec.dstate ≠ .ready) ∧
    ((source [1]).dec.dstate ≠ .aborted ∧ (source [1]).dec.rsize ≤ (1 : Word).toNat) ∧
    ((source [1]).dec.rmode = .owned ∧ (source [1]).dec.dstate = .ready ∧ (0 : Word).toNat < (source [1]).dec.rsize) := by
  decide

theorem witness_DecResetRestarts : aborted.dec.dstate = .aborted ∧ ended.dec.dstate ≠ .aborted := by decide

theorem witness_DecReadAnswersSource :
    aborted.dec.dstate = .aborted ∧ ended.dec.dstate ≠ .aborted ∧ ended.dec.rsize ≤ (1 : Word).toNat ∧
    (0 : Word).toNat < ended.dec.rsize := by decide

theorem witness_NextRunsTheFieldUnderTheCursor :
    Live (sourceAt 1 [0xAC, 0x0F]) ∧ (sourceAt 1 [0xAC, 0x0F]).dec.rpos < (sourceAt 1 [0xAC, 0x0F]).dec.rsize :=
  ⟨.inr rfl, by decide⟩

/-- Eight payload bytes to the end of the source, and seven. -/
theorem witness_FixedWidthFieldsAreDelivered :
    Live (source [6, 1, 2, 3, 4, 5, 6, 7, 8]) ∧ 0 < (source [6, 1, 2, 3, 4, 5, 6, 7, 8]).dec.rsize ∧
    0 + 1 + 8 ≤ (source [6, 1, 2, 3, 4, 5, 6, 7, 8]).dec.rsize ∧
    (source [6, 1, 2, 3, 4, 5, 6, 7]).dec.rsize < 0 + 1 + 8 := ⟨.inl rfl, by decide⟩

theorem witness_LebFieldsAreDelivered :
    Live (source [0x09, 0x40]) ∧ (source [0x09, 0x40]).dec.rpos < (source [0x09, 0x40]).dec.rsize ∧
    LebAt (source [0x09, 0x40]) ((source [0x09, 0x40]).dec.rpos + 1) 1 0x40 ∧
    SignExtends (source [0x09, 0x40]) ((source [0x09, 0x40]).dec.rpos + 1) 1 0x40 0xFFFFFFFFFFFFFFC0 ∧
    (Live (source [0x08, 0x80, 0x80, 0x80, 0x80, 0x80, 0x80, 0x80, 0x80, 0x80, 0x80]) ∧
      LebOverflows (source [0x08, 0x80, 0x80, 0x80, 0x80, 0x80, 0x80, 0x80, 0x80, 0x80, 0x80]) 1) ∧
    (Live (source [0x08]) ∧ 0 < (source [0x08]).dec.rsize ∧ LebTruncated (source [0x08]) 1) ∧
    LebTruncated (source [0x08, 0x80, 0x80, 0x80, 0x80, 0x80, 0x80, 0x80, 0x80, 0x80]) 1 := by
  refine ⟨.inl rfl, by decide, ⟨by decide, by decide, by decide, by omega, by decide, by decide⟩, ?_,
    ⟨.inl rfl, by unfold LebOverflows; decide⟩, ⟨.inl rfl, by decide, 0, by decide, by decide, by omega⟩,
    9, by decide, by decide, by decide⟩
  unfold SignExtends
  decide

theorem witness_ShortFieldsAreDelivered : Live (source [0xAC]) ∧ (source [0xAC]).dec.rpos < (source [0xAC]).dec.rsize :=
  ⟨.inl rfl, by decide⟩

/-- The literal length that just fits and one that does not; a LEB128 length that just fits and one that does not. -/
theorem witness_VectorFieldsAreDelivered :
    Live (source [0x2D, 1, 2]) ∧ 0 + 1 + (2 : Nibble).toNat ≤ (source [0x2D, 1, 2]).dec.rsize ∧
    (source [0x2D, 1]).dec.rsize < 0 + 1 + (2 : Nibble).toNat ∧
    LebAt (source [0xFD, 0x01, 7]) 1 1 1 ∧ 0 + 1 + 1 + (1 : Word).toNat ≤ (source [0xFD, 0x01, 7]).dec.rsize ∧
    LebAt (source [0xFD, 0x01]) 1 1 1 ∧ (source [0xFD, 0x01]).dec.rsize < 0 + 1 + 1 + (1 : Word).toNat ∧
    LebOverflows (source [0xFD, 0x80, 0x80, 0x80, 0x80, 0x80, 0x80, 0x80, 0x80, 0x80, 0x80]) 1 ∧
    LebTruncated (source [0xFD]) 1 :=
  ⟨.inl rfl, by decide, by decide, ⟨by decide, by decide, by decide, by omega, by decide, by decide⟩, by decide,
    ⟨by decide, by decide, by decide, by omega, by decide, by decide⟩, by decide, by unfold LebOverflows; decide,
    0, by decide, by decide, by omega⟩

theorem witness_EofFieldsEndThePass :
    Live (source [0xFF, 0xAC]) ∧ (source [0xFF, 0xAC]).dec.rpos < (source [0xFF, 0xAC]).dec.rsize ∧
    stateOf (exec (.eof 15) (source [0xFF, 0xAC])) = (source [0xFF, 0xAC]).withDec (delivered
      { ltype := 15, lvalue := 0, lsize := 0, lrefk := .null, loff := 0, rpos := 1 } .done (source [0xFF, 0xAC])) :=
  ⟨.inl rfl, by decide, by decide⟩

theorem witness_ReservedTypeAborts :
    (Live (sourceAt 1 [0xAC, 0x0E]) ∧ (sourceAt 1 [0xAC, 0x0E]).dec.rpos < (sourceAt 1 [0xAC, 0x0E]).dec.rsize) ∧
    ∃ t, exec .decRun (source [0xAC, 0xFE]) = .next t ∧ (source [0xAC, 0xFE]).dec.dstate ≠ .aborted ∧
      t.dec.dstate = .aborted ∧ t.dec.dcause = .unknownType :=
  ⟨⟨.inr rfl, by decide⟩, _, rfl, by decide, rfl, rfl⟩

theorem witness_ExhaustionIsImplicitEof :
    Live (sourceAt 1 [0xAC]) ∧ (sourceAt 1 [0xAC]).dec.rsize ≤ (sourceAt 1 [0xAC]).dec.rpos := ⟨.inr rfl, by decide⟩

theorem witness_DoneIsAbsorbing : ended.dec.dstate = .done := rfl

/-- Pulls that end in each of the three ways. -/
theorem witness_PullsAdvanceInsideTheSource :
    (Live (source [0xAC]) ∧ (source [0xAC]).dec.rpos < (source [0xAC]).dec.rsize ∧ (Instr.short 10).isPull = true) ∧
    (∃ t, exec (.short 10) (source [0xAC]) = .next t ∧ t.dec.dstate = .decoding) ∧
    (∃ t, exec .decNext (source [0x0F]) = .next t ∧ t.dec.dstate = .done) ∧
    ∃ t, exec .decNext (source [0x0E]) = .next t ∧ t.dec.dstate = .aborted :=
  ⟨⟨.inl rfl, by decide, rfl⟩, ⟨_, rfl, rfl⟩, ⟨_, rfl, rfl⟩, ⟨_, rfl, rfl⟩⟩

theorem witness_RunRepeatsNext :
    aborted.dec.dstate = .aborted ∧ (ended.dec.dstate = .done ∧ ended.dec.ltype = 15) ∧
    Live (source [0xAC, 0x0E]) ∧ (∃ t, exec .decNext (source [0xAC, 0x0E]) = .next t ∧ t.dec.dstate = .decoding) ∧
    (∃ t, exec .decNext (source []) = .next t ∧ t.dec.dstate = .done) ∧
    ∃ t, exec .decNext (source [0x0E]) = .next t ∧ t.dec.dstate = .aborted :=
  ⟨rfl, ⟨rfl, rfl⟩, .inl rfl, ⟨_, rfl, rfl⟩, ⟨_, rfl, rfl⟩, ⟨_, rfl, rfl⟩⟩

theorem witness_FaultStatesAreSticky :
    faulted.enc.efault = true ∧ aborted.dec.dstate = .aborted ∧
    (Instr.encRead 0).isEnc = true ∧ (Instr.encRead 0).isConstructor = false ∧
    Instr.decRun.isEnc = false ∧ Instr.decRun.isConstructor = false ∧
    decode (.command .dec { op := 0x27, arg0 := 0, arg1 := 0 }) = .error (.unassignedCode 0x27) := by decide

theorem witness_FaultsArePrecise :
    (∃ t, exec (.addShort 16) spanned = .next t ∧ spanned.enc.efault = false ∧ t.enc.efault = true) ∧
    (∃ t, exec (.int32 0) (sourceAt 1 [0xAC, 0x04]) = .next t ∧ (sourceAt 1 [0xAC, 0x04]).dec.dstate ≠ .aborted ∧
      t.dec.dstate = .aborted ∧ (Instr.int32 0).isPull = true) ∧
    ∃ t, exec (.decAlloc 0x100000000) ended = .next t ∧ ended.dec.dstate ≠ .aborted ∧ t.dec.dstate = .aborted ∧
      (Instr.decAlloc 0x100000000).isPull = false :=
  ⟨⟨_, rfl, rfl, rfl⟩, ⟨_, rfl, by decide, rfl, rfl⟩, ⟨_, rfl, by decide, rfl, rfl⟩⟩

theorem witness_FaultLinesFallOnlyByConstructors :
    (∃ t, exec (.encInit 0) faulted = .next t ∧ encFaultLine faulted = true ∧ encFaultLine t = false) ∧
    ∃ t, exec (.decAlloc 1) aborted = .next t ∧ decFaultLine aborted = true ∧ decFaultLine t = false :=
  ⟨⟨_, rfl, rfl, rfl⟩, ⟨_, rfl, rfl, rfl⟩⟩

theorem witness_DecoderFollowsItsStateMachine :
    (∃ t, exec .decReset ended = .next t) ∧ ended.dec.dstate ≠ .aborted ∧ ended.dec.dstate = .done ∧
    (∃ t, exec .decRun ended = .next t) ∧ (∃ t, exec .decReset aborted = .next t) ∧ aborted.dec.dstate = .aborted ∧
    (∃ t, exec .decNext (source [0xAC]) = .next t) ∧ Live (source [0xAC]) :=
  ⟨⟨_, rfl⟩, by decide, rfl, ⟨_, rfl⟩, ⟨_, rfl⟩, rfl, ⟨_, rfl⟩, .inl rfl⟩

/-- Two states that differ in all the other unit holds. -/
theorem witness_UnitsShareNothing :
    (∃ t, exec (.encRead 0) spanned = .next t) ∧ (Instr.encRead 0).isEnc = true ∧
    (spanned.withDec aborted.dec).enc = spanned.enc ∧ (spanned.withDec aborted.dec).cfg = spanned.cfg ∧
    (∃ t, exec .decNext ended = .next t) ∧ (ended.withEnc faulted.enc).dec = ended.dec ∧
    (ended.withEnc faulted.enc).hmem = ended.hmem := ⟨⟨_, rfl⟩, rfl, rfl, rfl, ⟨_, rfl⟩, rfl, rfl⟩

/-- A source with a secret behind its end. -/
theorem witness_DecoderReadsOnlyItsSource :
    Instr.decRun.isPull = true ∧ (∃ t, exec .decRun (source [0xAC]) = .next t) ∧
    ∀ j, j < (source [0xAC]).dec.rsize →
      src { source [0xAC] with hmem := [(0, 1)], dec := { (source [0xAC]).dec with rbuf := [(0, 0xAC), (1, 0x0E)] } } j =
        src (source [0xAC]) j := ⟨rfl, ⟨_, rfl⟩, by decide⟩

/-- A stream of three fields with exactly the room they need. -/
theorem witness_EncoderOutputIsTheStream :
    ((encoder 6 [0x0F]).withPort (streamCommands [.short 10, .vector [0x68, 0x69], .eof])).enc.efault = false ∧
    (∀ f ∈ [Field.short 10, .vector [0x68, 0x69], .eof], Field.valid f = true) ∧
    (encoder 6 [0x0F]).enc.wpos + (streamBytes [.short 10, .vector [0x68, 0x69], .eof]).length ≤ (encoder 6 [0x0F]).enc.wcap := by
  decide

theorem witness_RunDeliversTheStream :
    Live (source [0xAC, 0x1D, 0x68, 0x0F]) ∧ Field.eof ∉ [Field.short 10, .vector [0x68]] ∧
    (∀ f ∈ [Field.short 10, .vector [0x68]], Field.valid f = true) ∧
    SourceHolds (source [0xAC, 0x1D, 0x68, 0x0F]) 0 (streamBytes [.short 10, .vector [0x68]] ++ [0x0F]) ∧
    (SourceHolds (source [0xAC, 0x1D, 0x68]) 0 (streamBytes [.short 10, .vector [0x68]]) ∧
      0 + (streamBytes [.short 10, .vector [0x68]]).length = (source [0xAC, 0x1D, 0x68]).dec.rsize) :=
  ⟨.inl rfl, by decide, by decide, sourceHolds_of (by decide) (by decide),
    sourceHolds_of (by decide) (by decide), by decide⟩

theorem witness_StreamsRoundTrip :
    ∃ t, core.run 2 ((encoder 2 []).withPort (streamCommands [.short 10, .eof])) = .next t ∧
      (streamBytes [.short 10, .eof]).length ≤ (encoder 2 []).enc.wcap ∧
      (∀ f ∈ [Field.short 10, .eof], Field.valid f = true) ∧
      Live (source [0xAC, 0x0F]) ∧ (source [0xAC, 0x0F]).dec.rpos = 0 ∧ (source [0xAC, 0x0F]).dec.rsize = t.enc.wpos ∧
      ∀ i, i < t.enc.wpos → src (source [0xAC, 0x0F]) i = wbufByte t i :=
  ⟨_, rfl, by decide, by decide, .inl rfl, rfl, rfl, by decide⟩

end Sys2Proof.Tests
end

section
/-! ### The step and the dispatcher: what a record on the port and a header under the cursor run (R15, R260, R261) -/

namespace Sys2Proof.Machine

/-- A step of the dispatcher asks its arm about the header at the cursor only. -/
theorem fieldStep_congr {arm arm' : Arm} {s : State} (h : arm s s.dec.rpos = arm' s s.dec.rpos) :
    fieldStep arm s = fieldStep arm' s := by
  simp only [fieldStep, h]

theorem nextField_congr {arm arm' : Arm} {s : State} (h : arm s s.dec.rpos = arm' s s.dec.rpos) :
    nextField arm s = nextField arm' s := by
  simp only [nextField, fieldStep_congr h]

theorem readByte_of_lt {s : State} {p : Nat} (h : p < s.dec.rsize) : readByte s p = .ok (src s p) :=
  if_neg (Nat.not_le.2 h)

theorem armAt_of_lt {s : State} {p : Nat} (h : p < s.dec.rsize) : armAt s p = armOf (src s p) s p := by
  simp only [armAt, readByte_of_lt h]

/-- The type table and the dispatch table agree: the wire row of a header runs the header's arm (R92, R261). -/
theorem exec_decodeHeader (b : Byte) (s : State) : exec (decodeHeader b) s = nextField (armOf b) s := by
  simp only [decodeHeader, armOf]
  generalize (unpack b).2 = m
  match (unpack b).1.toNat with
  | 0 | 1 | 2 | 3 | 4 | 5 | 6 | 7 | 8 | 9 | 10 | 11 | 12 | 14 => rfl
  | 13 =>
    by_cases hm : m = 15#4
    · simp only [hm, if_true]
      rfl
    · simp only [hm, if_false]
      rfl
  | _ + 15 => rfl

/-- `DEC_NEXT` on a header inside the source is the wire row of that header (R260). -/
theorem exec_decNext_of_lt {s : State} (h : s.dec.rpos < s.dec.rsize) :
    exec .decNext s = exec (decodeHeader (src s s.dec.rpos)) s :=
  calc exec .decNext s
    _ = nextField armAt s := rfl
    _ = nextField (armOf (src s s.dec.rpos)) s := nextField_congr (armAt_of_lt h)
    _ = exec (decodeHeader (src s s.dec.rpos)) s := (exec_decodeHeader _ s).symm

theorem fetch_command {s : State} {u : UnitId} {c : CmdRecord} {rest : List HostAction} {i : Instr}
    (hp : s.port = .command u c :: rest) (hd : decode (.command u c) = .ok i) :
    fetch s = .run i (s.withPort rest) := by
  simp only [fetch, hp, hd]

theorem step_command {s : State} {u : UnitId} {c : CmdRecord} {rest : List HostAction} {i : Instr}
    (hp : s.port = .command u c :: rest) (hd : decode (.command u c) = .ok i) :
    step s = exec i (s.withPort rest) := by
  simp only [step, fetch_command hp hd]

@[simp] theorem src_withPort (s : State) (p : List HostAction) (i : Nat) : src (s.withPort p) i = src s i := rfl

/-- Settles O6: the record is fetched and decoded once, and `DEC_NEXT` is the row of the header it reads. -/
theorem stepRunsTheDecodedInstruction : Obligations.StepRunsTheDecodedInstruction := by
  refine ⟨fun s u c rest i hp hd => step_command hp hd, fun s a b rest hp _ hlt => ?_⟩
  calc step s
    _ = exec .decNext (s.withPort rest) := step_command hp rfl
    _ = exec (decodeHeader (src s s.dec.rpos)) (s.withPort rest) := exec_decNext_of_lt hlt

end Sys2Proof.Machine
end

section
/-! ### The units share nothing (R3, R62, R76)

For each unit: when two states agree on what the unit may see, and what it is to change nothing but that unit
and to do so alike at any two such states. The shared operations have the second property where their parts
depend on the first only, so each command has it by the form of its meaning. -/

namespace Sys2Proof.Machine

/-- All `ENC` may see is the same: its registers and `wbuf`, the parameters and the reset epoch. -/
structure AgreeOnEnc (s s' : State) : Prop where
  cfg : s'.cfg = s.cfg
  epoch : s'.epoch = s.epoch
  enc : s'.enc = s.enc

/-- All `DEC` may see is the same: its registers and `rbuf`, the parameters, the reset epoch, and host memory. -/
structure AgreeOnDec (s s' : State) : Prop where
  cfg : s'.cfg = s.cfg
  epoch : s'.epoch = s.epoch
  dec : s'.dec = s.dec
  hmem : s'.hmem = s.hmem

/-- `f` completes with a change of `ENC` alone, the same at any two states that agree on `ENC`. -/
def ActsOnEnc (f : State → Out) : Prop :=
  ∀ s s', AgreeOnEnc s s' → ∃ e, f s = .next (s.withEnc e) ∧ f s' = .next (s'.withEnc e)

/-- `f` completes with a change of `DEC` alone, the same at any two states that agree on `DEC`. -/
def ActsOnDec (f : State → Out) : Prop :=
  ∀ s s', AgreeOnDec s s' → ∃ d, f s = .next (s.withDec d) ∧ f s' = .next (s'.withDec d)

/-- What `f` answers depends only on what `ENC` may see. -/
def SeesEnc {α : Type} (f : State → α) : Prop := ∀ s s', AgreeOnEnc s s' → f s' = f s

/-- What `f` answers depends only on what `DEC` may see. -/
def SeesDec {α : Type} (f : State → α) : Prop := ∀ s s', AgreeOnDec s s' → f s' = f s

/-- What an arm answers depends only on what `DEC` may see. -/
def Arm.SeesDec (arm : Arm) : Prop := ∀ p, Machine.SeesDec fun s => arm s p

theorem AgreeOnEnc.refl (s : State) : AgreeOnEnc s s := ⟨rfl, rfl, rfl⟩

theorem AgreeOnDec.refl (s : State) : AgreeOnDec s s := ⟨rfl, rfl, rfl, rfl⟩

theorem AgreeOnDec.withDec {s s' : State} (h : AgreeOnDec s s') (d : Dec) : AgreeOnDec (s.withDec d) (s'.withDec d) :=
  ⟨h.cfg, h.epoch, rfl, h.hmem⟩

/-! #### Ends of a command, as a change of one unit -/

theorem answerEnc_eq_withEnc (r : Response) (s : State) : answerEnc r s = s.withEnc { s.enc with resp := some r } := rfl

theorem takeFault_enc_eq_withEnc (evs : List Event) (c : Cause) (s : State) :
    takeFault .enc evs c s = s.withEnc { s.enc with efault := true, ecause := c, resp := some (.faultOf c) } := rfl

theorem answerDec_eq_withDec (evs : List Event) (r : Response) (s : State) :
    answerDec evs r s = s.withDec { s.dec with resp := some r, events := evs } := rfl

theorem takeFault_dec_eq_withDec (evs : List Event) (c : Cause) (s : State) :
    takeFault .dec evs c s =
      s.withDec { s.dec with dstate := .aborted, dcause := c, resp := some (.faultOf c), events := evs } := rfl

theorem runEnd_eq_withDec (n : Nat) (evs : List Event) (s : State) :
    runEnd n evs s =
      s.withDec { s.dec with resp := some (.okWith (BitVec.ofNat 64 n) 0), events := evs ++ [terminalEvent] } := rfl

@[simp] theorem State.withEnc_withEnc (s : State) (e e' : Enc) : (s.withEnc e).withEnc e' = s.withEnc e' := rfl

@[simp] theorem State.withDec_withDec (s : State) (d d' : Dec) : (s.withDec d).withDec d' = s.withDec d' := rfl

/-! #### The encoder -/

theorem wbufByte_seesEnc (i : Nat) : SeesEnc fun s => wbufByte s i := fun s s' h => by
  simp only [wbufByte, h.enc, h.epoch]

theorem encCommand_actsOnEnc {body : State → Except Cause (Enc × Reply)} (hb : SeesEnc body) :
    ActsOnEnc (encCommand body) := by
  intro s s' h
  simp only [encCommand, hb s s' h, answerEnc_eq_withEnc, State.withEnc_withEnc, takeFault_enc_eq_withEnc, h.enc]
  split
  · exact ⟨_, rfl, rfl⟩
  · split <;> exact ⟨_, rfl, rfl⟩

theorem addFixed_seesEnc (k : FixedKind) (v : Word) : SeesEnc (addFixed k v) := fun s s' h => by
  simp only [addFixed, h.enc]

theorem addLeb_seesEnc (t : Nat) (bs : List Byte) : SeesEnc (addLeb t bs) := fun s s' h => by
  simp only [addLeb, h.enc]

theorem addShortBody_seesEnc (v : Word) : SeesEnc (addShortBody v) := fun s s' h => by
  simp only [addShortBody, h.enc]

theorem addVectorBody_seesEnc (n : Word) : SeesEnc (addVectorBody n) := fun s s' h => by
  simp only [addVectorBody, h.enc]

theorem addEofBody_seesEnc : SeesEnc addEofBody := fun s s' h => by
  simp only [addEofBody, h.enc]

theorem encFillBody_seesEnc (idx v : Word) : SeesEnc (encFillBody idx v) := fun s s' h => by
  simp only [encFillBody, h.enc]

theorem encResetBody_seesEnc : SeesEnc encResetBody := fun s s' h => by
  simp only [encResetBody, h.enc]

theorem encReadBody_seesEnc (off : Word) : SeesEnc (encReadBody off) := fun s s' h => by
  simp only [encReadBody, h.enc, wbufByte_seesEnc off.toNat s s' h]

theorem execReserved0E_actsOnEnc : ActsOnEnc execReserved0E := fun s s' h => by
  simp only [execReserved0E, refuse, answerEnc_eq_withEnc, h.enc]
  exact ⟨_, rfl, rfl⟩

theorem execEncInit_actsOnEnc (cap : Word) : ActsOnEnc (execEncInit cap) := by
  intro s s' h
  simp only [execEncInit, answerEnc_eq_withEnc, State.withEnc_withEnc, takeFault_enc_eq_withEnc, h.enc, h.cfg]
  split <;> exact ⟨_, rfl, rfl⟩

/-- R62: every `ENC` command changes `ENC` alone, and sees nothing else. -/
theorem exec_actsOnEnc (i : Instr) (hi : i.isEnc = true) : ActsOnEnc (exec i) := by
  cases i with
  | addInt8 v | addUint8 v | addInt16 v | addUint16 v | addInt32 v | addUint32 v | addInt64 v | addUint64 v
  | addFloat32 v | addFloat64 v => exact encCommand_actsOnEnc (addFixed_seesEnc _ v)
  | addUleb128 v | addSleb128 v => exact encCommand_actsOnEnc (addLeb_seesEnc _ _)
  | addShort v => exact encCommand_actsOnEnc (addShortBody_seesEnc v)
  | addVector n => exact encCommand_actsOnEnc (addVectorBody_seesEnc n)
  | reserved0E => exact execReserved0E_actsOnEnc
  | addEof => exact encCommand_actsOnEnc addEofBody_seesEnc
  | encInit cap => exact execEncInit_actsOnEnc cap
  | encReset => exact encCommand_actsOnEnc encResetBody_seesEnc
  | encFill idx v => exact encCommand_actsOnEnc (encFillBody_seesEnc idx v)
  | encRead off => exact encCommand_actsOnEnc (encReadBody_seesEnc off)
  | _ => cases hi

/-! #### The decoder: reading the source -/

theorem src_seesDec (i : Nat) : SeesDec fun s => src s i := fun s s' h => by
  simp only [src, rbufByte, hostByte, h.dec, h.epoch, h.hmem]

theorem readByte_seesDec (p : Nat) : SeesDec fun s => readByte s p := fun s s' h => by
  simp only [readByte, h.dec, src_seesDec p s s' h]

theorem readBytes_seesDec (p n : Nat) : SeesDec fun s => readBytes s p n := fun s s' h => by
  have hsrc : src s' = src s := funext fun i => src_seesDec i s s' h
  simp only [readBytes, h.dec, hsrc]

theorem ulebLoop_seesDec (fuel p : Nat) (v : Word) (sh : Nat) : SeesDec fun s => ulebLoop s fuel p v sh := by
  intro s s' h
  induction fuel generalizing p v sh with
  | zero => rfl
  | succ fuel ih =>
    have hb : readByte s' p = readByte s p := readByte_seesDec p s s' h
    simp only at ih
    simp only [ulebLoop, hb, ih]

theorem decUleb_seesDec (p : Nat) : SeesDec fun s => decUleb s p := ulebLoop_seesDec 11 p 0 0

theorem decSleb_seesDec (p : Nat) : SeesDec fun s => decSleb s p := fun s s' h => by
  have hu : decUleb s' p = decUleb s p := decUleb_seesDec p s s' h
  simp only [decSleb, hu]

theorem commitView_seesDec (n p : Nat) : SeesDec (commitView n p) := fun s s' h => by
  simp only [commitView, h.dec]

/-! #### The decoder: the arms and the dispatcher -/

theorem armFixed_seesDec (k : FixedKind) : Arm.SeesDec (armFixed k) := fun p s s' h => by
  have hb : readBytes s' (p + 1) k.width = readBytes s (p + 1) k.width := readBytes_seesDec _ _ s s' h
  simp only [armFixed, hb]

theorem armUleb128_seesDec (m : Nibble) : Arm.SeesDec (armUleb128 m) := fun p s s' h => by
  have hu : decUleb s' (p + 1) = decUleb s (p + 1) := decUleb_seesDec _ s s' h
  simp only [armUleb128, hu]

theorem armSleb128_seesDec (m : Nibble) : Arm.SeesDec (armSleb128 m) := fun p s s' h => by
  have hu : decSleb s' (p + 1) = decSleb s (p + 1) := decSleb_seesDec _ s s' h
  simp only [armSleb128, hu]

theorem armShort_seesDec (m : Nibble) : Arm.SeesDec (armShort m) := fun _ _ _ _ => rfl

theorem armVector_seesDec (m : Nibble) : Arm.SeesDec (armVector m) := fun p => commitView_seesDec m.toNat (p + 1)

theorem armVectorLarge_seesDec : Arm.SeesDec armVectorLarge := fun p s s' h => by
  have hu : decUleb s' (p + 1) = decUleb s (p + 1) := decUleb_seesDec _ s s' h
  simp only [armVectorLarge, hu]
  split
  · rfl
  · exact commitView_seesDec _ _ s s' h

theorem armReserved14_seesDec (m : Nibble) : Arm.SeesDec (armReserved14 m) := fun _ _ _ _ => rfl

theorem armEof_seesDec (m : Nibble) : Arm.SeesDec (armEof m) := fun _ _ _ _ => rfl

theorem armOf_seesDec (b : Byte) : Arm.SeesDec (armOf b) := by
  simp only [armOf]
  generalize (unpack b).2 = m
  match (unpack b).1.toNat with
  | 0 | 1 | 2 | 3 | 4 | 5 | 6 | 7 | 10 | 11 => exact armFixed_seesDec _
  | 8 => exact armUleb128_seesDec m
  | 9 => exact armSleb128_seesDec m
  | 12 => exact armShort_seesDec m
  | 13 =>
    by_cases hm : m = 15#4
    · simp only [hm, if_true]
      exact armVectorLarge_seesDec
    · simp only [hm, if_false]
      exact armVector_seesDec m
  | 14 => exact armReserved14_seesDec m
  | _ + 15 => exact armEof_seesDec m

theorem armAt_seesDec : Arm.SeesDec armAt := fun p s s' h => by
  have hb : readByte s' p = readByte s p := readByte_seesDec p s s' h
  simp only [armAt, hb]
  split
  · rfl
  · exact armOf_seesDec _ p s s' h

theorem fieldStep_seesDec {arm : Arm} (ha : arm.SeesDec) : SeesDec (fieldStep arm) := fun s s' h => by
  have hc : arm s' s.dec.rpos = arm s s.dec.rpos := ha _ s s' h
  simp only [fieldStep, h.dec, hc]

theorem nextField_actsOnDec {arm : Arm} (ha : arm.SeesDec) : ActsOnDec (nextField arm) := by
  intro s s' h
  simp only [nextField, fieldStep_seesDec ha s s' h, h.dec, answerDec_eq_withDec, State.withDec_withDec,
    takeFault_dec_eq_withDec]
  cases s.dec.dstate with
  | aborted | done => exact ⟨_, rfl, rfl⟩
  | ready | decoding => cases fieldStep arm s <;> exact ⟨_, rfl, rfl⟩

/-- Every turn of `DEC_RUN` starts from states that agree on `DEC`, so the whole run does the same. -/
theorem runLoop_actsOnDec (fuel n : Nat) (evs : List Event) {s s' : State} (h : AgreeOnDec s s') :
    ∃ d, runLoop fuel n evs s = s.withDec d ∧ runLoop fuel n evs s' = s'.withDec d := by
  induction fuel generalizing n evs s s' with
  | zero =>
    simp only [runLoop, runEnd_eq_withDec, h.dec]
    exact ⟨_, rfl, rfl⟩
  | succ fuel ih =>
    simp only [runLoop, fieldStep_seesDec armAt_seesDec s s' h, h.dec, runEnd_eq_withDec, takeFault_dec_eq_withDec]
    split
    · exact ⟨_, rfl, rfl⟩
    · cases fieldStep armAt s with
      | error c => exact ⟨_, rfl, rfl⟩
      | ok d =>
        simp only
        split
        · exact ⟨_, rfl, rfl⟩
        · obtain ⟨d', hs, hs'⟩ := ih (n + 1) (evs ++ [eventOf d]) (h.withDec d)
          exact ⟨d', by simpa using hs, by simpa using hs'⟩

/-! #### The decoder: its commands -/

theorem decCommand_actsOnDec {body : State → Dec × Reply} (hb : SeesDec body) : ActsOnDec (decCommand body) := by
  intro s s' h
  simp only [decCommand, hb s s' h, answerDec_eq_withDec, State.withDec_withDec, h.dec]
  split <;> exact ⟨_, rfl, rfl⟩

theorem decLoadBody_seesDec (idx v : Word) : SeesDec (decLoadBody idx v) := fun s s' h => by
  simp only [decLoadBody, h.dec]

theorem decResetBody_seesDec : SeesDec decResetBody := fun s s' h => by
  simp only [decResetBody, h.dec]

theorem decReadBody_seesDec (off : Word) : SeesDec (decReadBody off) := fun s s' h => by
  simp only [decReadBody, h.dec, src_seesDec off.toNat s s' h]

theorem execDecAttach_actsOnDec (base size : Word) : ActsOnDec (execDecAttach base size) := by
  intro s s' h
  simp only [execDecAttach, answerDec_eq_withDec, State.withDec_withDec, takeFault_dec_eq_withDec, h.dec, h.cfg]
  split <;> exact ⟨_, rfl, rfl⟩

theorem execDecAlloc_actsOnDec (size : Word) : ActsOnDec (execDecAlloc size) := by
  intro s s' h
  simp only [execDecAlloc, answerDec_eq_withDec, State.withDec_withDec, takeFault_dec_eq_withDec, h.dec, h.cfg]
  split <;> exact ⟨_, rfl, rfl⟩

theorem execDecRun_actsOnDec : ActsOnDec execDecRun := by
  intro s s' h
  simp only [execDecRun, answerDec_eq_withDec, h.dec]
  split
  · exact ⟨_, rfl, rfl⟩
  · obtain ⟨d, hs, hs'⟩ := runLoop_actsOnDec (s.dec.rsize - s.dec.rpos + 1) 0 [] h
    exact ⟨d, congrArg _ hs, congrArg _ hs'⟩

/-- R62: every `DEC` command and every wire row changes `DEC` alone, and sees nothing but `DEC` and host memory. -/
theorem exec_actsOnDec (i : Instr) (hi : i.isEnc = false) : ActsOnDec (exec i) := by
  cases i with
  | int8 m | uint8 m | int16 m | uint16 m | int32 m | uint32 m | int64 m | uint64 m | float32 m | float64 m =>
    exact nextField_actsOnDec (armFixed_seesDec _)
  | uleb128 m => exact nextField_actsOnDec (armUleb128_seesDec m)
  | sleb128 m => exact nextField_actsOnDec (armSleb128_seesDec m)
  | short m => exact nextField_actsOnDec (armShort_seesDec m)
  | vector m => exact nextField_actsOnDec (armVector_seesDec m)
  | vectorLarge => exact nextField_actsOnDec armVectorLarge_seesDec
  | reserved14 m => exact nextField_actsOnDec (armReserved14_seesDec m)
  | eof m => exact nextField_actsOnDec (armEof_seesDec m)
  | decAttach base size => exact execDecAttach_actsOnDec base size
  | decAlloc size => exact execDecAlloc_actsOnDec size
  | decLoad idx v => exact decCommand_actsOnDec (decLoadBody_seesDec idx v)
  | decReset => exact decCommand_actsOnDec decResetBody_seesDec
  | decNext => exact nextField_actsOnDec armAt_seesDec
  | decRun => exact execDecRun_actsOnDec
  | decRead off => exact decCommand_actsOnDec (decReadBody_seesDec off)
  | _ => cases hi

/-! #### From the pairs of runs to the frame and the noninterference of one run -/

theorem ActsOnEnc.frame {f : State → Out} (hf : ActsOnEnc f) {s t : State} (ht : f s = .next t) :
    t = s.withEnc t.enc := by
  obtain ⟨e, hs, -⟩ := hf s s (.refl s)
  obtain rfl : t = s.withEnc e := by simpa [ht] using hs
  rfl

theorem ActsOnEnc.same {f : State → Out} (hf : ActsOnEnc f) {s s' t : State} (ht : f s = .next t)
    (h : AgreeOnEnc s s') : f s' = .next (s'.withEnc t.enc) := by
  obtain ⟨e, hs, hs'⟩ := hf s s' h
  obtain rfl : t = s.withEnc e := by simpa [ht] using hs
  exact hs'

theorem ActsOnDec.frame {f : State → Out} (hf : ActsOnDec f) {s t : State} (ht : f s = .next t) :
    t = s.withDec t.dec := by
  obtain ⟨d, hs, -⟩ := hf s s (.refl s)
  obtain rfl : t = s.withDec d := by simpa [ht] using hs
  rfl

theorem ActsOnDec.same {f : State → Out} (hf : ActsOnDec f) {s s' t : State} (ht : f s = .next t)
    (h : AgreeOnDec s s') : f s' = .next (s'.withDec t.dec) := by
  obtain ⟨d, hs, hs'⟩ := hf s s' h
  obtain rfl : t = s.withDec d := by simpa [ht] using hs
  exact hs'

/-- Settles O50: each unit's instructions act on that unit alone and see nothing of the other. -/
theorem unitsShareNothing : Obligations.UnitsShareNothing := by
  refine fun i s t ht => ⟨fun hi => (exec_actsOnEnc i hi).frame ht, fun hi => (exec_actsOnDec i hi).frame ht,
    fun s' hcfg hepoch => ⟨fun hi henc => ?_, fun hi hdec hhmem => ?_⟩⟩
  · exact (exec_actsOnEnc i hi).same ht ⟨hcfg, hepoch, henc⟩
  · exact (exec_actsOnDec i hi).same ht ⟨hcfg, hepoch, hdec, hhmem⟩

end Sys2Proof.Machine
end

section
/-! ### The invariant of R49, kept by every step

`MachineInv` falls into one part for each unit, which speaks of that unit and the parameters only. A command acts
on one unit, so it is enough that each command keeps the part of its unit. -/

namespace Sys2Proof.Machine

/-! #### The parts of the invariant -/

/-- The clauses of `MachineInv` about `ENC`. -/
structure EncInv (cfg : Config) (e : Enc) : Prop where
  wpos_le_wcap : e.wpos ≤ e.wcap
  wcap_le_max : e.wcap ≤ cfg.wbufMax
  span_ends_at_wpos : e.vvalid = true → e.vbase + e.vlen = e.wpos
  efault_iff_cause : e.efault = true ↔ e.ecause ≠ .noFault
  wbuf_wf : Memory.wf e.wbuf
  wbuf_below : Memory.below e.wbuf cfg.wbufMax

/-- The clauses of `MachineInv` about `DEC`. -/
structure DecInv (cfg : Config) (d : Dec) : Prop where
  rpos_le_rsize : d.rpos ≤ d.rsize
  rsize_fits : d.rsize ≤ 2 ^ cfg.aw - 1
  owned_fits : d.rmode = .owned → d.rsize ≤ cfg.rbufMax
  window_fits : d.rmode = .borrowed → d.rbase + d.rsize ≤ 2 ^ cfg.haw
  aborted_iff_cause : d.dstate = .aborted ↔ d.dcause ≠ .noFault
  ltype_not_reserved : d.ltype ≠ 14
  view_inside : d.lrefk = .inbuf → d.loff + d.lsize ≤ d.rsize
  no_view_no_offset : d.lrefk ≠ .inbuf → d.loff = 0
  ready_at_start : d.dstate = .ready → d.rpos = 0
  done_shows_eof : d.dstate = .done → d.ltype = 15 ∧ d.lvalue = 0 ∧ d.lsize = 0 ∧ d.lrefk = .null ∧ d.loff = 0
  rbuf_wf : Memory.wf d.rbuf
  rbuf_below : Memory.below d.rbuf cfg.rbufMax

theorem MachineInv.encInv {s : State} (h : MachineInv s) : EncInv s.cfg s.enc := { h with }

theorem MachineInv.decInv {s : State} (h : MachineInv s) : DecInv s.cfg s.dec := { h with }

theorem MachineInv.withEnc {s : State} {e : Enc} (h : MachineInv s) (he : EncInv s.cfg e) :
    MachineInv (s.withEnc e) := { he, h with }

theorem MachineInv.withDec {s : State} {d : Dec} (h : MachineInv s) (hd : DecInv s.cfg d) :
    MachineInv (s.withDec d) := { hd, h with }

theorem MachineInv.withPort {s : State} (h : MachineInv s) (p : List HostAction) : MachineInv (s.withPort p) :=
  { h with }

/-- A host write inside the address space keeps the invariant. -/
theorem MachineInv.withHmem_write {s : State} {addr : Nat} (h : MachineInv s) (b : Byte)
    (ha : addr < 2 ^ s.cfg.haw) : MachineInv (s.withHmem (Memory.write s.hmem addr b)) :=
  { h with
    hmem_wf := Memory.write_wf addr b h.hmem_wf
    hmem_below := Memory.write_below b ha h.hmem_below }

/-! #### Reset -/

/-- The reset values of `ENC` fit every choice of the parameters. -/
theorem EncInv.reset (cfg : Config) : EncInv cfg Enc.reset where
  wpos_le_wcap := Nat.zero_le _
  wcap_le_max := Nat.zero_le _
  span_ends_at_wpos := by simp [Enc.reset]
  efault_iff_cause := by simp [Enc.reset]
  wbuf_wf := List.Pairwise.nil
  wbuf_below := by simp [Memory.below, Enc.reset]

/-- The reset values of `DEC` fit every choice of the parameters. -/
theorem DecInv.reset (cfg : Config) : DecInv cfg Dec.reset where
  rpos_le_rsize := Nat.zero_le _
  rsize_fits := Nat.zero_le _
  owned_fits _ := Nat.zero_le _
  window_fits := by simp [Dec.reset]
  aborted_iff_cause := by simp [Dec.reset]
  ltype_not_reserved := by simp [Dec.reset]
  view_inside := by simp [Dec.reset]
  no_view_no_offset _ := rfl
  ready_at_start _ := rfl
  done_shows_eof := by simp [Dec.reset]
  rbuf_wf := List.Pairwise.nil
  rbuf_below := by simp [Memory.below, Dec.reset]

theorem MachineInv.hardwareReset {s : State} (h : MachineInv s) : MachineInv (hardwareReset s) :=
  { EncInv.reset s.cfg, DecInv.reset s.cfg, h with }

/-- Settles O4: the units are at their reset values, the chosen parameters are valid, host memory lists nothing. -/
theorem invHoldsAtReset : Obligations.InvHoldsAtReset :=
  { EncInv.reset Config.chosen, DecInv.reset Config.chosen with
    cfg_valid := by decide
    hmem_wf := List.Pairwise.nil
    hmem_below := by simp [Memory.below, State.reset] }

/-! #### The encoder: ends of a command -/

theorem EncInv.withResp {cfg : Config} {e : Enc} (h : EncInv cfg e) (r : Option Response) :
    EncInv cfg { e with resp := r } := { h with }

theorem EncInv.raise {cfg : Config} {e : Enc} {c : Cause} (h : EncInv cfg e) (hc : c ≠ .noFault) :
    EncInv cfg { e with efault := true, ecause := c } :=
  { h with efault_iff_cause := ⟨fun _ => hc, fun _ => rfl⟩ }

theorem EncInv.construct {cfg : Config} {e : Enc} {cap : Nat} (h : EncInv cfg e) (hcap : cap ≤ cfg.wbufMax) :
    EncInv cfg (e.construct cap) :=
  { h with
    wpos_le_wcap := Nat.zero_le _
    wcap_le_max := hcap
    span_ends_at_wpos := by simp
    efault_iff_cause := by simp }

/-- The bytes `bs` at the cursor and `tail` more fit the capacity; a span made valid ends at the new cursor. -/
theorem EncInv.emit {cfg : Config} {e : Enc} {bs : List Byte} {tail base len : Nat} {valid : Bool} (h : EncInv cfg e)
    (hfit : e.wpos + (bs.length + tail) ≤ e.wcap)
    (hspan : valid = true → base + len = e.wpos + (bs.length + tail)) :
    EncInv cfg { e with
      wbuf := Memory.writeList e.wbuf e.wpos bs, wpos := e.wpos + (bs.length + tail),
      vvalid := valid, vbase := base, vlen := len } :=
  have hmax := h.wcap_le_max
  { h with
    wpos_le_wcap := hfit
    span_ends_at_wpos := hspan
    wbuf_wf := Memory.writeList_wf bs e.wpos h.wbuf_wf
    wbuf_below := Memory.writeList_below bs (by omega) h.wbuf_below }

/-! #### The encoder: its commands -/

/-- The body of an `ENC` command raises a fault kind only, and leaves an encoder that has the invariant. -/
structure KeepsEncInv (body : State → Except Cause (Enc × Reply)) : Prop where
  raises : ∀ s c, body s = .error c → c ≠ .noFault
  leaves : ∀ s e r, EncInv s.cfg s.enc → body s = .ok (e, r) → EncInv s.cfg e

theorem encCommand_encInv {body : State → Except Cause (Enc × Reply)} (hb : KeepsEncInv body) {s t : State}
    (h : EncInv s.cfg s.enc) (ht : encCommand body s = .next t) : EncInv s.cfg t.enc := by
  rcases encCommand_cases ht with ⟨-, rfl⟩ | ⟨-, c, hc, rfl⟩ | ⟨-, e, r, he, rfl⟩
  · exact h.withResp _
  · exact (h.raise (hb.raises s c hc)).withResp _
  · exact (hb.leaves s e r h he).withResp _

/-- Inside its precondition `pack` gives the header byte (R120). -/
theorem pack_of_lt {t m : Nat} (ht : t < 16) (hm : m < 16) :
    pack t m = .ok (headerByte (BitVec.ofNat 4 t) (BitVec.ofNat 4 m)) := if_neg (by omega)

theorem FixedKind.tag_lt (k : FixedKind) : k.tag < 16 := by cases k <;> decide

theorem addFixed_eq (k : FixedKind) (v : Word) (s : State) :
    addFixed k v s = addBytes (headerByte (BitVec.ofNat 4 k.tag) 0 :: leBytes v k.width) s.enc := by
  simp only [addFixed, pack_of_lt k.tag_lt (show 0 < 16 by decide)]
  rfl

theorem addLeb_eq {t : Nat} (ht : t < 16) (bs : List Byte) (s : State) :
    addLeb t bs s = addBytes (headerByte (BitVec.ofNat 4 t) 0 :: bs) s.enc := by
  simp only [addLeb, pack_of_lt ht (show 0 < 16 by decide)]
  rfl

theorem addEofBody_eq (s : State) : addEofBody s = addBytes [headerByte 15 0] s.enc := rfl

/-- The argument check of `ADD_SHORT` is the precondition of `pack` (R180). -/
theorem addShortBody_eq (v : Word) (s : State) :
    addShortBody v s =
      if 15 < (lowByte v).toNat then .error .invalidArgument
      else addBytes [headerByte 12 (BitVec.ofNat 4 (lowByte v).toNat)] s.enc := by
  simp only [addShortBody]
  split
  · rfl
  · rw [pack_of_lt (show 12 < 16 by decide) (by omega)]
    rfl

/-- Both formats of a vector header pack (R190). -/
theorem vectorHeader_ok (n : Word) : ∃ hdr, vectorHeader n = .ok hdr := by
  simp only [vectorHeader]
  split
  · rw [pack_of_lt (show 13 < 16 by decide) (by omega)]
    exact ⟨_, rfl⟩
  · rw [pack_of_lt (show 13 < 16 by decide) (show 15 < 16 by decide)]
    exact ⟨_, rfl⟩

theorem addBytes_keepsEncInv (bs : List Byte) : KeepsEncInv fun s => addBytes bs s.enc where
  raises s c h := by
    obtain ⟨rfl, -⟩ := addBytes_error h
    simp
  leaves s e r hs h := by
    obtain ⟨hfit, -, rfl⟩ := addBytes_ok h
    exact hs.emit (tail := 0) hfit (by simp)

theorem addFixed_keepsEncInv (k : FixedKind) (v : Word) : KeepsEncInv (addFixed k v) :=
  funext (addFixed_eq k v) ▸ addBytes_keepsEncInv _

theorem addLeb_keepsEncInv {t : Nat} (ht : t < 16) (bs : List Byte) : KeepsEncInv (addLeb t bs) :=
  funext (addLeb_eq ht bs) ▸ addBytes_keepsEncInv _

theorem addEofBody_keepsEncInv : KeepsEncInv addEofBody :=
  funext addEofBody_eq ▸ addBytes_keepsEncInv _

theorem addShortBody_keepsEncInv (v : Word) : KeepsEncInv (addShortBody v) := by
  rw [funext (addShortBody_eq v)]
  split
  · exact ⟨by simp, by simp⟩
  · exact addBytes_keepsEncInv _

/-- Everything `ADD_VECTOR` outside the Fault state can do (R190). -/
theorem addVectorBody_cases (n : Word) (s : State) : ∃ hdr, vectorHeader n = .ok hdr ∧
    ((s.enc.wcap < s.enc.wpos + (hdr.length + n.toNat) ∧ addVectorBody n s = .error .capacityExceeded) ∨
     (s.enc.wpos + (hdr.length + n.toNat) ≤ s.enc.wcap ∧
      addVectorBody n s = .ok
        ({ s.enc with
            wbuf := Memory.writeList s.enc.wbuf s.enc.wpos hdr, wpos := s.enc.wpos + (hdr.length + n.toNat),
            vvalid := true, vbase := s.enc.wpos + hdr.length, vlen := n.toNat },
          .ok (BitVec.ofNat 64 (s.enc.wpos + hdr.length)) n))) := by
  obtain ⟨hdr, hh⟩ := vectorHeader_ok n
  refine ⟨hdr, hh, ?_⟩
  simp only [addVectorBody, hh]
  cases he : emitField hdr n.toNat s.enc with
  | error c =>
    obtain ⟨rfl, hlt⟩ := emitField_error he
    exact .inl ⟨hlt, rfl⟩
  | ok e =>
    obtain ⟨hle, rfl⟩ := emitField_ok he
    exact .inr ⟨hle, rfl⟩

theorem addVectorBody_keepsEncInv (n : Word) : KeepsEncInv (addVectorBody n) where
  raises s c h := by
    obtain ⟨hdr, -, ⟨-, hb⟩ | ⟨-, hb⟩⟩ := addVectorBody_cases n s <;> cases hb.symm.trans h
    simp
  leaves s e r hs h := by
    obtain ⟨hdr, -, ⟨-, hb⟩ | ⟨hfit, hb⟩⟩ := addVectorBody_cases n s <;> cases hb.symm.trans h
    exact hs.emit hfit fun _ => Nat.add_assoc ..

/-- A byte of a valid span lies below the cursor, so `ENC_FILL` writes inside the capacity (R192). -/
theorem encFillBody_keepsEncInv (idx v : Word) : KeepsEncInv (encFillBody idx v) where
  raises s c h := by
    unfold encFillBody at h
    split at h <;> cases h
  leaves s e r hs h := by
    unfold encFillBody at h
    split at h
    · cases h
      exact hs
    · rename_i hidx
      obtain ⟨hvalid, hlt⟩ : s.enc.vvalid = true ∧ idx.toNat < s.enc.vlen := by simpa using hidx
      have hspan := hs.span_ends_at_wpos hvalid
      have hpos := hs.wpos_le_wcap
      have hmax := hs.wcap_le_max
      cases h
      exact { hs with
        wbuf_wf := Memory.write_wf _ _ hs.wbuf_wf
        wbuf_below := Memory.write_below _ (by omega) hs.wbuf_below }

theorem encResetBody_keepsEncInv : KeepsEncInv encResetBody where
  raises s c h := by cases h
  leaves s e r hs h := by
    cases h
    exact { hs with wpos_le_wcap := Nat.zero_le _, span_ends_at_wpos := by simp }

theorem encReadBody_keepsEncInv (off : Word) : KeepsEncInv (encReadBody off) where
  raises s c h := by
    unfold encReadBody at h
    split at h <;> cases h
  leaves s e r hs h := by
    unfold encReadBody at h
    split at h <;> cases h <;> exact hs

theorem execEncInit_encInv {cap : Word} {s t : State} (h : EncInv s.cfg s.enc) (ht : execEncInit cap s = .next t) :
    EncInv s.cfg t.enc := by
  unfold execEncInit at ht
  split at ht <;> cases ht
  · exact (h.raise (by simp)).withResp _
  · exact (h.construct (by omega)).withResp _

/-- Every `ENC` command keeps the clauses about `ENC`. -/
theorem exec_encInv {i : Instr} (hi : i.isEnc = true) {s t : State} (h : EncInv s.cfg s.enc)
    (ht : exec i s = .next t) : EncInv s.cfg t.enc := by
  cases i with
  | addInt8 v | addUint8 v | addInt16 v | addUint16 v | addInt32 v | addUint32 v | addInt64 v | addUint64 v
  | addFloat32 v | addFloat64 v => exact encCommand_encInv (addFixed_keepsEncInv _ v) h ht
  | addUleb128 v | addSleb128 v => exact encCommand_encInv (addLeb_keepsEncInv (by decide) _) h ht
  | addShort v => exact encCommand_encInv (addShortBody_keepsEncInv v) h ht
  | addVector n => exact encCommand_encInv (addVectorBody_keepsEncInv n) h ht
  | reserved0E =>
    cases ht
    exact h.withResp _
  | addEof => exact encCommand_encInv addEofBody_keepsEncInv h ht
  | encInit cap => exact execEncInit_encInv h ht
  | encReset => exact encCommand_encInv encResetBody_keepsEncInv h ht
  | encFill idx v => exact encCommand_encInv (encFillBody_keepsEncInv idx v) h ht
  | encRead off => exact encCommand_encInv (encReadBody_keepsEncInv off) h ht
  | _ => cases hi

/-! #### The decoder: ends of a command -/

theorem DecInv.withOutputs {cfg : Config} {d : Dec} (h : DecInv cfg d) (r : Option Response) (evs : List Event) :
    DecInv cfg { d with resp := r, events := evs } := { h with }

theorem DecInv.raise {cfg : Config} {d : Dec} {c : Cause} (h : DecInv cfg d) (hc : c ≠ .noFault) :
    DecInv cfg { d with dstate := .aborted, dcause := c } :=
  { h with
    aborted_iff_cause := ⟨fun _ => hc, fun _ => rfl⟩
    ready_at_start := by simp
    done_shows_eof := by simp }

/-- Outside `Aborted` no cause is latched. -/
theorem DecInv.dcause_eq {cfg : Config} {d : Dec} (h : DecInv cfg d) (ha : d.dstate ≠ .aborted) :
    d.dcause = .noFault :=
  Decidable.not_not.1 (mt h.aborted_iff_cause.2 ha)

/-- The registers `rewind` writes have their reset values (R43), so the clauses about them hold as at reset. -/
theorem DecInv.rewind {cfg : Config} {d : Dec} (h : DecInv cfg d) (ha : d.dstate ≠ .aborted) :
    DecInv cfg d.rewind :=
  { h with
    rpos_le_rsize := Nat.zero_le _
    aborted_iff_cause := by simp [h.dcause_eq ha]
    ltype_not_reserved := by simp
    view_inside := by simp
    no_view_no_offset := fun _ => rfl
    ready_at_start := fun _ => rfl
    done_shows_eof := by simp }

/-- A new decoder has the invariant when its source fits; of the old one only `rbuf` is kept. -/
theorem DecInv.construct {cfg : Config} {d : Dec} {mode : RMode} {base size : Nat} (h : DecInv cfg d)
    (hsize : size ≤ 2 ^ cfg.aw - 1) (howned : mode = .owned → size ≤ cfg.rbufMax)
    (hwindow : mode = .borrowed → base + size ≤ 2 ^ cfg.haw) : DecInv cfg (d.construct mode base size) :=
  { DecInv.reset cfg with
    rpos_le_rsize := Nat.zero_le _
    rsize_fits := hsize
    owned_fits := howned
    window_fits := hwindow
    view_inside := by simp
    rbuf_wf := h.rbuf_wf
    rbuf_below := h.rbuf_below }

/-! #### The decoder: steps of the dispatcher -/

/-- The arms of the dispatcher raise fault kinds only (R261). -/
theorem GoodArm.ne_noFault {arm : Arm} (ha : GoodArm arm) {s : State} {p : Nat} {c : Cause}
    (h : arm s p = .error c) : c ≠ .noFault := by
  rcases ha.raises s p c h with rfl | rfl | rfl <;> simp

/-- The EOF that R262 finds at the end of the source. -/
theorem DecInv.commitEof {cfg : Config} {d : Dec} (h : DecInv cfg d) (ha : d.dstate ≠ .aborted) :
    DecInv cfg { d.commit (eofCommit d.rpos) with dstate := .done } :=
  { h with
    aborted_iff_cause := by simp [h.dcause_eq ha]
    ltype_not_reserved := by simp [eofCommit]
    view_inside := by simp [eofCommit]
    no_view_no_offset := fun _ => rfl
    ready_at_start := by simp
    done_shows_eof := fun _ => ⟨rfl, rfl, rfl, rfl, rfl⟩ }

/-- A field of type 15 ends in `Done` and is an EOF, any other ends in `Decoding` (R268). -/
theorem GoodCommit.ends {p n : Nat} {c : Commit} (hc : GoodCommit p n c) {st : DState}
    (hst : st = if c.ltype = 15#4 then .done else .decoding) :
    (st = .done ∧ c = eofCommit (p + 1)) ∨ st = .decoding := by
  split at hst
  · rename_i heof
    exact .inl ⟨hst, hc.eof heof⟩
  · exact .inr hst

/-- The commit of a field inside the source. -/
theorem DecInv.commit {cfg : Config} {d : Dec} {p : Nat} {c : Commit} {st : DState} (h : DecInv cfg d)
    (ha : d.dstate ≠ .aborted) (hc : GoodCommit p d.rsize c)
    (hst : (st = .done ∧ c = eofCommit (p + 1)) ∨ st = .decoding) :
    DecInv cfg { d.commit c with dstate := st } :=
  { h with
    rpos_le_rsize := hc.inside
    aborted_iff_cause := by rcases hst with ⟨rfl, -⟩ | rfl <;> simp [h.dcause_eq ha]
    ltype_not_reserved := hc.type_ok
    view_inside := hc.view
    no_view_no_offset := hc.no_view
    ready_at_start := by rcases hst with ⟨rfl, -⟩ | rfl <;> simp
    done_shows_eof := by rcases hst with ⟨rfl, rfl⟩ | rfl <;> simp [eofCommit] }

/-- One step of the dispatcher that does not raise. -/
theorem fieldStep_decInv {arm : Arm} (hgood : GoodArm arm) {s : State} {d : Dec} (h : DecInv s.cfg s.dec)
    (ha : s.dec.dstate ≠ .aborted) (hd : fieldStep arm s = .ok d) : DecInv s.cfg d ∧ d.dstate ≠ .aborted := by
  rcases fieldStep_ok hd with ⟨-, rfl⟩ | ⟨hp, c, hc, rfl⟩
  · exact ⟨h.commitEof ha, by simp⟩
  · have hcommit := hgood.commits s _ c hp hc
    have hends := hcommit.ends rfl
    exact ⟨h.commit ha hcommit hends, by rcases hends with ⟨hst, -⟩ | hst <;> simp [hst]⟩

theorem nextField_decInv {arm : Arm} (hgood : GoodArm arm) {s t : State} (h : DecInv s.cfg s.dec)
    (ht : nextField arm s = .next t) : DecInv s.cfg t.dec := by
  rcases nextField_cases ht with ⟨-, rfl⟩ | ⟨-, rfl⟩ | ⟨-, c, hc, rfl⟩ | ⟨hlive, d, hd, rfl⟩
  · exact h.withOutputs _ _
  · exact h.withOutputs _ _
  · exact (h.raise (hgood.ne_noFault (fieldStep_error hc).2)).withOutputs _ _
  · have ha : s.dec.dstate ≠ .aborted := by rcases hlive with hl | hl <;> simp [hl]
    exact (fieldStep_decInv hgood h ha hd).1.withOutputs _ _

/-- Every turn of `DEC_RUN` starts outside `Aborted`, from a decoder that has the invariant. -/
theorem runLoop_decInv (fuel n : Nat) (evs : List Event) {s : State} (h : DecInv s.cfg s.dec)
    (ha : s.dec.dstate ≠ .aborted) : DecInv s.cfg (runLoop fuel n evs s).dec := by
  induction fuel generalizing n evs s with
  | zero => exact h.withOutputs _ _
  | succ fuel ih =>
    simp only [runLoop]
    split
    · exact h.withOutputs _ _
    · cases hd : fieldStep armAt s with
      | error c => exact (h.raise (armAt_good.ne_noFault (fieldStep_error hd).2)).withOutputs _ _
      | ok d =>
        obtain ⟨hinv, hna⟩ := fieldStep_decInv armAt_good h ha hd
        simp only
        split
        · exact hinv.withOutputs _ _
        · exact ih (n + 1) (evs ++ [eventOf d]) (s := s.withDec d) hinv hna

/-! #### The decoder: its commands -/

/-- The body of a `DEC` command, run outside `Aborted`, leaves a decoder that has the invariant. -/
def KeepsDecInv (body : State → Dec × Reply) : Prop :=
  ∀ s, DecInv s.cfg s.dec → s.dec.dstate ≠ .aborted → DecInv s.cfg (body s).1

theorem decCommand_decInv {body : State → Dec × Reply} (hb : KeepsDecInv body) {s t : State}
    (h : DecInv s.cfg s.dec) (ht : decCommand body s = .next t) : DecInv s.cfg t.dec := by
  rcases decCommand_cases ht with ⟨-, rfl⟩ | ⟨ha, rfl⟩
  · exact h.withOutputs _ _
  · exact (hb s h ha).withOutputs _ _

/-- `DEC_LOAD` writes below `rsize` of an owned source, so inside the physical buffer (R257). -/
theorem decLoadBody_keepsDecInv (idx v : Word) : KeepsDecInv (decLoadBody idx v) := by
  intro s h _
  unfold decLoadBody
  split
  · exact h
  · rename_i hidx
    obtain ⟨howned, -, hlt⟩ : s.dec.rmode = .owned ∧ s.dec.dstate = .ready ∧ idx.toNat < s.dec.rsize := by
      simpa using hidx
    have hmax := h.owned_fits howned
    exact { h with
      rbuf_wf := Memory.write_wf _ _ h.rbuf_wf
      rbuf_below := Memory.write_below _ (by omega) h.rbuf_below }

theorem decResetBody_keepsDecInv : KeepsDecInv decResetBody := fun _ h ha => h.rewind ha

theorem decReadBody_keepsDecInv (off : Word) : KeepsDecInv (decReadBody off) := by
  intro s h _
  unfold decReadBody
  split <;> exact h

theorem execDecAttach_decInv {base size : Word} {s t : State} (h : DecInv s.cfg s.dec)
    (ht : execDecAttach base size s = .next t) : DecInv s.cfg t.dec := by
  unfold execDecAttach at ht
  split at ht <;> cases ht
  · exact (h.raise (by simp)).withOutputs _ _
  · rename_i hfits
    obtain ⟨hsize, hwindow⟩ := not_or.1 hfits
    exact (h.construct (Nat.not_lt.1 hsize) (by simp) fun _ => Nat.not_lt.1 hwindow).withOutputs _ _

/-- R9 bounds the owned buffer by what a size register can hold. -/
theorem rbufMax_le_of_valid {cfg : Config} (h : cfg.valid = true) : cfg.rbufMax ≤ 2 ^ cfg.aw - 1 := by
  simp only [Config.valid, Bool.and_eq_true, decide_eq_true_eq] at h
  obtain ⟨⟨⟨-, hrbuf⟩, -⟩, -⟩ := h
  exact hrbuf

theorem execDecAlloc_decInv {size : Word} {s t : State} (hcfg : s.cfg.valid = true) (h : DecInv s.cfg s.dec)
    (ht : execDecAlloc size s = .next t) : DecInv s.cfg t.dec := by
  unfold execDecAlloc at ht
  split at ht <;> cases ht
  · exact (h.raise (by simp)).withOutputs _ _
  · rename_i hsize
    have hle : size.toNat ≤ s.cfg.rbufMax := Nat.not_lt.1 hsize
    exact (h.construct (hle.trans (rbufMax_le_of_valid hcfg)) (fun _ => hle) (by simp)).withOutputs _ _

theorem execDecRun_decInv {s t : State} (h : DecInv s.cfg s.dec) (ht : execDecRun s = .next t) :
    DecInv s.cfg t.dec := by
  unfold execDecRun at ht
  split at ht <;> cases ht
  · exact h.withOutputs _ _
  · rename_i ha
    exact runLoop_decInv _ 0 [] h ha

/-- Every `DEC` command and every wire row keeps the clauses about `DEC`. -/
theorem exec_decInv {i : Instr} (hi : i.isEnc = false) {s t : State} (hcfg : s.cfg.valid = true)
    (h : DecInv s.cfg s.dec) (ht : exec i s = .next t) : DecInv s.cfg t.dec := by
  cases i with
  | int8 m | uint8 m | int16 m | uint16 m | int32 m | uint32 m | int64 m | uint64 m | float32 m | float64 m =>
    exact nextField_decInv (armFixed_good _) h ht
  | uleb128 m => exact nextField_decInv (armUleb128_good m) h ht
  | sleb128 m => exact nextField_decInv (armSleb128_good m) h ht
  | short m => exact nextField_decInv (armShort_good m) h ht
  | vector m => exact nextField_decInv (armVector_good m) h ht
  | vectorLarge => exact nextField_decInv armVectorLarge_good h ht
  | reserved14 m => exact nextField_decInv (armReserved14_good m) h ht
  | eof m => exact nextField_decInv (armEof_good m) h ht
  | decAttach base size => exact execDecAttach_decInv h ht
  | decAlloc size => exact execDecAlloc_decInv hcfg h ht
  | decLoad idx v => exact decCommand_decInv (decLoadBody_keepsDecInv idx v) h ht
  | decReset => exact decCommand_decInv decResetBody_keepsDecInv h ht
  | decNext => exact nextField_decInv armAt_good h ht
  | decRun => exact execDecRun_decInv h ht
  | decRead off => exact decCommand_decInv (decReadBody_keepsDecInv off) h ht
  | _ => cases hi

/-! #### The machine -/

/-- Every instruction acts on one unit (R62) and keeps the clauses about it. -/
theorem exec_machineInv {i : Instr} {s t : State} (h : MachineInv s) (ht : exec i s = .next t) : MachineInv t := by
  cases hi : i.isEnc with
  | true =>
    rw [(exec_actsOnEnc i hi).frame ht]
    exact h.withEnc (exec_encInv hi h.encInv ht)
  | false =>
    rw [(exec_actsOnDec i hi).frame ht]
    exact h.withDec (exec_decInv hi h.cfg_valid h.decInv ht)

theorem refuse_machineInv {s : State} (u : UnitId) (h : MachineInv s) : MachineInv (refuse u s) :=
  match u with
  | .enc => h.withEnc (h.encInv.withResp _)
  | .dec => h.withDec (h.decInv.withOutputs _ _)

theorem hostWrite_machineInv {addr : Nat} {b : Byte} {s t : State} (h : MachineInv s)
    (ht : hostWrite addr b s = .next t) : MachineInv t := by
  unfold hostWrite at ht
  split at ht <;> cases ht
  exact h.withHmem_write b (by omega)

/-- Everything a step that does not stop can do: nothing on an empty port, else the host action taken from it. -/
theorem step_cases {s t : State} (h : step s = .next t) :
    t = s ∨ ∃ rest,
      (∃ i, exec i (s.withPort rest) = .next t) ∨ (∃ u, t = refuse u (s.withPort rest)) ∨
      (∃ addr b, hostWrite addr b (s.withPort rest) = .next t) ∨ t = hardwareReset (s.withPort rest) := by
  unfold step fetch at h
  match hp : s.port with
  | [] =>
    simp only [hp] at h
    cases h
    exact .inl rfl
  | .command u c :: rest =>
    refine .inr ⟨rest, ?_⟩
    simp only [hp] at h
    cases hd : decode (.command u c) with
    | ok i =>
      simp only [hd] at h
      exact .inl ⟨i, h⟩
    | error e =>
      simp only [hd] at h
      cases h
      exact .inr (.inl ⟨u, rfl⟩)
  | .writeHost addr b :: rest =>
    simp only [hp] at h
    exact .inr ⟨rest, .inr (.inr (.inl ⟨addr, b, h⟩))⟩
  | .hardwareReset :: rest =>
    simp only [hp] at h
    cases h
    exact .inr ⟨rest, .inr (.inr (.inr rfl))⟩

/-- Settles O5: whatever a step takes from the port keeps the invariant. -/
theorem stepKeepsInv : Obligations.StepKeepsInv := by
  intro s t h ht
  rcases step_cases ht with rfl | ⟨rest, ⟨i, hi⟩ | ⟨u, rfl⟩ | ⟨addr, b, hw⟩ | rfl⟩
  · exact h
  · exact exec_machineInv (h.withPort rest) hi
  · exact refuse_machineInv u (h.withPort rest)
  · exact hostWrite_machineInv (h.withPort rest) hw
  · exact (h.withPort rest).hardwareReset

end Sys2Proof.Machine
end

section
/-! ### `ENC` writes below its capacity (R22, R63)

Every write of an `ENC` command is at the cursor or inside a valid span. The first is bounded by the capacity check
of `emit_field` (R222), the second by the span clause of the invariant (R49). -/

namespace Sys2Proof.Machine

/-- `wbuf` of `e'` lists at and above the capacity of `e` what `wbuf` of `e` lists there. -/
def KeepsAboveCap (e e' : Enc) : Prop := ∀ a, e.wcap ≤ a → Memory.read e'.wbuf a = Memory.read e.wbuf a

/-- The body of an `ENC` command, run under the invariant, writes below the capacity only. -/
def WritesBelowCap (body : State → Except Cause (Enc × Reply)) : Prop :=
  ∀ s e r, EncInv s.cfg s.enc → body s = .ok (e, r) → KeepsAboveCap s.enc e

/-! #### The two kinds of write -/

theorem keepsAboveCap_of_wbuf_eq {e e' : Enc} (h : e'.wbuf = e.wbuf) : KeepsAboveCap e e' := fun a _ => by rw [h]

theorem keepsAboveCap_of_writeList {e e' : Enc} {bs : List Byte} (hfit : e.wpos + bs.length ≤ e.wcap)
    (h : e'.wbuf = Memory.writeList e.wbuf e.wpos bs) : KeepsAboveCap e e' := fun a ha => by
  rw [h, Memory.read_writeList, if_neg (by omega)]

theorem keepsAboveCap_of_write {e e' : Enc} {p : Nat} {b : Byte} (hp : p < e.wcap)
    (h : e'.wbuf = Memory.write e.wbuf p b) : KeepsAboveCap e e' := fun a ha => by
  rw [h, Memory.read_write_other _ _ (by omega)]

/-- A valid span ends at the cursor, so its bytes are below the capacity (R49). -/
theorem EncInv.span_lt_wcap {cfg : Config} {e : Enc} (h : EncInv cfg e) (hvalid : e.vvalid = true) {i : Nat}
    (hi : i < e.vlen) : e.vbase + i < e.wcap := by
  have hspan := h.span_ends_at_wpos hvalid
  have hpos := h.wpos_le_wcap
  omega

/-! #### The commands -/

theorem encCommand_keepsAboveCap {body : State → Except Cause (Enc × Reply)} (hb : WritesBelowCap body)
    {s t : State} (h : EncInv s.cfg s.enc) (ht : encCommand body s = .next t) : KeepsAboveCap s.enc t.enc := by
  rcases encCommand_cases ht with ⟨-, rfl⟩ | ⟨-, c, -, rfl⟩ | ⟨-, e, r, he, rfl⟩
  · exact keepsAboveCap_of_wbuf_eq rfl
  · exact keepsAboveCap_of_wbuf_eq rfl
  · exact hb s e r h he

theorem addBytes_writesBelowCap (bs : List Byte) : WritesBelowCap fun s => addBytes bs s.enc := by
  intro s e r _ h
  obtain ⟨hfit, -, rfl⟩ := addBytes_ok h
  exact keepsAboveCap_of_writeList hfit rfl

theorem addFixed_writesBelowCap (k : FixedKind) (v : Word) : WritesBelowCap (addFixed k v) :=
  funext (addFixed_eq k v) ▸ addBytes_writesBelowCap _

theorem addLeb_writesBelowCap {t : Nat} (ht : t < 16) (bs : List Byte) : WritesBelowCap (addLeb t bs) :=
  funext (addLeb_eq ht bs) ▸ addBytes_writesBelowCap _

theorem addEofBody_writesBelowCap : WritesBelowCap addEofBody :=
  funext addEofBody_eq ▸ addBytes_writesBelowCap _

theorem addShortBody_writesBelowCap (v : Word) : WritesBelowCap (addShortBody v) := by
  rw [funext (addShortBody_eq v)]
  split
  · intro s e r _ h
    cases h
  · exact addBytes_writesBelowCap _

/-- The check of `ADD_VECTOR` covers header, length and span; only header and length are written (R190). -/
theorem addVectorBody_writesBelowCap (n : Word) : WritesBelowCap (addVectorBody n) := by
  intro s e r _ h
  obtain ⟨hdr, -, ⟨-, hb⟩ | ⟨hfit, hb⟩⟩ := addVectorBody_cases n s <;> cases hb.symm.trans h
  exact keepsAboveCap_of_writeList (by omega) rfl

/-- `ENC_FILL` writes one byte of a valid span, or is refused (R192). -/
theorem encFillBody_writesBelowCap (idx v : Word) : WritesBelowCap (encFillBody idx v) := by
  intro s e r hs h
  unfold encFillBody at h
  split at h
  · cases h
    exact keepsAboveCap_of_wbuf_eq rfl
  · rename_i hidx
    obtain ⟨hvalid, hlt⟩ : s.enc.vvalid = true ∧ idx.toNat < s.enc.vlen := by simpa using hidx
    cases h
    exact keepsAboveCap_of_write (hs.span_lt_wcap hvalid hlt) rfl

theorem encResetBody_writesBelowCap : WritesBelowCap encResetBody := by
  intro s e r _ h
  cases h
  exact keepsAboveCap_of_wbuf_eq rfl

theorem encReadBody_writesBelowCap (off : Word) : WritesBelowCap (encReadBody off) := by
  intro s e r _ h
  unfold encReadBody at h
  split at h <;> cases h <;> exact keepsAboveCap_of_wbuf_eq rfl

/-- A constructor writes no byte of `wbuf`, whatever the new capacity (R225). -/
theorem execEncInit_keepsAboveCap {cap : Word} {s t : State} (ht : execEncInit cap s = .next t) :
    KeepsAboveCap s.enc t.enc := by
  unfold execEncInit at ht
  split at ht <;> cases ht <;> exact keepsAboveCap_of_wbuf_eq rfl

/-- Every `ENC` command writes below the capacity it starts with. -/
theorem exec_keepsAboveCap {i : Instr} (hi : i.isEnc = true) {s t : State} (h : EncInv s.cfg s.enc)
    (ht : exec i s = .next t) : KeepsAboveCap s.enc t.enc := by
  cases i with
  | addInt8 v | addUint8 v | addInt16 v | addUint16 v | addInt32 v | addUint32 v | addInt64 v | addUint64 v
  | addFloat32 v | addFloat64 v => exact encCommand_keepsAboveCap (addFixed_writesBelowCap _ v) h ht
  | addUleb128 v | addSleb128 v => exact encCommand_keepsAboveCap (addLeb_writesBelowCap (by decide) _) h ht
  | addShort v => exact encCommand_keepsAboveCap (addShortBody_writesBelowCap v) h ht
  | addVector n => exact encCommand_keepsAboveCap (addVectorBody_writesBelowCap n) h ht
  | reserved0E =>
    cases ht
    exact keepsAboveCap_of_wbuf_eq rfl
  | addEof => exact encCommand_keepsAboveCap addEofBody_writesBelowCap h ht
  | encInit cap => exact execEncInit_keepsAboveCap ht
  | encReset => exact encCommand_keepsAboveCap encResetBody_writesBelowCap h ht
  | encFill idx v => exact encCommand_keepsAboveCap (encFillBody_writesBelowCap idx v) h ht
  | encRead off => exact encCommand_keepsAboveCap (encReadBody_writesBelowCap off) h ht
  | _ => cases hi

/-- A read of `wbuf` depends on what `ENC` lists and on the reset epoch, which no command changes. -/
theorem KeepsAboveCap.wbufByte_eq {s : State} {e : Enc} (h : KeepsAboveCap s.enc e) {a : Nat} (ha : s.enc.wcap ≤ a) :
    wbufByte (s.withEnc e) a = wbufByte s a := by
  simp only [wbufByte, State.withEnc_enc, State.withEnc_epoch, h a ha]

/-- Settles O29: an `ENC` command writes below the capacity, every other instruction leaves `ENC` alone (R62). -/
theorem encoderWritesInsideCapacity : Obligations.EncoderWritesInsideCapacity := by
  intro i s t hinv ht a ha
  cases hi : i.isEnc with
  | true =>
    rw [(exec_actsOnEnc i hi).frame ht]
    exact (exec_keepsAboveCap hi hinv.encInv ht).wbufByte_eq ha
  | false =>
    rw [(exec_actsOnDec i hi).frame ht]
    rfl

end Sys2Proof.Machine
end

section
/-! ### `DEC` reads below `rsize` (R63, R64, R73)

Every read of the source goes through `read_byte` and `read_bytes`, which check the bound first, or through
`DEC_READ`, which does so itself. So an arm answers the same at two sources of one size that agree inside it, and
a pull carries the bytes it did not read along unchanged. -/

namespace Sys2Proof.Machine

/-! #### What the arms see -/

/-- The sources of the two states have the same size and the same bytes. -/
structure SameSource (s s' : State) : Prop where
  rsize : s'.dec.rsize = s.dec.rsize
  src : ∀ j, j < s.dec.rsize → src s' j = src s j

/-- What an arm answers depends only on the source. -/
def Arm.SeesSource (arm : Arm) : Prop := ∀ s s', SameSource s s' → arm s' = arm s

theorem SameSource.readByte {s s' : State} (h : SameSource s s') : readByte s' = readByte s := by
  funext p
  simp only [Machine.readByte, h.rsize]
  split
  · rfl
  · rw [h.src p (by omega)]

theorem SameSource.readBytes {s s' : State} (h : SameSource s s') : readBytes s' = readBytes s := by
  funext p n
  simp only [Machine.readBytes, h.rsize]
  split
  · rfl
  · refine congrArg _ (List.map_congr_left fun i hi => h.src (p + i) ?_)
    have hin := List.mem_range.1 hi
    omega

theorem SameSource.ulebLoop {s s' : State} (h : SameSource s s') (fuel p : Nat) (v : Word) (sh : Nat) :
    ulebLoop s' fuel p v sh = ulebLoop s fuel p v sh := by
  induction fuel generalizing p v sh with
  | zero => rfl
  | succ fuel ih => simp only [Machine.ulebLoop, h.readByte, ih]

theorem SameSource.decUleb {s s' : State} (h : SameSource s s') : decUleb s' = decUleb s :=
  funext fun p => h.ulebLoop 11 p 0 0

theorem SameSource.commitView {s s' : State} (h : SameSource s s') (length p : Nat) :
    commitView length p s' = commitView length p s := by
  simp only [Machine.commitView, h.rsize]

theorem armFixed_seesSource (k : FixedKind) : Arm.SeesSource (armFixed k) := fun s s' h => by
  funext p
  simp only [armFixed, h.readBytes]

theorem armUleb128_seesSource (m : Nibble) : Arm.SeesSource (armUleb128 m) := fun s s' h => by
  funext p
  simp only [armUleb128, h.decUleb]

theorem armSleb128_seesSource (m : Nibble) : Arm.SeesSource (armSleb128 m) := fun s s' h => by
  funext p
  simp only [armSleb128, decSleb, h.decUleb]

theorem armShort_seesSource (m : Nibble) : Arm.SeesSource (armShort m) := fun _ _ _ => rfl

/-- A vector is a view: its bytes are bounds-checked and not read (R73, R195). -/
theorem armVector_seesSource (m : Nibble) : Arm.SeesSource (armVector m) := fun _ _ h =>
  funext fun p => h.commitView m.toNat (p + 1)

theorem armVectorLarge_seesSource : Arm.SeesSource armVectorLarge := fun s s' h => by
  funext p
  simp only [armVectorLarge, h.decUleb, h.commitView]

theorem armReserved14_seesSource (m : Nibble) : Arm.SeesSource (armReserved14 m) := fun _ _ _ => rfl

theorem armEof_seesSource (m : Nibble) : Arm.SeesSource (armEof m) := fun _ _ _ => rfl

theorem armOf_seesSource (b : Byte) : Arm.SeesSource (armOf b) := by
  simp only [armOf]
  generalize (unpack b).2 = m
  match (unpack b).1.toNat with
  | 0 | 1 | 2 | 3 | 4 | 5 | 6 | 7 | 10 | 11 => exact armFixed_seesSource _
  | 8 => exact armUleb128_seesSource m
  | 9 => exact armSleb128_seesSource m
  | 12 => exact armShort_seesSource m
  | 13 =>
    by_cases hm : m = 15#4
    · simp only [hm, if_true]
      exact armVectorLarge_seesSource
    · simp only [hm, if_false]
      exact armVector_seesSource m
  | 14 => exact armReserved14_seesSource m
  | _ + 15 => exact armEof_seesSource m

theorem armAt_seesSource : Arm.SeesSource armAt := fun s s' h => by
  funext p
  simp only [armAt, h.readByte, armOf_seesSource _ s s' h]

/-! #### The buffers outside the source -/

/-- Host memory and `rbuf` replaced by `m` and `n`. -/
def State.withBuffers (m n : Memory) (s : State) : State :=
  { s with hmem := m, dec := { s.dec with rbuf := n } }

@[simp] theorem State.withBuffers_dec (m n : Memory) (s : State) :
    (s.withBuffers m n).dec = { s.dec with rbuf := n } := rfl

/-- Only `rbuf` of `DEC` is replaced, so a change of the registers of `DEC` commutes with it. -/
theorem State.withBuffers_withDec (m n : Memory) (s : State) (d : Dec) :
    (s.withBuffers m n).withDec { d with rbuf := n } = (s.withDec d).withBuffers m n := rfl

/-- The source is the same after a change of `DEC` that leaves the registers of the source and `rbuf` alone. -/
theorem SameSource.withDec {m n : Memory} {s : State} {d : Dec} (h : SameSource s (s.withBuffers m n))
    (hmode : d.rmode = s.dec.rmode) (hbuf : d.rbuf = s.dec.rbuf) (hbase : d.rbase = s.dec.rbase)
    (hsize : d.rsize = s.dec.rsize) : SameSource (s.withDec d) ((s.withDec d).withBuffers m n) where
  rsize := rfl
  src j hj := by
    have hlt : j < s.dec.rsize := hsize ▸ hj
    rw [← State.withBuffers_withDec]
    calc Machine.src ((s.withBuffers m n).withDec { d with rbuf := n }) j
      _ = Machine.src (s.withBuffers m n) j := src_withDec (s.withBuffers m n) { d with rbuf := n } hmode rfl hbase j
      _ = Machine.src s j := h.src j hlt
      _ = Machine.src (s.withDec d) j := (src_withDec s d hmode hbuf hbase j).symm

/-! #### The pulls and `DEC_READ` -/

/-- `f` completes, and does the same with other buffers that hold the same source, which it leaves as they are. -/
def ReadsOnlySource (f : State → Out) : Prop :=
  ∀ s m n, SameSource s (s.withBuffers m n) → ∃ t, f s = .next t ∧ f (s.withBuffers m n) = .next (t.withBuffers m n)

theorem fieldStep_withBuffers {arm : Arm} (ha : arm.SeesSource) {s : State} {m n : Memory}
    (h : SameSource s (s.withBuffers m n)) :
    fieldStep arm (s.withBuffers m n) = (fieldStep arm s).map fun d => { d with rbuf := n } := by
  simp only [fieldStep, ha _ _ h, State.withBuffers_dec]
  split
  · rfl
  · cases arm s s.dec.rpos <;> rfl

theorem nextField_readsOnlySource {arm : Arm} (ha : arm.SeesSource) : ReadsOnlySource (nextField arm) := by
  intro s m n h
  simp only [nextField, fieldStep_withBuffers ha h, State.withBuffers_dec]
  cases s.dec.dstate with
  | aborted | done => exact ⟨_, rfl, rfl⟩
  | ready | decoding => cases fieldStep arm s <;> exact ⟨_, rfl, rfl⟩

/-- No turn of `DEC_RUN` moves the source, so every turn sees the same one. -/
theorem runLoop_withBuffers (fuel k : Nat) (evs : List Event) {s : State} {m n : Memory}
    (h : SameSource s (s.withBuffers m n)) :
    runLoop fuel k evs (s.withBuffers m n) = (runLoop fuel k evs s).withBuffers m n := by
  induction fuel generalizing k evs s with
  | zero => rfl
  | succ fuel ih =>
    simp only [runLoop, fieldStep_withBuffers armAt_seesSource h, State.withBuffers_dec]
    split
    · rfl
    · cases hd : fieldStep armAt s with
      | error c => rfl
      | ok d =>
        obtain ⟨hmode, hbuf, hbase, hsize, -⟩ := fieldStep_good armAt_good hd
        simp only [Except.map, State.withBuffers_withDec]
        split
        · rfl
        · exact ih (k + 1) (evs ++ [eventOf d]) (h.withDec hmode hbuf hbase hsize)

theorem execDecRun_readsOnlySource : ReadsOnlySource execDecRun := by
  intro s m n h
  simp only [execDecRun, runLoop_withBuffers _ _ _ h, State.withBuffers_dec]
  split <;> exact ⟨_, rfl, rfl⟩

/-- `DEC_READ` is refused outside the source (R259). -/
theorem decReadBody_withBuffers (off : Word) {s : State} {m n : Memory} (h : SameSource s (s.withBuffers m n)) :
    decReadBody off (s.withBuffers m n) = ({ s.dec with rbuf := n }, (decReadBody off s).2) := by
  by_cases hoff : s.dec.rsize ≤ off.toNat
  · simp only [decReadBody, State.withBuffers_dec, hoff, if_true]
  · simp only [decReadBody, State.withBuffers_dec, hoff, if_false, h.src off.toNat (Nat.not_le.1 hoff)]

theorem decReadBody_fst (off : Word) (s : State) : (decReadBody off s).1 = s.dec := by
  unfold decReadBody
  split <;> rfl

theorem execDecRead_readsOnlySource (off : Word) : ReadsOnlySource (execDecRead off) := by
  intro s m n h
  simp only [execDecRead, decCommand, decReadBody_withBuffers off h, decReadBody_fst, State.withBuffers_dec]
  split <;> exact ⟨_, rfl, rfl⟩

theorem exec_readsOnlySource_of_isPull (i : Instr) (hi : i.isPull = true) : ReadsOnlySource (exec i) := by
  cases i with
  | int8 m | uint8 m | int16 m | uint16 m | int32 m | uint32 m | int64 m | uint64 m | float32 m | float64 m =>
    exact nextField_readsOnlySource (armFixed_seesSource _)
  | uleb128 m => exact nextField_readsOnlySource (armUleb128_seesSource m)
  | sleb128 m => exact nextField_readsOnlySource (armSleb128_seesSource m)
  | short m => exact nextField_readsOnlySource (armShort_seesSource m)
  | vector m => exact nextField_readsOnlySource (armVector_seesSource m)
  | vectorLarge => exact nextField_readsOnlySource armVectorLarge_seesSource
  | reserved14 m => exact nextField_readsOnlySource (armReserved14_seesSource m)
  | eof m => exact nextField_readsOnlySource (armEof_seesSource m)
  | decNext => exact nextField_readsOnlySource armAt_seesSource
  | decRun => exact execDecRun_readsOnlySource
  | _ => cases hi

theorem ReadsOnlySource.same {f : State → Out} (hf : ReadsOnlySource f) {s t : State} {m n : Memory}
    (h : SameSource s (s.withBuffers m n)) (ht : f s = .next t) :
    f (s.withBuffers m n) = .next (t.withBuffers m n) := by
  obtain ⟨t', hs, hs'⟩ := hf s m n h
  obtain rfl : t = t' := by simpa [ht] using hs
  exact hs'

/-- Settles O51: the pulls and `DEC_READ` read nothing but the source. -/
theorem decoderReadsOnlyItsSource : Obligations.DecoderReadsOnlyItsSource := by
  rintro i s _ m n t hi rfl hsrc ht
  have hsame : SameSource s (s.withBuffers m n) := ⟨rfl, hsrc⟩
  rcases hi with hpull | ⟨off, rfl⟩
  · exact (exec_readsOnlySource_of_isPull i hpull).same hsame ht
  · exact (execDecRead_readsOnlySource off).same hsame ht

end Sys2Proof.Machine
end

section
/-! ### Decoder and encoder are inverse, and what no row names is refused (R90 to R105)

A header byte is its two nibbles (R90), so decoding the bytes of the encoder is looking its nibbles up in the type
table. The other direction rests on this one: what decodes is encoded to a word of the same header, or of the same
unit and code, and that word decodes to what was encoded. -/

namespace Sys2Proof

/-! #### Header bytes -/

/-- R121: the nibbles of a header byte are the two it was made of. -/
@[simp] theorem unpack_headerByte (t m : Nibble) : unpack (headerByte t m) = (t, m) := by
  simp only [unpack, headerByte, BitVec.extractLsb'_append_eq_right, BitVec.extractLsb'_append_eq_left]

/-- R122: a byte is the header of its nibbles. -/
theorem headerByte_unpack (h : Byte) : headerByte (unpack h).1 (unpack h).2 = h := by
  simp only [unpack, headerByte, BitVec.extractLsb'_append_extractLsb'_eq_extractLsb' (show 4 = 0 + 4 from rfl)]
  exact BitVec.extractLsb'_eq_self

theorem headerByte_ofNat_of_toNat_eq {t : Nibble} {k : Nat} (m : Nibble) (h : t.toNat = k) :
    headerByte (BitVec.ofNat 4 k) m = headerByte t m := by
  simp [← h]

/-- Every header byte is encoded back (R92, R96): the row of its type keeps the metadata, and the large flag is
metadata 15. -/
theorem encode_decodeHeader (h : Byte) : encode (decodeHeader h) = .field h := by
  conv_rhs => rw [← headerByte_unpack h]
  simp only [decodeHeader]
  generalize (unpack h).2 = m
  have hlt : (unpack h).1.toNat < 16 := BitVec.isLt _
  match hk : (unpack h).1.toNat with
  | 0 | 1 | 2 | 3 | 4 | 5 | 6 | 7 | 8 | 9 | 10 | 11 | 12 | 14 | 15 =>
    exact congrArg CodeWord.field (headerByte_ofNat_of_toNat_eq m hk)
  | 13 =>
    by_cases hm : m = 15#4
    · simp only [hm, if_true]
      exact congrArg CodeWord.field (headerByte_ofNat_of_toNat_eq 15 hk)
    · simp only [hm, if_false]
      exact congrArg CodeWord.field (headerByte_ofNat_of_toNat_eq m hk)
  | k + 16 => omega

theorem decodeHeader_wellFormed (h : Byte) : (decodeHeader h).wellFormed = true := by
  simp only [decodeHeader]
  generalize (unpack h).2 = m
  match (unpack h).1.toNat with
  | 0 | 1 | 2 | 3 | 4 | 5 | 6 | 7 | 8 | 9 | 10 | 11 | 12 | 14 => rfl
  | 13 =>
    by_cases hm : m = 15#4
    · simp only [hm, if_true]
      rfl
    · rw [if_neg hm]
      exact bne_iff_ne.2 hm
  | _ + 15 => rfl

/-! #### Command records -/

/-- What a code of R101 means is encoded to a record of `ENC` with that code. -/
theorem decodeEncOp_some {op : Nat} {a b : Word} {i : Instr} (h : decodeEncOp op a b = some i) :
    i.wellFormed = true ∧ ∃ a' b', encode i = encWord (BitVec.ofNat 8 op) a' b' := by
  unfold decodeEncOp at h
  split at h <;> cases h <;> exact ⟨rfl, _, _, rfl⟩

/-- What a code of R102 means is encoded to a record of `DEC` with that code. -/
theorem decodeDecOp_some {op : Nat} {a b : Word} {i : Instr} (h : decodeDecOp op a b = some i) :
    i.wellFormed = true ∧ ∃ a' b', encode i = decWord (BitVec.ofNat 8 op) a' b' := by
  unfold decodeDecOp at h
  split at h <;> cases h <;> exact ⟨rfl, _, _, rfl⟩

theorem decodeOpOf_some {u : UnitId} {c : CmdRecord} {i : Instr} (h : decodeOpOf u c = some i) :
    i.wellFormed = true ∧ ∃ c', encode i = .command u c' ∧ c'.op = c.op := by
  cases u with
  | enc =>
    obtain ⟨hwf, a, b, he⟩ := decodeEncOp_some h
    exact ⟨hwf, _, he, by simp⟩
  | dec =>
    obtain ⟨hwf, a, b, he⟩ := decodeDecOp_some h
    exact ⟨hwf, _, he, by simp⟩

/-- Codes 0x00 to 0x13 are the commands of `ENC` (R101). -/
theorem decodeEncOp_eq_none_iff {op : Nat} {a b : Word} : decodeEncOp op a b = none ↔ 0x13 < op := by
  unfold decodeEncOp
  split
  case h_21 => grind
  all_goals simp

/-- Codes 0x20 to 0x26 are the commands of `DEC` (R102). -/
theorem decodeDecOp_eq_none_iff {op : Nat} {a b : Word} : decodeDecOp op a b = none ↔ op < 0x20 ∨ 0x26 < op := by
  unfold decodeDecOp
  split
  case h_8 => grind
  all_goals simp

/-- A record means what its code means to its unit, and nothing else (R100). -/
theorem decode_command_ok_iff {u : UnitId} {c : CmdRecord} {i : Instr} :
    decode (.command u c) = .ok i ↔ decodeOpOf u c = some i := by
  simp only [decode, decodeCommand]
  cases decodeOpOf u c with
  | some j => simp
  | none =>
    simp only
    split <;> simp

theorem decode_command_error {u : UnitId} {c : CmdRecord} (h : decodeOpOf u c = none) :
    ∃ e, decode (.command u c) = .error e := by
  cases hd : decode (.command u c) with
  | error e => exact ⟨e, rfl⟩
  | ok i => simp [decode_command_ok_iff, h] at hd

/-! #### The round trips -/

/-- Settles O10: a wire row is looked up by the nibbles of its header, a command by its code. -/
theorem decodeAfterEncode : Obligations.DecodeAfterEncode := by
  intro i hwf
  cases i with
  | int8 m | uint8 m | int16 m | uint16 m | int32 m | uint32 m | int64 m | uint64 m | uleb128 m | sleb128 m
  | float32 m | float64 m | short m | reserved14 m | eof m =>
    simp only [encode, decode, decodeHeader, unpack_headerByte]
    rfl
  | vector m =>
    have hm : m ≠ 15#4 := by simpa [Instr.wellFormed] using hwf
    simp only [encode, decode, decodeHeader, unpack_headerByte, hm, if_false]
    rfl
  | _ => rfl

/-- Settles O11: the word of what was decoded decodes to the same by O10. -/
theorem encodeAfterDecode : Obligations.EncodeAfterDecode := by
  refine ⟨fun h => ⟨decodeHeader_wellFormed h, encode_decodeHeader h⟩, fun u c i hd => ?_⟩
  obtain ⟨hwf, c', he, hop⟩ := decodeOpOf_some (decode_command_ok_iff.1 hd)
  exact ⟨hwf, c', he, hop, he ▸ decodeAfterEncode i hwf⟩

/-- Settles O12: the header bytes are the encodings of their rows; a record's code is looked up, with the argument
no command names dropped. -/
theorem wordsOfTheTableDecode : Obligations.WordsOfTheTableDecode :=
  ⟨decodeAfterEncode (.int8 5) rfl, decodeAfterEncode (.short 10) rfl, decodeAfterEncode (.vector 2) rfl,
    decodeAfterEncode .vectorLarge rfl, decodeAfterEncode (.uleb128 7) rfl, decodeAfterEncode (.reserved14 3) rfl,
    decodeAfterEncode (.eof 15) rfl, rfl, rfl, rfl, rfl, rfl⟩

end Sys2Proof

namespace Sys2Proof.Machine

/-! #### Refused commands -/

theorem refuse_enc_eq (s : State) : refuse .enc s = { s with enc := encRefused s } := rfl

theorem refuse_dec_eq (s : State) : refuse .dec s = { s with dec := decRefused s } := rfl

theorem exec_reserved0E (s : State) : exec .reserved0E s = .next (refuse .enc s) := rfl

/-- Settles O27: the reserved row is a refusal in every state, and a refusal changes the response alone. -/
theorem reservedCommandIsRefused : Obligations.ReservedCommandIsRefused := fun s =>
  (exec_reserved0E s).trans (congrArg _ (refuse_enc_eq s))

/-- A record that names no command of its unit is refused by the step itself (R105). -/
theorem step_unassigned {s : State} {u : UnitId} {c : CmdRecord} {rest : List HostAction}
    (hp : s.port = .command u c :: rest) (hd : decodeOpOf u c = none) :
    step s = .next (refuse u (s.withPort rest)) := by
  obtain ⟨e, he⟩ := decode_command_error hd
  simp only [step, fetch, hp, he]

/-- Settles O7: 0x0E is a row of its own that is refused, every other such code names no command of the unit. -/
theorem unlistedCodesAreRefused : Obligations.UnlistedCodesAreRefused := by
  intro s u c rest hp
  constructor
  · rintro rfl (h0E | habove)
    · have hd : decode (.command .enc c) = .ok .reserved0E :=
        decode_command_ok_iff.2 (by simp only [decodeOpOf, h0E, decodeEncOp])
      exact (step_command hp hd).trans (reservedCommandIsRefused _)
    · exact step_unassigned hp (decodeEncOp_eq_none_iff.2 habove)
  · rintro rfl houtside
    exact step_unassigned hp (decodeDecOp_eq_none_iff.2 houtside)

end Sys2Proof.Machine
end

section
/-! ### The header codec (R120 to R122)

`pack` is `headerByte` behind a range check, so both directions of R122 are those of `headerByte` and `unpack`; what
is left is the value of a header byte as a number. -/

namespace Sys2Proof

/-- R90: the metadata counts sixteens above the type. -/
theorem toNat_headerByte (t m : Nibble) : (headerByte t m).toNat = t.toNat + 16 * m.toNat := by
  calc (headerByte t m).toNat
      = m.toNat <<< 4 ||| t.toNat := BitVec.toNat_append m t
    _ = m.toNat <<< 4 + t.toNat := (Nat.shiftLeft_add_eq_or_of_lt t.isLt m.toNat).symm
    _ = t.toNat + 16 * m.toNat := by rw [Nat.shiftLeft_eq]; omega

/-- The metadata needs no bound: `16 * m` loses in a byte the bits that `m` loses in a nibble. -/
theorem headerByte_ofNat {t : Nat} (m : Nat) (ht : t < 16) :
    headerByte (BitVec.ofNat 4 t) (BitVec.ofNat 4 m) = BitVec.ofNat 8 (t + 16 * m) := by
  apply BitVec.eq_of_toNat_eq
  rw [toNat_headerByte]
  simp only [BitVec.toNat_ofNat]
  omega

/-- R121 in arithmetic: the type is the remainder by sixteen, the metadata the quotient. -/
theorem unpack_eq_mod_div (b : Byte) :
    unpack b = (BitVec.ofNat 4 (b.toNat % 16), BitVec.ofNat 4 (b.toNat / 16)) := by
  have hb : headerByte (BitVec.ofNat 4 (b.toNat % 16)) (BitVec.ofNat 4 (b.toNat / 16)) = b := by
    rw [headerByte_ofNat _ (Nat.mod_lt _ (by decide)), Nat.mod_add_div, BitVec.ofNat_toNat, BitVec.setWidth_eq]
  calc unpack b = unpack (headerByte (BitVec.ofNat 4 (b.toNat % 16)) (BitVec.ofNat 4 (b.toNat / 16))) := by rw [hb]
    _ = _ := unpack_headerByte _ _

end Sys2Proof

namespace Sys2Proof.Machine

/-- R120: outside its precondition `pack` raises. -/
theorem pack_of_not_lt {t m : Nat} (h : ¬ (t < 16 ∧ m < 16)) : pack t m = .error .invalidArgument :=
  if_pos (by omega)

theorem pack_eq (t m : Nat) :
    pack t m = if t < 16 ∧ m < 16 then .ok (BitVec.ofNat 8 (t + 16 * m)) else .error .invalidArgument := by
  split
  case isTrue h =>
    obtain ⟨ht, hm⟩ := h
    rw [pack_of_lt ht hm, headerByte_ofNat m ht]
  case isFalse h => exact pack_of_not_lt h

/-- R122: what `pack` made is unpacked to its arguments. -/
theorem unpack_of_pack {t m : Nat} {b : Byte} (ht : t < 16) (hm : m < 16) (hb : pack t m = .ok b) :
    unpack b = (BitVec.ofNat 4 t, BitVec.ofNat 4 m) := by
  obtain rfl : headerByte (BitVec.ofNat 4 t) (BitVec.ofNat 4 m) = b :=
    Except.ok.inj ((pack_of_lt ht hm).symm.trans hb)
  exact unpack_headerByte _ _

/-- R122: packing the nibbles of a byte gives the byte. -/
theorem pack_unpack (b : Byte) : pack (unpack b).1.toNat (unpack b).2.toNat = .ok b := by
  rw [pack_of_lt (unpack b).1.isLt (unpack b).2.isLt, BitVec.ofNat_toNat, BitVec.ofNat_toNat, BitVec.setWidth_eq,
    BitVec.setWidth_eq, headerByte_unpack]

/-- Settles O13: the value of `pack` and of `unpack` in arithmetic, and R122 in both directions. -/
theorem packAndUnpackAreInverse : Obligations.PackAndUnpackAreInverse :=
  ⟨pack_eq, unpack_eq_mod_div, fun _ _ _ => unpack_of_pack, pack_unpack⟩

end Sys2Proof.Machine
end

section
/-! ### The LEB128 decoder: from bytes to values (R134, R135, R291, R292)

`dec_uleb` is followed from turn to turn: after `k` bytes that announce another it stands at byte `k` with the
groups of those bytes. Where the bytes end the number, overflow or end is then one more turn. -/

namespace Sys2Proof.Machine

/-! #### The loop, turn by turn -/

/-- Byte `k` at `p` stands inside the source and announces another byte (R91 format `LB`). -/
def LebOpen (s : State) (p k : Nat) : Prop := p + k < s.dec.rsize ∧ (src s (p + k)).getLsbD 7 = true

/-- What `dec_uleb` has assembled from the first `k` bytes at `p` (R134). -/
def lebValue (s : State) (p : Nat) : Nat → Word
  | 0 => 0
  | k + 1 => lebValue s p k ||| (((src s (p + k)).extractLsb' 0 7).setWidth 64 <<< (7 * k))

theorem getLsbD_lebValue (s : State) (p k : Nat) {j : Nat} (hj : j < 64) :
    (lebValue s p k).getLsbD j = (decide (j < 7 * k) && (src s (p + j / 7)).getLsbD (j % 7)) := by
  induction k with
  | zero => simp [lebValue]
  | succ k ih =>
    simp only [lebValue, BitVec.getLsbD_or, ih, BitVec.getLsbD_shiftLeft, BitVec.getLsbD_setWidth,
      BitVec.getLsbD_extractLsb', hj, decide_true, Bool.true_and, Nat.zero_add]
    by_cases hold : j < 7 * k
    · simp [hold, show j < 7 * (k + 1) by omega]
    · by_cases hnew : j < 7 * (k + 1)
      · obtain ⟨hdiv, hmod⟩ : j / 7 = k ∧ j % 7 = j - 7 * k := by omega
        simp [hold, hnew, hdiv, hmod, show j - 7 * k < 64 by omega, show j - 7 * k < 7 by omega]
      · simp [hold, hnew, show ¬ j - 7 * k < 7 by omega]

/-- One turn of the loop at byte `k`: the shift test, the read, and the end or the next turn (R134). -/
theorem ulebLoop_turn (s : State) (fuel p k : Nat) :
    ulebLoop s (fuel + 1) (p + k) (lebValue s p k) (7 * k) =
      if 10 ≤ k then .error .overflow
      else if s.dec.rsize ≤ p + k then .error .truncated
      else if (src s (p + k)).getLsbD 7 then ulebLoop s fuel (p + (k + 1)) (lebValue s p (k + 1)) (7 * (k + 1))
      else .ok { value := lebValue s p (k + 1), next := p + (k + 1), shift := 7 * (k + 1), last := src s (p + k) } := by
  rw [ulebLoop]
  have hshift : 64 ≤ 7 * k ↔ 10 ≤ k := by omega
  simp only [hshift, readByte]
  by_cases hread : s.dec.rsize ≤ p + k
  · simp only [hread, if_true]
  · simp only [hread, if_false]
    rfl

/-- Open bytes only move the loop on: `dec_uleb` stands at byte `k`. -/
theorem decUleb_eq_ulebLoop {s : State} {p k : Nat} (hk : k ≤ 10) (hopen : ∀ i, i < k → LebOpen s p i) :
    decUleb s p = ulebLoop s (10 - k + 1) (p + k) (lebValue s p k) (7 * k) := by
  induction k with
  | zero => rfl
  | succ k ih =>
    obtain ⟨hin, hbit⟩ := hopen k (Nat.lt_succ_self k)
    rw [ih (by omega) fun i hi => hopen i (by omega), ulebLoop_turn, if_neg (by omega), if_neg (by omega), if_pos hbit,
      show 10 - (k + 1) + 1 = 10 - k by omega]

/-! #### The three ends -/

theorem LebAt.one_le {s : State} {p n : Nat} {v : Word} (h : LebAt s p n v) : 1 ≤ n := h.1

theorem LebAt.isOpen {s : State} {p n : Nat} {v : Word} (h : LebAt s p n v) {k : Nat} (hk : k + 1 < n) :
    LebOpen s p k := by
  obtain ⟨-, -, hin, hopen, -, -⟩ := h
  exact ⟨by omega, hopen k hk⟩

/-- The value of a spelling is what the decoder assembles from its bytes. -/
theorem LebAt.eq_lebValue {s : State} {p n : Nat} {v : Word} (h : LebAt s p n v) : v = lebValue s p n := by
  obtain ⟨-, -, -, -, -, hbits⟩ := h
  exact BitVec.eq_of_getLsbD_eq fun j hj => (hbits j hj).trans (getLsbD_lebValue s p n hj).symm

/-- Open bytes and a last byte that is not open are a spelling. -/
theorem lebAt_lebValue {s : State} {p k : Nat} (hk : k < 10) (hopen : ∀ i, i < k → LebOpen s p i)
    (hin : p + k < s.dec.rsize) (hlast : (src s (p + k)).getLsbD 7 = false) :
    LebAt s p (k + 1) (lebValue s p (k + 1)) :=
  ⟨by omega, by omega, hin, fun i hi => (hopen i (by omega)).2, hlast, fun _ hj => getLsbD_lebValue s p (k + 1) hj⟩

/-- R134 on a terminated spelling. -/
theorem decUleb_of_lebAt {s : State} {p n : Nat} {v : Word} (h : LebAt s p n v) :
    decUleb s p = .ok { value := v, next := p + n, shift := 7 * n, last := src s (p + n - 1) } := by
  have hopen := fun i => h.isOpen (k := i)
  obtain rfl := h.eq_lebValue
  obtain ⟨h1, hn, hin, -, hlast, -⟩ := h
  obtain ⟨k, rfl⟩ : ∃ k, n = k + 1 := ⟨n - 1, by omega⟩
  have hlast' : ¬ (src s (p + k)).getLsbD 7 = true := by simpa using hlast
  rw [decUleb_eq_ulebLoop (show k ≤ 10 by omega) fun i hi => hopen i (by omega), ulebLoop_turn, if_neg (by omega),
    if_neg (by omega), if_neg hlast']
  rfl

/-- R292: ten open bytes. -/
theorem decUleb_of_lebOverflows {s : State} {p : Nat} (h : LebOverflows s p) : decUleb s p = .error .overflow := by
  rw [decUleb_eq_ulebLoop (Nat.le_refl 10) h, ulebLoop_turn, if_pos (Nat.le_refl 10)]

/-- R291: the source ends after open bytes. -/
theorem decUleb_of_lebTruncated {s : State} {p : Nat} (h : LebTruncated s p) : decUleb s p = .error .truncated := by
  obtain ⟨n, hn, hend, hopen⟩ := h
  rw [decUleb_eq_ulebLoop (show n ≤ 10 by omega) fun i hi => ⟨by omega, hopen i hi⟩, ulebLoop_turn, if_neg (by omega),
    if_pos (by omega)]

/-- Settles O17: the loop reaches the last byte of a spelling, the eleventh turn, or the end of the source. -/
theorem ulebDecoderFollowsItsBytes : Obligations.UlebDecoderFollowsItsBytes := fun _ _ =>
  ⟨fun _ _ => decUleb_of_lebAt, decUleb_of_lebOverflows, fun _ => decUleb_of_lebTruncated⟩

/-! #### Only spellings are accepted -/

theorem exists_lebAt_of_ulebLoop_ok {s : State} {fuel p k : Nat} {r : UlebResult} (hopen : ∀ i, i < k → LebOpen s p i)
    (h : ulebLoop s fuel (p + k) (lebValue s p k) (7 * k) = .ok r) : ∃ n, LebAt s p n r.value := by
  induction fuel generalizing k with
  | zero => cases h
  | succ fuel ih =>
    rw [ulebLoop_turn] at h
    split at h
    case isTrue => cases h
    case isFalse hk =>
      split at h
      case isTrue => cases h
      case isFalse hin =>
        split at h
        case isTrue hbit =>
          refine ih (fun i hi => ?_) h
          rcases Nat.lt_succ_iff_lt_or_eq.1 hi with hi | rfl
          · exact hopen i hi
          · exact ⟨by omega, hbit⟩
        case isFalse hbit =>
          cases h
          exact ⟨k + 1, lebAt_lebValue (by omega) hopen (by omega) (by simpa using hbit)⟩

/-- What `dec_uleb` accepts is a spelling of what it returns. -/
theorem lebAt_of_decUleb_ok {s : State} {p : Nat} {r : UlebResult} (h : decUleb s p = .ok r) :
    ∃ n, LebAt s p n r.value ∧
      r = { value := r.value, next := p + n, shift := 7 * n, last := src s (p + n - 1) } := by
  obtain ⟨n, hn⟩ := exists_lebAt_of_ulebLoop_ok (k := 0) (fun i hi => absurd hi (Nat.not_lt_zero i)) h
  exact ⟨n, hn, Except.ok.inj (h.symm.trans (decUleb_of_lebAt hn))⟩

/-! #### The sign extension -/

/-- The sign bit of a spelling short of ten bytes is the top bit of its value. -/
theorem LebAt.getLsbD_sign {s : State} {p n : Nat} {v : Word} (h : LebAt s p n v) (hn : 7 * n ≤ 64) :
    v.getLsbD (7 * n - 1) = (src s (p + n - 1)).getLsbD 6 := by
  obtain ⟨h1, -, -, -, -, hbits⟩ := h
  rw [hbits _ (by omega), show p + (7 * n - 1) / 7 = p + n - 1 by omega, show (7 * n - 1) % 7 = 6 by omega]
  simp [show 7 * n - 1 < 7 * n by omega]

theorem LebAt.getLsbD_of_ge {s : State} {p n : Nat} {v : Word} (h : LebAt s p n v) {j : Nat} (hj : 7 * n ≤ j) :
    v.getLsbD j = false := by
  obtain ⟨-, -, -, -, -, hbits⟩ := h
  by_cases hlt : j < 64
  · simp [hbits j hlt, show ¬ j < 7 * n by omega]
  · exact BitVec.getLsbD_of_ge v j (by omega)

theorem SignExtends.unique {s : State} {p n : Nat} {v w w' : Word} (h : SignExtends s p n v w)
    (h' : SignExtends s p n v w') : w = w' :=
  BitVec.eq_of_getLsbD_eq fun j hj => (h j hj).trans (h' j hj).symm

/-- R135: the decoder's sign extension is the one of R94. -/
theorem signExtends_slebExtend {s : State} {p n q : Nat} {v : Word} (h : LebAt s p n v) :
    SignExtends s p n v (slebExtend { value := v, next := q, shift := 7 * n, last := src s (p + n - 1) }) := by
  intro j hj
  simp only [slebExtend]
  by_cases hlow : j < 7 * n
  · rw [if_pos hlow]
    split
    · simp [hlow]
    · rfl
  · have hv : v.getLsbD j = false := h.getLsbD_of_ge (by omega)
    rw [if_neg hlow]
    split
    case isTrue hneg =>
      obtain ⟨-, hsign⟩ := hneg
      rw [hsign, BitVec.getLsbD_or, hv, BitVec.getLsbD_shiftLeft, BitVec.getLsbD_allOnes]
      simp [hj, hlow, show j - 7 * n < 64 by omega]
    case isFalse hpos => simpa [hv, show 7 * n < 64 by omega] using hpos

/-- R135 on a terminated spelling. -/
theorem decSleb_of_lebAt {s : State} {p n : Nat} {v w : Word} (h : LebAt s p n v) (hw : SignExtends s p n v w) :
    decSleb s p = .ok (w, p + n) := by
  simp only [decSleb, decUleb_of_lebAt h]
  rw [hw.unique (signExtends_slebExtend h)]

theorem decSleb_of_decUleb_error {s : State} {p : Nat} {c : Cause} (h : decUleb s p = .error c) :
    decSleb s p = .error c := by
  simp only [decSleb, h]

/-- What `dec_sleb` accepts is a spelling, and what it returns is its sign-extended value. -/
theorem lebAt_of_decSleb_ok {s : State} {p p' : Nat} {w : Word} (h : decSleb s p = .ok (w, p')) :
    ∃ n v, LebAt s p n v ∧ SignExtends s p n v w ∧ p' = p + n := by
  obtain ⟨r, hr, rfl, rfl⟩ := decSleb_ok h
  obtain ⟨n, hn, heq⟩ := lebAt_of_decUleb_ok hr
  rw [heq]
  exact ⟨n, r.value, hn, signExtends_slebExtend hn, rfl⟩

end Sys2Proof.Machine
end

section
/-! ### The LEB128 encoders: what they spell, and in how many bytes (R130 to R132)

Both encoders give groups of seven bits until what is left fits one byte. They differ in what is left after a group
and in which values fit `n` bytes; the rest of the argument is said once, of both, in `LebEncoder`. -/

namespace Sys2Proof.Machine

/-! #### What the two encoders share -/

/-- The low seven bits of `v` in a byte whose bit 7 is clear. -/
def lebGroup (v : Word) : Byte := (v.extractLsb' 0 7).setWidth 8

theorem getLsbD_lebGroup (v : Word) (i : Nat) : (lebGroup v).getLsbD i = (decide (i < 7) && v.getLsbD i) := by
  simp only [lebGroup, BitVec.getLsbD_setWidth, BitVec.getLsbD_extractLsb', Nat.zero_add]
  by_cases h : i < 7
  · simp [h, show i < 8 by omega]
  · simp [h]

theorem getLsbD_open_lebGroup (v : Word) {i : Nat} (hi : i < 8) :
    (0x80#8 ||| lebGroup v).getLsbD i = (decide (i = 7) || (decide (i < 7) && v.getLsbD i)) := by
  rw [BitVec.getLsbD_or, getLsbD_lebGroup]
  have h80 : ∀ i, i < 8 → (0x80#8).getLsbD i = decide (i = 7) := by decide
  rw [h80 i hi]

/-- `bs` spells the low bits of `v`: bit `i` of byte `k` is bit `7k + i` of `v`, and every byte but the last has bit 7
set (R91 format `LB`, R94). -/
def LebSpells (bs : List Byte) (v : Word) : Prop :=
  ∀ k b, bs[k]? = some b → b.getLsbD 7 = decide (k + 1 < bs.length) ∧
    ∀ i, i < 7 → 7 * k + i < 64 → b.getLsbD i = v.getLsbD (7 * k + i)

theorem LebSpells.singleton (v : Word) : LebSpells [lebGroup v] v := by
  rintro k b hb
  obtain ⟨rfl, rfl⟩ : k = 0 ∧ b = lebGroup v := by
    cases k with
    | zero => simpa [eq_comm] using hb
    | succ k => simp at hb
  refine ⟨by rw [getLsbD_lebGroup]; simp, fun i hi _ => ?_⟩
  rw [getLsbD_lebGroup, Nat.mul_zero, Nat.zero_add, decide_eq_true hi, Bool.true_and]

theorem LebSpells.cons {bs : List Byte} {rest v : Word} (h : LebSpells bs rest) (hpos : 0 < bs.length)
    (hrest : ∀ j, 7 + j < 64 → rest.getLsbD j = v.getLsbD (7 + j)) :
    LebSpells ((0x80#8 ||| lebGroup v) :: bs) v := by
  intro k b hb
  cases k with
  | zero =>
    obtain rfl : 0x80#8 ||| lebGroup v = b := Option.some.inj hb
    refine ⟨?_, fun i hi _ => ?_⟩
    · rw [getLsbD_open_lebGroup v (by decide)]
      simp [hpos]
    · rw [getLsbD_open_lebGroup v (by omega), decide_eq_true hi, decide_eq_false (by omega), Nat.mul_zero, Nat.zero_add]
      rfl
  | succ k =>
    obtain ⟨hopen, hbits⟩ := h k b hb
    refine ⟨by rw [hopen]; simp, fun i hi hj => ?_⟩
    rw [hbits i hi (by omega), hrest _ (by omega), show 7 + (7 * k + i) = 7 * (k + 1) + i by omega]

/-- An encoder `groups`, bounded by its turns: `rest v` is what it goes on with after a group of `v`, and `Fits n v`
says that `n` bytes hold `v`. `ulebEncoder` and `slebEncoder` below are the two. -/
structure LebEncoder (groups : Nat → Word → List Byte) (rest : Word → Word) (Fits : Nat → Word → Prop) : Prop where
  ends : ∀ fuel v, Fits 1 v → groups (fuel + 1) v = [lebGroup v]
  goes_on : ∀ fuel v, ¬ Fits 1 v → groups (fuel + 1) v = (0x80#8 ||| lebGroup v) :: groups fuel (rest v)
  fits_rest : ∀ n v, 1 ≤ n → (Fits n (rest v) ↔ Fits (n + 1) v)
  fits_of_one : ∀ n v, 1 ≤ n → Fits 1 v → Fits n v
  rest_bits : ∀ v j, 7 + j < 64 → (rest v).getLsbD j = v.getLsbD (7 + j)

namespace LebEncoder

variable {groups : Nat → Word → List Byte} {rest : Word → Word} {Fits : Nat → Word → Prop}

theorem length_pos (h : LebEncoder groups rest Fits) (fuel : Nat) (v : Word) : 0 < (groups (fuel + 1) v).length := by
  by_cases h1 : Fits 1 v
  · simp [h.ends fuel v h1]
  · simp [h.goes_on fuel v h1]

/-- With turns enough, the spelling is the shortest that holds the value. -/
theorem length_le_iff (h : LebEncoder groups rest Fits) {fuel n : Nat} {v : Word} (hfit : Fits (fuel + 1) v)
    (hn : 1 ≤ n) : (groups (fuel + 1) v).length ≤ n ↔ Fits n v := by
  induction fuel generalizing n v with
  | zero => simp [h.ends 0 v hfit, hn, h.fits_of_one n v hn hfit]
  | succ fuel ih =>
    by_cases h1 : Fits 1 v
    · simp [h.ends _ v h1, hn, h.fits_of_one n v hn h1]
    · rw [h.goes_on _ v h1, List.length_cons]
      match n, hn with
      | 1, _ =>
        have := h.length_pos fuel (rest v)
        exact iff_of_false (by omega) h1
      | n + 2, _ =>
        rw [Nat.add_le_add_iff_right, ih ((h.fits_rest _ v (by omega)).2 hfit) (by omega), h.fits_rest _ v (by omega)]

/-- With turns enough, the bytes spell the low bits of the value. -/
theorem spells (h : LebEncoder groups rest Fits) {fuel : Nat} {v : Word} (hfit : Fits (fuel + 1) v) :
    LebSpells (groups (fuel + 1) v) v := by
  induction fuel generalizing v with
  | zero => exact h.ends 0 v hfit ▸ LebSpells.singleton v
  | succ fuel ih =>
    by_cases h1 : Fits 1 v
    · exact h.ends _ v h1 ▸ LebSpells.singleton v
    · rw [h.goes_on _ v h1]
      exact (ih ((h.fits_rest _ v (by omega)).2 hfit)).cons (h.length_pos fuel (rest v)) (h.rest_bits v)

end LebEncoder

/-- Over a source that holds a spelling of `v`, the low bits of `v` are what the decoder's own relation says stands
there. -/
theorem lebAt_of_sourceHolds {s : State} {p : Nat} {bs : List Byte} {u v : Word} (hs : SourceHolds s p bs)
    (h : LebSpells bs v) (hpos : 1 ≤ bs.length) (hlen : bs.length ≤ 10)
    (hu : ∀ j, j < 64 → u.getLsbD j = (decide (j < 7 * bs.length) && v.getLsbD j)) : LebAt s p bs.length u := by
  obtain ⟨hin, hbytes⟩ := hs
  have hat : ∀ k, k < bs.length → (src s (p + k)).getLsbD 7 = decide (k + 1 < bs.length) ∧
      ∀ i, i < 7 → 7 * k + i < 64 → (src s (p + k)).getLsbD i = v.getLsbD (7 * k + i) := fun k hk =>
    have hb : bs[k]? = some bs[k] := List.getElem?_eq_getElem hk
    hbytes k _ hb ▸ h k _ hb
  refine ⟨hpos, hlen, hin, fun k hk => ?_, ?_, fun j hj => ?_⟩
  · rw [(hat k (by omega)).1, decide_eq_true hk]
  · rw [Nat.add_sub_assoc hpos, (hat _ (by omega)).1, decide_eq_false (by omega)]
  · rw [hu j hj]
    by_cases hlow : j < 7 * bs.length
    · rw [(hat (j / 7) (by omega)).2 (j % 7) (by omega) (by omega), Nat.div_add_mod]
    · simp [hlow]

/-! #### Widths of values, bit by bit -/

theorem toNat_lt_two_pow_iff (v : Word) (m : Nat) :
    v.toNat < 2 ^ m ↔ ∀ j, m ≤ j → j < 64 → v.getLsbD j = false := by
  constructor
  · intro h j hj _
    exact Nat.testBit_lt_two_pow (h.trans_le (Nat.pow_le_pow_right (by decide) hj))
  · intro h
    refine Nat.lt_pow_two_of_testBit _ fun j hj => ?_
    by_cases hlt : j < 64
    · exact h j hj hlt
    · exact BitVec.getLsbD_of_ge v j (by omega)

/-- `v` is in the range of `m + 1` bits, its top bit the sign, exactly when all bits from `m` on are the sign. -/
theorem toInt_bounds_iff (v : Word) (m : Nat) :
    (-(2 : Int) ^ m ≤ v.toInt ∧ v.toInt < (2 : Int) ^ m) ↔ ∀ j, m ≤ j → j < 64 → v.getLsbD j = v.msb := by
  have hpow : (2 : Int) ^ m = ((2 ^ m : Nat) : Int) := by simp
  have hv := v.isLt
  rw [BitVec.toInt_eq_msb_cond, hpow]
  cases hmsb : v.msb with
  | false =>
    rw [← toNat_lt_two_pow_iff]
    simp only [Bool.false_eq_true, if_false]
    omega
  | true =>
    have hnot : ((~~~v).toNat < 2 ^ m) ↔ ∀ j, m ≤ j → j < 64 → v.getLsbD j = true := by
      rw [toNat_lt_two_pow_iff]
      refine forall_congr' fun j => forall_congr' fun _ => forall_congr' fun hj => ?_
      simp only [BitVec.getLsbD_not, hj, decide_true, Bool.true_and, Bool.not_eq_false']
    rw [← hnot, BitVec.toNat_not]
    simp only [if_true]
    omega

/-! #### The unsigned encoder -/

/-- `n` groups hold `v` as a natural. -/
abbrev FitsUnsigned (n : Nat) (v : Word) : Prop := v.toNat < 2 ^ (7 * n)

theorem fitsUnsigned_ten (v : Word) : FitsUnsigned 10 v := v.isLt.trans (by decide)

theorem ulebEncoder : LebEncoder ulebGroups (· >>> 7) FitsUnsigned := by
  have hrest (v : Word) : v >>> 7 = 0 ↔ FitsUnsigned 1 v := by
    rw [FitsUnsigned, ← BitVec.toNat_inj, BitVec.toNat_ushiftRight, Nat.shiftRight_eq_div_pow]
    simp only [BitVec.ofNat_eq_ofNat, BitVec.toNat_ofNat]
    omega
  refine ⟨fun fuel v h => ?_, fun fuel v h => ?_, fun n v hn => ?_, fun n v hn h => ?_, fun v j hj => ?_⟩
  · exact if_pos ((hrest v).2 h)
  · exact if_neg (mt (hrest v).1 h)
  · simp only [FitsUnsigned, BitVec.toNat_ushiftRight, Nat.shiftRight_eq_div_pow, Nat.mul_add, Nat.pow_add]
    omega
  · exact lt_of_lt_of_le h (Nat.pow_le_pow_right (by decide) (by omega))
  · exact BitVec.getLsbD_ushiftRight v 7 j

theorem length_ulebBytes_le_iff (v : Word) {n : Nat} (hn : 1 ≤ n) :
    (ulebBytes v).length ≤ n ↔ v.toNat < 2 ^ (7 * n) :=
  ulebEncoder.length_le_iff (fitsUnsigned_ten v) hn

theorem length_ulebBytes_pos (v : Word) : 1 ≤ (ulebBytes v).length := ulebEncoder.length_pos 9 v

theorem length_ulebBytes_le_ten (v : Word) : (ulebBytes v).length ≤ 10 :=
  (length_ulebBytes_le_iff v (by decide)).2 (fitsUnsigned_ten v)

/-- The canonical spelling is a spelling. -/
theorem lebAt_ulebBytes {s : State} {p : Nat} {v : Word} (h : SourceHolds s p (ulebBytes v)) :
    LebAt s p (ulebBytes v).length v := by
  refine lebAt_of_sourceHolds h (ulebEncoder.spells (fitsUnsigned_ten v)) (length_ulebBytes_pos v)
    (length_ulebBytes_le_ten v) fun j hj => ?_
  by_cases hlow : j < 7 * (ulebBytes v).length
  · simp [hlow]
  · have hlt := (length_ulebBytes_le_iff v (length_ulebBytes_pos v)).1 (Nat.le_refl _)
    rw [(toNat_lt_two_pow_iff v _).1 hlt j (by omega) hj, Bool.and_false]

/-- R130: the bit length divided by seven, rounded up. -/
theorem length_ulebBytes (v : Word) :
    (ulebBytes v).length = if v = 0 then 1 else (Nat.log2 v.toNat + 1 + 6) / 7 := by
  have hpos := length_ulebBytes_pos v
  split
  case isTrue h0 =>
    have : (ulebBytes v).length ≤ 1 := (length_ulebBytes_le_iff v (Nat.le_refl 1)).2 (by simp [h0])
    omega
  case isFalse h0 =>
    have hne : v.toNat ≠ 0 := fun h => h0 (BitVec.eq_of_toNat_eq h)
    have hiff : ∀ n, 1 ≤ n → ((ulebBytes v).length ≤ n ↔ Nat.log2 v.toNat < 7 * n) := fun n hn =>
      (length_ulebBytes_le_iff v hn).trans (Nat.log2_lt hne).symm
    have hle := (hiff ((Nat.log2 v.toNat + 1 + 6) / 7) (by omega)).2 (by omega)
    have hge := (hiff _ hpos).1 (Nat.le_refl _)
    omega

/-- Settles O15: the spelling is as long as `FitsUnsigned` asks, and every spelling of `n` bytes has a value that
fits `n` groups. -/
theorem ulebIsMinimal : Obligations.UlebIsMinimal := by
  refine ⟨length_ulebBytes, fun v => ?_, fun s p r h => ?_⟩
  · have hnine := length_ulebBytes_le_iff v (show 1 ≤ 9 by decide)
    have hten := length_ulebBytes_le_ten v
    omega
  · obtain ⟨n, hn, heq⟩ := lebAt_of_decUleb_ok h
    have hlen : (ulebBytes r.value).length ≤ n :=
      (length_ulebBytes_le_iff _ hn.one_le).2 ((toNat_lt_two_pow_iff _ _).2 fun j hj _ => hn.getLsbD_of_ge hj)
    have hnext : r.next = p + n := congrArg UlebResult.next heq
    omega

/-! #### The signed encoder -/

/-- `n` groups hold `v` as an integer, the top bit of the last the sign. -/
abbrev FitsSigned (n : Nat) (v : Word) : Prop := -(2 : Int) ^ (7 * n - 1) ≤ v.toInt ∧ v.toInt < (2 : Int) ^ (7 * n - 1)

theorem fitsSigned_ten (v : Word) : FitsSigned 10 v := by
  have hle := v.le_toInt
  have hlt := v.toInt_lt
  constructor <;> omega

/-- The residue mod 128 of R131 is the low seven bits of the pattern. -/
theorem ofInt_toInt_emod (v : Word) : BitVec.ofInt 8 (v.toInt % 128) = lebGroup v := by
  apply BitVec.eq_of_toNat_eq
  simp only [lebGroup, BitVec.toNat_ofInt, BitVec.toNat_setWidth, BitVec.extractLsb'_toNat, Nat.shiftRight_zero,
    BitVec.toInt_eq_toNat_cond]
  have hv := v.isLt
  split <;> omega

/-- The floor division by 128 of R131 is the arithmetic shift of the pattern (R142). -/
theorem toInt_sshiftRight_seven (v : Word) : (v.sshiftRight 7).toInt = v.toInt / 128 := by
  rw [BitVec.toInt_sshiftRight, Int.shiftRight_eq_div_pow]
  rfl

/-- Bit 6 of a group tells the halves of the residues mod 128 apart: the sign test of R131. -/
theorem getLsbD_lebGroup_six (v : Word) : (lebGroup v).getLsbD 6 = decide (64 ≤ v.toInt % 128) := by
  rw [getLsbD_lebGroup, decide_eq_true (show 6 < 7 by decide), Bool.true_and, BitVec.getLsbD,
    Nat.testBit_eq_decide_div_mod_eq, BitVec.toInt_eq_toNat_cond]
  have hv := v.isLt
  apply decide_eq_decide.2
  split <;> omega

/-- The test that ends the loop of `sleb_bytes` (R131) asks whether one group holds the value. -/
theorem slebGroups_ends_iff (v : Word) :
    (v.toInt / 128 = 0 ∧ (lebGroup v).getLsbD 6 = false) ∨ (v.toInt / 128 = -1 ∧ (lebGroup v).getLsbD 6 = true) ↔
      FitsSigned 1 v := by
  simp only [getLsbD_lebGroup_six, FitsSigned, decide_eq_true_eq, decide_eq_false_iff_not]
  omega

theorem slebGroups_toInt_succ (fuel : Nat) (v : Word) :
    slebGroups (fuel + 1) v.toInt =
      if FitsSigned 1 v then [lebGroup v]
      else (0x80#8 ||| lebGroup v) :: slebGroups fuel (v.sshiftRight 7).toInt := by
  simp only [slebGroups, ofInt_toInt_emod, toInt_sshiftRight_seven, slebGroups_ends_iff]

theorem slebEncoder : LebEncoder (fun fuel v => slebGroups fuel v.toInt) (·.sshiftRight 7) FitsSigned := by
  refine ⟨fun fuel v h => ?_, fun fuel v h => ?_, fun n v hn => ?_, fun n v hn h => ?_, fun v j hj => ?_⟩
  · exact (slebGroups_toInt_succ fuel v).trans (if_pos h)
  · exact (slebGroups_toInt_succ fuel v).trans (if_neg h)
  · have hpow : (2 : Int) ^ (7 * (n + 1) - 1) = 2 ^ (7 * n - 1) * 128 := by
      rw [show 7 * (n + 1) - 1 = 7 * n - 1 + 7 by omega, pow_add]
      rfl
    simp only [FitsSigned, toInt_sshiftRight_seven, hpow]
    omega
  · have hpow : (2 : Int) ^ (7 * 1 - 1) ≤ 2 ^ (7 * n - 1) := pow_le_pow_right₀ (by decide) (by omega)
    obtain ⟨hle, hlt⟩ := h
    exact ⟨by omega, by omega⟩
  · rw [BitVec.getLsbD_sshiftRight, if_pos hj, decide_eq_false (by omega)]
    rfl

theorem length_slebBytes_le_iff (v : Word) {n : Nat} (hn : 1 ≤ n) :
    (slebBytes v).length ≤ n ↔ -(2 : Int) ^ (7 * n - 1) ≤ v.toInt ∧ v.toInt < (2 : Int) ^ (7 * n - 1) :=
  slebEncoder.length_le_iff (fitsSigned_ten v) hn

theorem length_slebBytes_pos (v : Word) : 1 ≤ (slebBytes v).length := slebEncoder.length_pos 9 v

theorem length_slebBytes_le_ten (v : Word) : (slebBytes v).length ≤ 10 :=
  (length_slebBytes_le_iff v (by decide)).2 (fitsSigned_ten v)

/-- The canonical spelling of `v` is a spelling whose sign-extended value is `v`. -/
theorem lebAt_slebBytes {s : State} {p : Nat} {v : Word} (h : SourceHolds s p (slebBytes v)) :
    ∃ u, LebAt s p (slebBytes v).length u ∧ SignExtends s p (slebBytes v).length u v := by
  have hbits : ∀ j, j < 64 → ((v.setWidth (7 * (slebBytes v).length)).setWidth 64).getLsbD j =
      (decide (j < 7 * (slebBytes v).length) && v.getLsbD j) := fun j hj => by
    simp only [BitVec.getLsbD_setWidth, hj, decide_true, Bool.true_and]
  have hat := lebAt_of_sourceHolds h (slebEncoder.spells (fitsSigned_ten v)) (length_slebBytes_pos v)
    (length_slebBytes_le_ten v) hbits
  have hpos := length_slebBytes_pos v
  refine ⟨_, hat, fun j hj => ?_⟩
  split
  case isTrue hlow => rw [hbits j hj, decide_eq_true hlow, Bool.true_and]
  case isFalse hlow =>
    have hsign := (toInt_bounds_iff v _).1 ((length_slebBytes_le_iff v hpos).1 (Nat.le_refl _))
    rw [← hat.getLsbD_sign (by omega), hbits _ (by omega), decide_eq_true (by omega), Bool.true_and,
      hsign j (by omega) hj, hsign _ (Nat.le_refl _) (by omega)]

/-- The sign-extended value of an `n`-byte spelling is in the range of `n` groups. -/
theorem fitsSigned_of_signExtends {s : State} {p n : Nat} {u v : Word} (h : LebAt s p n u)
    (hv : SignExtends s p n u v) (hn : 7 * n ≤ 64) : FitsSigned n v := by
  have hpos := h.one_le
  have hsign : ∀ j, 7 * n - 1 ≤ j → j < 64 → v.getLsbD j = (src s (p + n - 1)).getLsbD 6 := fun j hle hj => by
    rw [hv j hj]
    split
    case isTrue hlow => rw [show j = 7 * n - 1 by omega, h.getLsbD_sign hn]
    case isFalse => rfl
  refine (toInt_bounds_iff v _).2 fun j hle hj => ?_
  rw [hsign j hle hj, BitVec.msb_eq_getLsbD_last, hsign 63 (by omega) (by decide)]

/-- Settles O16: the spelling is as long as `FitsSigned` asks, and every spelling of fewer than ten bytes has a
value that fits its groups. -/
theorem slebIsMinimal : Obligations.SlebIsMinimal := by
  refine ⟨fun v => ⟨length_slebBytes_pos v, length_slebBytes_le_ten v, fun n => length_slebBytes_le_iff v⟩,
    fun s p v p' h => ?_⟩
  obtain ⟨n, u, hn, hv, rfl⟩ := lebAt_of_decSleb_ok h
  by_cases hten : n < 10
  · have := (length_slebBytes_le_iff v hn.one_le).2 (fitsSigned_of_signExtends hn hv (by omega))
    omega
  · have := length_slebBytes_le_ten v
    omega

/-! #### The round trips -/

/-- Settles O14: what an encoder wrote is a spelling of its argument, and on spellings the decoders answer the
value. -/
theorem lebRoundTrips : Obligations.LebRoundTrips := fun s p v => by
  refine ⟨fun h => ⟨_, decUleb_of_lebAt (lebAt_ulebBytes h), rfl, rfl, rfl⟩, fun h => ?_⟩
  obtain ⟨u, hu, hv⟩ := lebAt_slebBytes h
  exact ⟨v, decSleb_of_lebAt hu hv, rfl, rfl⟩

end Sys2Proof.Machine
end

section
/-! ### The LEB128 fields, added and delivered (R136 to R139) -/

namespace Sys2Proof.Machine

/-! #### What every `ADD_*` but `ADD_VECTOR` does -/

/-- The end of an `ADD_*` whose field fits (R222). -/
theorem addBytes_of_le {bs : List Byte} {e : Enc} (h : e.wpos + bs.length ≤ e.wcap) :
    addBytes bs e =
      .ok ({ e with wbuf := Memory.writeList e.wbuf e.wpos bs, wpos := e.wpos + bs.length, vvalid := false },
        .ok 0 0) := by
  simp only [addBytes, emitField, Nat.add_zero, if_neg (Nat.not_lt.2 h)]

theorem addBytes_of_lt {bs : List Byte} {e : Enc} (h : e.wcap < e.wpos + bs.length) :
    addBytes bs e = .error .capacityExceeded := by
  simp only [addBytes, emitField, Nat.add_zero, if_pos h]

/-- A command that ends in `addBytes bs` adds the field `bs`. -/
theorem addsField_of_exec_eq {i : Instr} {bs : List Byte} {s : State}
    (hi : exec i s = encCommand (fun s => addBytes bs s.enc) s) : AddsField i s bs := by
  refine ⟨fun hf => ?_, fun hf hfit => ?_, fun hf hfull => ?_⟩
  · rw [LeavesEnc, hi, encCommand, if_pos hf]
    rfl
  · have hrun : exec i s = .next (answerEnc (.okWith 0 0) (s.withEnc { s.enc with
        wbuf := Memory.writeList s.enc.wbuf s.enc.wpos bs, wpos := s.enc.wpos + bs.length, vvalid := false })) := by
      simp only [hi, encCommand, hf, addBytes_of_le hfit, Reply.response, Bool.false_eq_true, if_false]
    refine ⟨_, hrun, rfl, fun k b hb => ?_, fun a ha => ?_⟩
    · obtain ⟨hk, -⟩ := List.getElem?_eq_some_iff.1 hb
      have hin : s.enc.wpos ≤ s.enc.wpos + k ∧ s.enc.wpos + k < s.enc.wpos + bs.length := by omega
      simp only [wbufByte, answerEnc_enc, answerEnc_epoch, State.withEnc_enc, State.withEnc_epoch,
        Memory.read_writeList, if_pos hin, Nat.add_sub_cancel_left, hb, Option.getD_some]
    · have hout : ¬ (s.enc.wpos ≤ a ∧ a < s.enc.wpos + bs.length) := by omega
      simp only [wbufByte, answerEnc_enc, answerEnc_epoch, State.withEnc_enc, State.withEnc_epoch,
        Memory.read_writeList, if_neg hout]
  · simp only [LeavesEnc, hi, encCommand, hf, addBytes_of_lt hfull, Bool.false_eq_true, if_false]
    rfl

/-- Settles O19: both commands end in `addBytes` of header and spelling. -/
theorem lebFieldsAreAdded : Obligations.LebFieldsAreAdded := fun s v =>
  ⟨addsField_of_exec_eq (congrArg (encCommand · s) (funext (addLeb_eq (show 8 < 16 by decide) (ulebBytes v)))),
    addsField_of_exec_eq (congrArg (encCommand · s) (funext (addLeb_eq (show 9 < 16 by decide) (slebBytes v))))⟩

/-! #### What a pull of a field does -/

/-- In a pass with a header under the cursor, a field is its arm's commit (R260). -/
theorem leavesDec_of_arm_ok {i : Instr} {arm : Arm} {s : State} {c : Commit} (hlive : Live s)
    (hp : s.dec.rpos < s.dec.rsize) (hi : exec i s = nextField arm s) (hc : arm s s.dec.rpos = .ok c) :
    LeavesDec i s (delivered c (if c.ltype = 15 then .done else .decoding) s) := by
  have hstep : fieldStep arm s = .ok { s.dec.commit c with dstate := if c.ltype = 15 then .done else .decoding } := by
    simp only [fieldStep, if_neg (Nat.not_le.2 hp), hc]
    rfl
  rw [LeavesDec, hi]
  rcases hlive with hd | hd <;> simp only [nextField, hd, hstep] <;> rfl

/-- In a pass with a header under the cursor, a field raises what its arm raises (R260, R296). -/
theorem leavesDec_of_arm_error {i : Instr} {arm : Arm} {s : State} {c : Cause} (hlive : Live s)
    (hp : s.dec.rpos < s.dec.rsize) (hi : exec i s = nextField arm s) (hc : arm s s.dec.rpos = .error c) :
    LeavesDec i s (decRaised [] c s) := by
  have hstep : fieldStep arm s = .error c := by
    simp only [fieldStep, if_neg (Nat.not_le.2 hp), hc]
  rw [LeavesDec, hi]
  rcases hlive with hd | hd <;> simp only [nextField, hd, hstep] <;> rfl

/-! #### The two LEB128 arms -/

theorem armUleb128_of_lebAt (m : Nibble) {s : State} {p n : Nat} {v : Word} (h : LebAt s (p + 1) n v) :
    armUleb128 m s p =
      .ok { ltype := 8, lvalue := v, lsize := 8, lrefk := .temp, loff := 0, rpos := p + 1 + n } := by
  simp only [armUleb128, decUleb_of_lebAt h]

theorem armSleb128_of_lebAt (m : Nibble) {s : State} {p n : Nat} {v w : Word} (h : LebAt s (p + 1) n v)
    (hw : SignExtends s (p + 1) n v w) :
    armSleb128 m s p =
      .ok { ltype := 9, lvalue := w, lsize := 8, lrefk := .temp, loff := 0, rpos := p + 1 + n } := by
  simp only [armSleb128, decSleb_of_lebAt h hw]

theorem armUleb128_of_error (m : Nibble) {s : State} {p : Nat} {c : Cause} (h : decUleb s (p + 1) = .error c) :
    armUleb128 m s p = .error c := by
  simp only [armUleb128, h]

theorem armSleb128_of_error (m : Nibble) {s : State} {p : Nat} {c : Cause} (h : decUleb s (p + 1) = .error c) :
    armSleb128 m s p = .error c := by
  simp only [armSleb128, decSleb_of_decUleb_error h]

/-- Both fields raise what `dec_uleb` raises behind the header. -/
theorem lebField_raises {i : Instr} {m : Nibble} {s : State} {c : Cause} (hlive : Live s)
    (hp : s.dec.rpos < s.dec.rsize) (hi : i ∈ [Instr.uleb128 m, .sleb128 m])
    (hc : decUleb s (s.dec.rpos + 1) = .error c) : LeavesDec i s (decRaised [] c s) := by
  obtain rfl | rfl : i = .uleb128 m ∨ i = .sleb128 m := by simpa using hi
  · exact leavesDec_of_arm_error hlive hp rfl (armUleb128_of_error m hc)
  · exact leavesDec_of_arm_error hlive hp rfl (armSleb128_of_error m hc)

/-- Settles O37: the arms are the two decoders behind the header. -/
theorem lebFieldsAreDelivered : Obligations.LebFieldsAreDelivered := fun s m hlive hp => by
  refine ⟨fun n v h => ⟨?_, fun w hw => ?_⟩, fun i hi => ⟨fun h => ?_, fun h => ?_⟩⟩
  · exact leavesDec_of_arm_ok hlive hp rfl (armUleb128_of_lebAt m h)
  · exact leavesDec_of_arm_ok hlive hp rfl (armSleb128_of_lebAt m h hw)
  · exact lebField_raises hlive hp hi (decUleb_of_lebOverflows h)
  · exact lebField_raises hlive hp hi (decUleb_of_lebTruncated h)

end Sys2Proof.Machine
end

section
/-! ### The fixed-width fields, added (R150, R154 to R159, R170 to R174) -/

namespace Sys2Proof.Machine

/-- The command that adds a field of kind `k` (R154 to R159, R170 to R173). -/
def FixedKind.addInstr (v : Word) : FixedKind → Instr
  | .int8 => .addInt8 v
  | .uint8 => .addUint8 v
  | .int16 => .addInt16 v
  | .uint16 => .addUint16 v
  | .int32 => .addInt32 v
  | .uint32 => .addUint32 v
  | .int64 => .addInt64 v
  | .uint64 => .addUint64 v
  | .float32 => .addFloat32 v
  | .float64 => .addFloat64 v

theorem exec_addInstr (k : FixedKind) (v : Word) (s : State) :
    exec (k.addInstr v) s = encCommand (addFixed k v) s := by cases k <;> rfl

/-- R150: `le_bytes` lists the bytes of the value from the low end. -/
theorem leBytes_eq_map_byteAt (v : Word) (w : Nat) : leBytes v w = (List.range w).map (byteAt v) := rfl

/-- R174: header with metadata 0, then the low bytes of the argument. -/
theorem addFixed_eq_addBytes (k : FixedKind) (v : Word) (s : State) :
    addFixed k v s = addBytes (BitVec.ofNat 8 k.tag :: (List.range k.width).map (byteAt v)) s.enc := by
  have hheader : headerByte (BitVec.ofNat 4 k.tag) 0 = BitVec.ofNat 8 k.tag := headerByte_ofNat 0 k.tag_lt
  rw [addFixed_eq, hheader, leBytes_eq_map_byteAt]

theorem addsField_fixed (k : FixedKind) (s : State) (v : Word) :
    AddsField (k.addInstr v) s (BitVec.ofNat 8 k.tag :: (List.range k.width).map (byteAt v)) :=
  addsField_of_exec_eq <|
    (exec_addInstr k v s).trans (congrArg (encCommand · s) (funext (addFixed_eq_addBytes k v)))

/-- Settles O18: one rule for the ten kinds, read at each of them. -/
theorem fixedWidthFieldsAreAdded : Obligations.FixedWidthFieldsAreAdded := fun s v =>
  ⟨addsField_fixed .int8 s v, addsField_fixed .uint8 s v, addsField_fixed .int16 s v, addsField_fixed .uint16 s v,
    addsField_fixed .int32 s v, addsField_fixed .uint32 s v, addsField_fixed .int64 s v, addsField_fixed .uint64 s v,
    addsField_fixed .float32 s v, addsField_fixed .float64 s v⟩

end Sys2Proof.Machine
end

section
/-! ### The fixed-width fields, delivered (R151 to R153, R160 to R169) -/

namespace Sys2Proof.Machine

/-! #### The pattern of a payload, at its own width -/

/-- The bytes of a list side by side, the first least significant: the pattern of R151 before it is widened. -/
def lePattern : (bs : List Byte) → BitVec (8 * bs.length)
  | [] => 0
  | [b] => b
  | b :: b' :: bs => (lePattern (b' :: bs) ++ b : BitVec (8 * (bs.length + 1) + 8))

/-- A byte below a pattern, widened: how `leValue` puts a byte in front. -/
theorem setWidth_append_byte {w : Nat} (x : BitVec w) (b : Byte) :
    (x ++ b).setWidth 64 = b.setWidth 64 ||| (x.setWidth 64 <<< 8) := by
  ext j hj
  simp only [BitVec.getElem_setWidth, BitVec.getLsbD_append, BitVec.getElem_or, BitVec.getElem_shiftLeft]
  by_cases h8 : j < 8
  · simp [h8]
  · simp [h8, BitVec.getLsbD_of_ge b j (Nat.not_lt.1 h8)]

/-- `leValue` is the pattern widened with zeros. -/
theorem leValue_eq_setWidth_lePattern (bs : List Byte) : leValue bs = (lePattern bs).setWidth 64 := by
  induction bs using lePattern.induct with
  | case1 => rfl
  | case2 b => simp [leValue, lePattern]
  | case3 b b' bs ih =>
    calc leValue (b :: b' :: bs)
        = b.setWidth 64 ||| (leValue (b' :: bs) <<< 8) := rfl
      _ = (lePattern (b' :: bs) ++ b).setWidth 64 := by rw [ih, setWidth_append_byte]

/-- R45: a pattern as the value delivered, sign- or zero-extended. -/
def widen (signed : Bool) {w : Nat} (x : BitVec w) : Word := if signed then x.signExtend 64 else x.setWidth 64

/-- Extending the low `8w` bits of the value of `w` bytes is extending their pattern. -/
theorem extendTo64_leValue (signed : Bool) {bs : List Byte} {w : Nat} (hw : bs.length = w) (h8 : w ≤ 8) :
    extendTo64 signed w (leValue bs) = widen signed (lePattern bs) := by
  subst hw
  have hlow : (leValue bs).setWidth (8 * bs.length) = lePattern bs := by
    rw [leValue_eq_setWidth_lePattern, BitVec.setWidth_setWidth_of_le _ (by omega), BitVec.setWidth_eq]
  rw [extendTo64, hlow, widen]

/-! #### The arm of a fixed-width field -/

theorem readBytes_of_le {s : State} {p n : Nat} (h : p + n ≤ s.dec.rsize) :
    readBytes s p n = .ok ((List.range n).map fun i => src s (p + i)) := if_neg (by omega)

theorem readBytes_of_lt {s : State} {p n : Nat} (hp : p ≤ s.dec.rsize) (h : s.dec.rsize < p + n) :
    readBytes s p n = .error .truncated := if_pos (by omega)

theorem FixedKind.width_le (k : FixedKind) : k.width ≤ 8 := by cases k <;> decide

/-- No fixed-width field ends the pass. -/
theorem FixedKind.tag_ne_eof (k : FixedKind) : BitVec.ofNat 4 k.tag ≠ 15 := by cases k <;> decide

/-- The value a field of kind `k` delivers whose payload begins at offset `p` (R152, R153). -/
def FixedKind.valueAt (k : FixedKind) (s : State) (p : Nat) : Word :=
  widen k.signed (lePattern ((List.range k.width).map fun i => src s (p + i)))

theorem armFixed_of_le {k : FixedKind} {s : State} {p : Nat} (h : p + 1 + k.width ≤ s.dec.rsize) :
    armFixed k s p =
      .ok { ltype := BitVec.ofNat 4 k.tag, lvalue := k.valueAt s (p + 1), lsize := k.width, lrefk := .inbuf,
            loff := p + 1, rpos := p + 1 + k.width } := by
  simp only [armFixed, readBytes_of_le h, FixedKind.valueAt]
  rw [extendTo64_leValue k.signed (by simp) k.width_le]

theorem armFixed_of_lt {k : FixedKind} {s : State} {p : Nat} (hp : p < s.dec.rsize)
    (h : s.dec.rsize < p + 1 + k.width) : armFixed k s p = .error .truncated := by
  simp only [armFixed, readBytes_of_lt hp h]

/-! #### The ten wire types -/

/-- The wire row of kind `k` (R160 to R169). -/
def FixedKind.fieldInstr (m : Nibble) : FixedKind → Instr
  | .int8 => .int8 m
  | .uint8 => .uint8 m
  | .int16 => .int16 m
  | .uint16 => .uint16 m
  | .int32 => .int32 m
  | .uint32 => .uint32 m
  | .int64 => .int64 m
  | .uint64 => .uint64 m
  | .float32 => .float32 m
  | .float64 => .float64 m

theorem exec_fieldInstr (k : FixedKind) (m : Nibble) (s : State) :
    exec (k.fieldInstr m) s = nextField (armFixed k) s := by cases k <;> rfl

theorem scalarField_fixed (k : FixedKind) (m : Nibble) {s : State} (hlive : Live s) (hp : s.dec.rpos < s.dec.rsize) :
    ScalarField (k.fieldInstr m) s (BitVec.ofNat 4 k.tag) k.width (k.valueAt s (s.dec.rpos + 1)) := by
  refine ⟨fun hwhole => ?_, fun hshort => ?_⟩
  · have h := leavesDec_of_arm_ok hlive hp (exec_fieldInstr k m s) (armFixed_of_le hwhole)
    rwa [if_neg k.tag_ne_eof] at h
  · exact leavesDec_of_arm_error hlive hp (exec_fieldInstr k m s) (armFixed_of_lt hp hshort)

/-- Settles O36: one rule for the ten kinds. At each width the pattern of the payload evaluates to the
concatenation of its bytes, and a pattern of 64 bits is its own extension. -/
theorem fixedWidthFieldsAreDelivered : Obligations.FixedWidthFieldsAreDelivered := fun s m hlive hp => by
  have hfield (k : FixedKind) {v : Word} (hv : k.valueAt s (s.dec.rpos + 1) = v) :
      ScalarField (k.fieldInstr m) s (BitVec.ofNat 4 k.tag) k.width v := hv ▸ scalarField_fixed k m hlive hp
  exact ⟨hfield .int8 rfl, hfield .uint8 rfl, hfield .int16 rfl, hfield .uint16 rfl, hfield .int32 rfl,
    hfield .uint32 rfl, hfield .int64 (BitVec.signExtend_eq _), hfield .uint64 (BitVec.setWidth_eq _),
    hfield .float32 rfl, hfield .float64 (BitVec.setWidth_eq _)⟩

end Sys2Proof.Machine
end

section
/-! ### The SHORT field, added and delivered (R180, R182) -/

namespace Sys2Proof.Machine

/-! #### What an `ENC` command does that does not complete -/

/-- In the Fault state a command answers the latched cause (R297). -/
theorem leavesEnc_of_efault {i : Instr} {body : State → Except Cause (Enc × Reply)} {s : State}
    (hi : exec i s = encCommand body s) (hf : s.enc.efault = true) : LeavesEnc i s (encLatched s) := by
  rw [LeavesEnc, hi, encCommand, if_pos hf]
  rfl

/-- Outside the Fault state a command raises what its body raises (R296). -/
theorem leavesEnc_of_body_error {i : Instr} {body : State → Except Cause (Enc × Reply)} {s : State} {c : Cause}
    (hi : exec i s = encCommand body s) (hf : s.enc.efault = false) (hc : body s = .error c) :
    LeavesEnc i s (encRaised c s) := by
  simp only [LeavesEnc, hi, encCommand, hf, hc, Bool.false_eq_true, if_false]
  rfl

/-! #### `ADD_SHORT` -/

/-- R103: `arg[7:0]` as a number. -/
theorem toNat_lowByte (v : Word) : (lowByte v).toNat = v.toNat % 256 := BitVec.extractLsb'_toNat 0 8 v

theorem addShortBody_of_le {v : Word} (h : v.toNat % 256 ≤ 15) (s : State) :
    addShortBody v s = addBytes [BitVec.ofNat 8 (12 + 16 * (v.toNat % 256))] s.enc := by
  have hheader : headerByte 12 (BitVec.ofNat 4 (v.toNat % 256)) = BitVec.ofNat 8 (12 + 16 * (v.toNat % 256)) :=
    headerByte_ofNat (v.toNat % 256) (show 12 < 16 by decide)
  rw [addShortBody_eq, toNat_lowByte, if_neg (Nat.not_lt.2 h), hheader]

/-- The argument check asks nothing of the state, so it comes before any capacity check (D37). -/
theorem addShortBody_of_lt {v : Word} (h : 15 < v.toNat % 256) (s : State) :
    addShortBody v s = .error .invalidArgument := by
  rw [addShortBody_eq, toNat_lowByte, if_pos h]

/-- Settles O20: up to 15 the body is `addBytes` of the header, above it the argument check raises. -/
theorem shortFieldsAreAdded : Obligations.ShortFieldsAreAdded := fun s v => by
  have hi : exec (.addShort v) s = encCommand (addShortBody v) s := rfl
  refine ⟨fun hsmall => ?_, fun hlarge => ⟨fun hf => ?_, fun hf => ?_⟩⟩
  · exact addsField_of_exec_eq (hi.trans (congrArg (encCommand · s) (funext (addShortBody_of_le hsmall))))
  · exact leavesEnc_of_efault hi hf
  · exact leavesEnc_of_body_error hi hf (addShortBody_of_lt hlarge s)

/-! #### The field -/

/-- Settles O38: the arm reads nothing behind the header, so it commits in every pass with a header left. -/
theorem shortFieldsAreDelivered : Obligations.ShortFieldsAreDelivered := fun s m hlive hp =>
  have harm : armShort m s s.dec.rpos =
      .ok { ltype := 12, lvalue := m.setWidth 64, lsize := 1, lrefk := .inbuf, loff := s.dec.rpos,
            rpos := s.dec.rpos + 1 } := rfl
  leavesDec_of_arm_ok hlive hp rfl harm

end Sys2Proof.Machine
end

section
/-! ### The VECTOR field, added and filled (R190, R192) -/

namespace Sys2Proof.Machine

/-! #### What an `ENC` command does that completes -/

/-- Outside the Fault state a command that does not raise leaves `ENC` as its body says, and answers. -/
theorem leavesEnc_of_body_ok {i : Instr} {body : State → Except Cause (Enc × Reply)} {s : State} {e : Enc} {r : Reply}
    (hi : exec i s = encCommand body s) (hf : s.enc.efault = false) (hb : body s = .ok (e, r)) :
    LeavesEnc i s { e with resp := some r.response } := by
  simp only [LeavesEnc, hi, encCommand, hf, hb, Bool.false_eq_true, if_false]
  rfl

theorem wbufByte_withEnc_of_writeList {s : State} {e : Enc} {bs : List Byte}
    (hw : e.wbuf = Memory.writeList s.enc.wbuf s.enc.wpos bs) (a : Nat) :
    wbufByte (s.withEnc e) a =
      if s.enc.wpos ≤ a ∧ a < s.enc.wpos + bs.length
      then (bs[a - s.enc.wpos]?).getD (Config.freeWbufByte s.epoch a) else wbufByte s a := by
  simp only [wbufByte, State.withEnc_enc, State.withEnc_epoch, hw, Memory.read_writeList]
  split <;> rfl

theorem wbufByte_withEnc_of_write {s : State} {e : Enc} {p : Nat} {b : Byte}
    (hw : e.wbuf = Memory.write s.enc.wbuf p b) (a : Nat) :
    wbufByte (s.withEnc e) a = if a = p then b else wbufByte s a := by
  simp only [wbufByte, State.withEnc_enc, State.withEnc_epoch, hw, Memory.read_write]
  split <;> rfl

/-- A command that leaves `bs` at the write position and the cursor `tail` bytes behind them emits them. -/
theorem emits_of_leavesEnc {i : Instr} {s : State} {e : Enc} {bs : List Byte} {tail base len : Nat} {valid : Bool}
    {r0 r1 : Word} (h : LeavesEnc i s e) (hw : e.wbuf = Memory.writeList s.enc.wbuf s.enc.wpos bs)
    (he : e = { s.enc with
      wbuf := e.wbuf, wpos := s.enc.wpos + bs.length + tail, vvalid := valid, vbase := base, vlen := len,
      resp := some (okResponse r0 r1) }) :
    Emits i s bs tail valid base len r0 r1 := by
  refine ⟨s.withEnc e, h, congrArg s.withEnc he, fun k b hb => ?_, fun a ha => ?_⟩
  · obtain ⟨hk, -⟩ := List.getElem?_eq_some_iff.1 hb
    rw [wbufByte_withEnc_of_writeList hw, if_pos (by omega), Nat.add_sub_cancel_left, hb, Option.getD_some]
  · rw [wbufByte_withEnc_of_writeList hw, if_neg (by omega)]

/-! #### `ADD_VECTOR` -/

/-- R190: a length below 15 stands in the header, a larger one behind the large flag. -/
theorem vectorHeader_eq (n : Word) :
    vectorHeader n =
      .ok (if n.toNat < 15 then [BitVec.ofNat 8 (13 + 16 * n.toNat)] else 0xFD#8 :: ulebBytes n) := by
  simp only [vectorHeader]
  split
  · rw [pack_of_lt (show 13 < 16 by decide) (by omega), headerByte_ofNat _ (show 13 < 16 by decide)]
  · rw [pack_of_lt (show 13 < 16 by decide) (show 15 < 16 by decide), headerByte_ofNat _ (show 13 < 16 by decide)]

/-- `ADD_VECTOR` when header, length and span fit (R190). -/
theorem addVectorBody_of_le {n : Word} {s : State} {hdr : List Byte} (hh : vectorHeader n = .ok hdr)
    (hfit : s.enc.wpos + hdr.length + n.toNat ≤ s.enc.wcap) :
    addVectorBody n s = .ok
      ({ s.enc with
          wbuf := Memory.writeList s.enc.wbuf s.enc.wpos hdr, wpos := s.enc.wpos + hdr.length + n.toNat,
          vvalid := true, vbase := s.enc.wpos + hdr.length, vlen := n.toNat },
        .ok (BitVec.ofNat 64 (s.enc.wpos + hdr.length)) n) := by
  obtain ⟨hdr', hh', ⟨hfull, -⟩ | ⟨-, hb⟩⟩ := addVectorBody_cases n s <;> cases hh.symm.trans hh'
  · omega
  · rw [hb, Nat.add_assoc]

theorem addVectorBody_of_lt {n : Word} {s : State} {hdr : List Byte} (hh : vectorHeader n = .ok hdr)
    (hfull : s.enc.wcap < s.enc.wpos + hdr.length + n.toNat) :
    addVectorBody n s = .error .capacityExceeded := by
  obtain ⟨hdr', hh', ⟨-, hb⟩ | ⟨hfit, -⟩⟩ := addVectorBody_cases n s <;> cases hh.symm.trans hh'
  · exact hb
  · omega

/-- Settles O21: only header and length are written, so the span bytes are among those the command keeps. -/
theorem vectorSpansAreReserved : Obligations.VectorSpansAreReserved := fun s n hdr hhdr => by
  have hi : exec (.addVector n) s = encCommand (addVectorBody n) s := rfl
  have hh : vectorHeader n = .ok hdr := hhdr ▸ vectorHeader_eq n
  refine ⟨fun hf => ?_, fun hf hfit => ?_, fun hf hfull => ?_⟩
  · exact leavesEnc_of_efault hi hf
  · exact emits_of_leavesEnc (leavesEnc_of_body_ok hi hf (addVectorBody_of_le hh hfit)) rfl rfl
  · exact leavesEnc_of_body_error hi hf (addVectorBody_of_lt hh hfull)

/-! #### `ENC_FILL` -/

theorem encFillBody_of_outside {idx : Word} {s : State} (h : s.enc.vvalid = false ∨ s.enc.vlen ≤ idx.toNat)
    (b : Word) : encFillBody idx b s = .ok (s.enc, .refused) := if_pos h

theorem encFillBody_of_inside {idx : Word} {s : State} (hvalid : s.enc.vvalid = true) (hidx : idx.toNat < s.enc.vlen)
    (b : Word) :
    encFillBody idx b s =
      .ok ({ s.enc with wbuf := Memory.write s.enc.wbuf (s.enc.vbase + idx.toNat) (byteAt b 0) }, .ok 0 0) :=
  if_neg (by simp [hvalid, hidx])

/-- Settles O25: inside the span the body is one write, outside it leaves the encoder alone. -/
theorem encFillWritesTheSpan : Obligations.EncFillWritesTheSpan := fun s idx b => by
  have hi : exec (.encFill idx b) s = encCommand (encFillBody idx b) s := rfl
  refine ⟨fun hf => ?_, fun hf hout => ?_, fun hf hvalid hidx => ?_⟩
  · exact leavesEnc_of_efault hi hf
  · exact leavesEnc_of_body_ok hi hf (encFillBody_of_outside hout b)
  · have hleaves := leavesEnc_of_body_ok hi hf (encFillBody_of_inside hvalid hidx b)
    exact ⟨_, hleaves, rfl, wbufByte_withEnc_of_write rfl⟩

end Sys2Proof.Machine
end

section
/-! ### The VECTOR field, delivered (R195) -/

namespace Sys2Proof.Machine

/-- What a vector field commits whose `length` payload bytes begin at offset `p` (R195). -/
def viewCommit (length p : Nat) : Commit :=
  { ltype := 13, lvalue := BitVec.ofNat 64 p, lsize := length, lrefk := .inbuf, loff := p, rpos := p + length }

theorem commitView_of_le {length p : Nat} {s : State} (h : p + length ≤ s.dec.rsize) :
    commitView length p s = .ok (viewCommit length p) := if_neg (by omega)

theorem commitView_of_lt {length p : Nat} {s : State} (hp : p ≤ s.dec.rsize) (h : s.dec.rsize < p + length) :
    commitView length p s = .error .truncated := if_pos (by omega)

theorem armVectorLarge_of_lebAt {s : State} {p n : Nat} {v : Word} (h : LebAt s (p + 1) n v) :
    armVectorLarge s p = commitView v.toNat (p + 1 + n) s := by
  simp only [armVectorLarge, decUleb_of_lebAt h]

/-- The faults of the length come before any check of the payload (R299). -/
theorem armVectorLarge_of_error {s : State} {p : Nat} {c : Cause} (h : decUleb s (p + 1) = .error c) :
    armVectorLarge s p = .error c := by
  simp only [armVectorLarge, h]

/-- A field whose arm ends in the view of the `length` bytes at `p` delivers that view, or raises `Truncated` where
they are not all there. -/
theorem leavesDec_of_arm_eq_commitView {i : Instr} {arm : Arm} {s : State} {length p : Nat} (hlive : Live s)
    (hp : s.dec.rpos < s.dec.rsize) (hi : exec i s = nextField arm s)
    (harm : arm s s.dec.rpos = commitView length p s) (hstart : p ≤ s.dec.rsize) :
    (p + length ≤ s.dec.rsize → LeavesDec i s (delivered (viewCommit length p) .decoding s)) ∧
    (s.dec.rsize < p + length → LeavesDec i s (decRaised [] .truncated s)) :=
  ⟨fun hwhole => leavesDec_of_arm_ok hlive hp hi (harm.trans (commitView_of_le hwhole)),
    fun hshort => leavesDec_of_arm_error hlive hp hi (harm.trans (commitView_of_lt hstart hshort))⟩

/-- Settles O39: both arms end in a view, at the byte behind the header or behind the length; either offset lies
within the source, the second because an accepted spelling does. -/
theorem vectorFieldsAreDelivered : Obligations.VectorFieldsAreDelivered := fun s hlive hp => by
  refine ⟨fun m _ => ?_, fun n v h => ?_, fun h => ?_, fun h => ?_⟩
  · exact leavesDec_of_arm_eq_commitView (arm := armVector m) hlive hp rfl rfl hp
  · obtain ⟨-, -, hstart, -⟩ := id h
    exact leavesDec_of_arm_eq_commitView hlive hp rfl (armVectorLarge_of_lebAt h) hstart
  · exact leavesDec_of_arm_error hlive hp rfl (armVectorLarge_of_error (decUleb_of_lebOverflows h))
  · exact leavesDec_of_arm_error hlive hp rfl (armVectorLarge_of_error (decUleb_of_lebTruncated h))

end Sys2Proof.Machine
end

section
/-! ### The EOF field, added and delivered (R210, R212) -/

namespace Sys2Proof.Machine

/-- Settles O22: `ADD_EOF` ends in `addBytes` of the header byte of type 15 and metadata 0. -/
theorem eofFieldsAreAdded : Obligations.EofFieldsAreAdded := fun s => by
  have hheader : headerByte 15 0 = 0x0F#8 := by decide
  have hbody : addEofBody = fun s => addBytes [0x0F#8] s.enc := funext fun s => by rw [addEofBody_eq, hheader]
  exact addsField_of_exec_eq (congrArg (encCommand · s) hbody)

/-- In `Done` a pull answers EOF again (R263). -/
theorem leavesDec_decNext_of_done {s : State} (h : s.dec.dstate = .done) :
    LeavesDec .decNext s { s.dec with resp := some (okResponse 15 0), events := [] } := by
  have hrun : nextField armAt s = .next (answerDec [] (.okWith 15 0) s) := by simp only [nextField, h]
  exact hrun

/-- In `Done` a run gives the terminal event alone (R271). -/
theorem leavesDec_decRun_of_done {s : State} (h : s.dec.dstate = .done) :
    LeavesDec .decRun s { s.dec with resp := some (okResponse 0 0), events := [terminalEvent] } := by
  have hrun : execDecRun s = .next (runEnd 0 [] s) := by
    simp only [execDecRun, runLoop, h, reduceCtorEq, if_false, if_true]
  exact hrun

/-- Settles O40: the arm commits whatever stands behind the header, and the pass it leaves is `Done`. -/
theorem eofFieldsEndThePass : Obligations.EofFieldsEndThePass := by
  rintro s m t hlive hp rfl
  have harm : armEof m s s.dec.rpos = .ok (eofCommit (s.dec.rpos + 1)) := rfl
  exact ⟨leavesDec_of_arm_ok hlive hp rfl harm, leavesDec_decNext_of_done rfl, leavesDec_decRun_of_done rfl⟩

end Sys2Proof.Machine
end

section
/-! ### The reserved type, delivered (R213, R295)

`DEC` comes to `Aborted` by a constructor that refuses its arguments, or where an arm raises; then the cursor is
still at the header the arm was given (R296). The arm of type 14 is the only one that raises `UnknownType`. -/

namespace Sys2Proof.Machine

/-! #### The arms -/

/-- The arm raises no `UnknownType`. -/
def Arm.KnowsItsType (arm : Arm) : Prop := ∀ s p, arm s p ≠ .error .unknownType

theorem decUleb_ne_unknownType (s : State) (p : Nat) : decUleb s p ≠ .error .unknownType := fun h => by
  simpa using decUleb_error h

theorem commitView_ne_unknownType (length p : Nat) (s : State) : commitView length p s ≠ .error .unknownType :=
  fun h => by simpa using commitView_error h

theorem armFixed_knowsItsType (k : FixedKind) : Arm.KnowsItsType (armFixed k) := fun s p h => by
  unfold armFixed at h
  split at h <;> cases h
  rename_i hread
  simpa using readBytes_error hread

theorem armUleb128_knowsItsType (m : Nibble) : Arm.KnowsItsType (armUleb128 m) := fun s p h => by
  unfold armUleb128 at h
  split at h <;> cases h
  rename_i hleb
  exact decUleb_ne_unknownType s _ hleb

theorem armSleb128_knowsItsType (m : Nibble) : Arm.KnowsItsType (armSleb128 m) := fun s p h => by
  unfold armSleb128 at h
  split at h <;> cases h
  rename_i hleb
  exact decUleb_ne_unknownType s _ (decSleb_error hleb)

theorem armShort_knowsItsType (m : Nibble) : Arm.KnowsItsType (armShort m) := fun _ _ => nofun

theorem armVector_knowsItsType (m : Nibble) : Arm.KnowsItsType (armVector m) := fun s p =>
  commitView_ne_unknownType m.toNat (p + 1) s

theorem armVectorLarge_knowsItsType : Arm.KnowsItsType armVectorLarge := fun s p h => by
  unfold armVectorLarge at h
  split at h
  · rename_i hleb
    cases h
    exact decUleb_ne_unknownType s _ hleb
  · exact commitView_ne_unknownType _ _ s h

theorem armEof_knowsItsType (m : Nibble) : Arm.KnowsItsType (armEof m) := fun _ _ => nofun

/-- In the dispatch table `UnknownType` is raised by the reserved row only (R261, R295). -/
theorem decodeHeader_of_armOf_unknownType {b : Byte} {s : State} {p : Nat}
    (h : armOf b s p = .error .unknownType) : ∃ m, decodeHeader b = .reserved14 m := by
  revert h
  simp only [armOf, decodeHeader]
  generalize (unpack b).2 = m
  match (unpack b).1.toNat with
  | 0 | 1 | 2 | 3 | 4 | 5 | 6 | 7 | 10 | 11 => exact fun h => absurd h (armFixed_knowsItsType _ s p)
  | 8 => exact fun h => absurd h (armUleb128_knowsItsType m s p)
  | 9 => exact fun h => absurd h (armSleb128_knowsItsType m s p)
  | 12 => exact fun h => absurd h (armShort_knowsItsType m s p)
  | 13 =>
    by_cases hm : m = 15#4
    · simp only [hm, if_true]
      exact fun h => absurd h (armVectorLarge_knowsItsType s p)
    · simp only [hm, if_false]
      exact fun h => absurd h (armVector_knowsItsType m s p)
  | 14 => exact fun _ => ⟨m, rfl⟩
  | _ + 15 => exact fun h => absurd h (armEof_knowsItsType m s p)

theorem decodeHeader_of_armAt_unknownType {s : State} {p : Nat} (hp : p < s.dec.rsize)
    (h : armAt s p = .error .unknownType) : ∃ m, decodeHeader (src s p) = .reserved14 m :=
  decodeHeader_of_armOf_unknownType (armAt_of_lt hp ▸ h)

/-! #### How a pull comes to `Aborted` -/

/-- `t` is what a raise of `arm` leaves, at a header that was left under the cursor. -/
def AbortedByArm (arm : Arm) (t : State) : Prop :=
  ∃ s evs c, s.dec.rpos < s.dec.rsize ∧ arm s s.dec.rpos = .error c ∧ t = takeFault .dec evs c s

theorem fieldStep_ok_ne_aborted {arm : Arm} {s : State} {d : Dec} (h : fieldStep arm s = .ok d) :
    d.dstate ≠ .aborted := by
  rcases fieldStep_ok h with ⟨-, rfl⟩ | ⟨-, c, -, rfl⟩
  · simp
  · simp only
    split <;> simp

theorem fieldStep_error_abortedByArm {arm : Arm} {s : State} {c : Cause} (h : fieldStep arm s = .error c)
    (evs : List Event) : AbortedByArm arm (takeFault .dec evs c s) :=
  have ⟨hp, harm⟩ := fieldStep_error h
  ⟨s, evs, c, hp, harm, rfl⟩

theorem nextField_abortedByArm {arm : Arm} {s t : State} (ht : nextField arm s = .next t)
    (hs : s.dec.dstate ≠ .aborted) (ha : t.dec.dstate = .aborted) : AbortedByArm arm t := by
  rcases nextField_cases ht with ⟨hs', -⟩ | ⟨-, rfl⟩ | ⟨-, c, hc, rfl⟩ | ⟨-, d, hd, rfl⟩
  · exact absurd hs' hs
  · exact absurd ha hs
  · exact fieldStep_error_abortedByArm hc []
  · have hlive : d.dstate ≠ .aborted := fieldStep_ok_ne_aborted hd
    exact absurd ha hlive

/-- No turn of `DEC_RUN` that completes leaves `Aborted`, so the turn that does is one whose arm raised. -/
theorem runLoop_abortedByArm (fuel n : Nat) (evs : List Event) {s : State} (hs : s.dec.dstate ≠ .aborted)
    (ha : (runLoop fuel n evs s).dec.dstate = .aborted) : AbortedByArm armAt (runLoop fuel n evs s) := by
  induction fuel generalizing n evs s with
  | zero => exact absurd ha hs
  | succ fuel ih =>
    revert ha
    simp only [runLoop]
    split
    · exact fun ha => absurd ha hs
    · cases hd : fieldStep armAt s with
      | error c => exact fun _ => fieldStep_error_abortedByArm hd evs
      | ok d =>
        have hlive : d.dstate ≠ .aborted := fieldStep_ok_ne_aborted hd
        simp only
        split
        · exact fun ha => absurd ha hlive
        · exact ih (n + 1) (evs ++ [eventOf d]) (s := s.withDec d) hlive

theorem execDecRun_abortedByArm {s t : State} (ht : execDecRun s = .next t) (hs : s.dec.dstate ≠ .aborted)
    (ha : t.dec.dstate = .aborted) : AbortedByArm armAt t := by
  rw [execDecRun, if_neg hs] at ht
  cases ht
  exact runLoop_abortedByArm _ 0 [] hs ha

theorem AbortedByArm.ne_unknownType {arm : Arm} {t : State} (h : AbortedByArm arm t) (hk : arm.KnowsItsType) :
    t.dec.dcause ≠ .unknownType := by
  obtain ⟨s, evs, c, -, harm, rfl⟩ := h
  rintro rfl
  exact hk s _ harm

/-- A raise moves neither the cursor nor the source, so the header it was about is still under the cursor. -/
theorem AbortedByArm.header_reserved {t : State} (h : AbortedByArm armAt t) (hc : t.dec.dcause = .unknownType) :
    t.dec.rpos < t.dec.rsize ∧ ∃ m, decodeHeader (src t t.dec.rpos) = .reserved14 m := by
  obtain ⟨s, evs, c, hp, harm, rfl⟩ := h
  obtain rfl : c = .unknownType := hc
  have hreserved : ∃ m, decodeHeader (src s s.dec.rpos) = .reserved14 m := decodeHeader_of_armAt_unknownType hp harm
  exact ⟨hp, hreserved⟩

/-! #### The other commands -/

theorem exec_enc_dec_eq {i : Instr} (hi : i.isEnc = true) {s t : State} (ht : exec i s = .next t) :
    t.dec = s.dec := by
  rw [(exec_actsOnEnc i hi).frame ht]
  rfl

theorem decCommand_ne_aborted {body : State → Dec × Reply} {s t : State} (ht : decCommand body s = .next t)
    (hs : s.dec.dstate ≠ .aborted) (hbody : (body s).1.dstate ≠ .aborted) : t.dec.dstate ≠ .aborted := by
  rcases decCommand_cases ht with ⟨hs', -⟩ | ⟨-, rfl⟩
  · exact absurd hs' hs
  · exact hbody

theorem decLoadBody_dstate (idx v : Word) (s : State) : (decLoadBody idx v s).1.dstate = s.dec.dstate := by
  unfold decLoadBody
  split <;> rfl

/-- A constructor raises `InvalidArgument` and no other cause, and clears the cause where it does not raise. -/
theorem execDecAttach_ne_unknownType {base size : Word} {s t : State} (ht : execDecAttach base size s = .next t) :
    t.dec.dcause ≠ .unknownType := by
  unfold execDecAttach at ht
  split at ht <;> cases ht <;> simp

theorem execDecAlloc_ne_unknownType {size : Word} {s t : State} (ht : execDecAlloc size s = .next t) :
    t.dec.dcause ≠ .unknownType := by
  unfold execDecAlloc at ht
  split at ht <;> cases ht <;> simp

/-! #### All instructions -/

/-- Whatever brings `DEC` to `Aborted` with `UnknownType` met the reserved type (R295). -/
theorem exec_unknownType_cases {i : Instr} {s t : State} (ht : exec i s = .next t) (hs : s.dec.dstate ≠ .aborted)
    (ha : t.dec.dstate = .aborted) (hc : t.dec.dcause = .unknownType) :
    (∃ m, i = .reserved14 m) ∨
    ((i = .decNext ∨ i = .decRun) ∧ t.dec.rpos < t.dec.rsize ∧
      ∃ m, decodeHeader (src t t.dec.rpos) = .reserved14 m) := by
  have hrow {arm : Arm} (hk : arm.KnowsItsType) (hn : nextField arm s = .next t) : False :=
    (nextField_abortedByArm hn hs ha).ne_unknownType hk hc
  cases i with
  | reserved14 m => exact .inl ⟨m, rfl⟩
  | decNext => exact .inr ⟨.inl rfl, (nextField_abortedByArm ht hs ha).header_reserved hc⟩
  | decRun => exact .inr ⟨.inr rfl, (execDecRun_abortedByArm ht hs ha).header_reserved hc⟩
  | int8 m | uint8 m | int16 m | uint16 m | int32 m | uint32 m | int64 m | uint64 m | float32 m | float64 m =>
    exact (hrow (armFixed_knowsItsType _) ht).elim
  | uleb128 m => exact (hrow (armUleb128_knowsItsType m) ht).elim
  | sleb128 m => exact (hrow (armSleb128_knowsItsType m) ht).elim
  | short m => exact (hrow (armShort_knowsItsType m) ht).elim
  | vector m => exact (hrow (armVector_knowsItsType m) ht).elim
  | vectorLarge => exact (hrow armVectorLarge_knowsItsType ht).elim
  | eof m => exact (hrow (armEof_knowsItsType m) ht).elim
  | decAttach base size => exact absurd hc (execDecAttach_ne_unknownType ht)
  | decAlloc size => exact absurd hc (execDecAlloc_ne_unknownType ht)
  | decLoad idx v => exact absurd ha (decCommand_ne_aborted ht hs (decLoadBody_dstate idx v s ▸ hs))
  | decReset => exact absurd ha (decCommand_ne_aborted ht hs nofun)
  | decRead off => exact absurd ha (decCommand_ne_aborted ht hs (decReadBody_fst off s ▸ hs))
  | _ => exact absurd (exec_enc_dec_eq rfl ht ▸ ha) hs

/-- Settles O41: the arm of type 14 raises whatever its metadata, and no other instruction raises its cause. -/
theorem reservedTypeAborts : Obligations.ReservedTypeAborts :=
  ⟨fun _ m hlive hp => leavesDec_of_arm_error (arm := armReserved14 m) hlive hp rfl rfl,
    fun _ _ _ => exec_unknownType_cases⟩

end Sys2Proof.Machine
end

section
/-! ### The encoder, constructed, restarted and read out (R225 to R227) -/

namespace Sys2Proof.Machine

/-- Settles O23: the constructor asks for room only, and its two ends write every register they name. -/
theorem encInitConstructs : Obligations.EncInitConstructs := fun s cap => by
  refine ⟨fun hroom => ?_, fun hlarge => ?_⟩
  · have hrun : execEncInit cap s = .next (answerEnc (.okWith 0 0) (s.withEnc (s.enc.construct cap.toNat))) :=
      if_neg (Nat.not_lt.2 hroom)
    exact hrun
  · have hrun : execEncInit cap s = .next (takeFault .enc [] .invalidArgument s) := if_pos hlarge
    exact hrun

/-- Settles O24: the body never raises, so only the Fault state keeps it from restarting the output. -/
theorem encResetRestarts : Obligations.EncResetRestarts := fun s => by
  have hi : exec .encReset s = encCommand encResetBody s := rfl
  exact ⟨leavesEnc_of_efault hi, fun hf => leavesEnc_of_body_ok hi hf rfl⟩

theorem encReadBody_of_le {off : Word} {s : State} (h : s.enc.wpos ≤ off.toNat) :
    encReadBody off s = .ok (s.enc, .refused) := if_pos h

theorem encReadBody_of_lt {off : Word} {s : State} (h : off.toNat < s.enc.wpos) :
    encReadBody off s = .ok (s.enc, .ok (byteWord (wbufByte s off.toNat)) 0) := if_neg (Nat.not_le.2 h)

/-- Settles O26: both ends of the body leave the encoder as it is and differ in the answer alone. -/
theorem encReadAnswersOutput : Obligations.EncReadAnswersOutput := fun s off => by
  have hi : exec (.encRead off) s = encCommand (encReadBody off) s := rfl
  refine ⟨leavesEnc_of_efault hi, fun hf hout => ?_, fun hf hin => ?_⟩
  · exact leavesEnc_of_body_ok hi hf (encReadBody_of_le hout)
  · exact leavesEnc_of_body_ok hi hf (encReadBody_of_lt hin)

end Sys2Proof.Machine
end

section
/-! ### The encoder never moves back (R224)

What each `ENC` command does is settled above, register by register and byte by byte. None of these ends but the
write of `ENC_FILL` touches a byte below the write position. -/

namespace Sys2Proof.Machine

/-- From `s` to `t` the write position does not move back, and no byte below it is rewritten. -/
structure KeepsOutput (s t : State) : Prop where
  wpos_le : s.enc.wpos ≤ t.enc.wpos
  below_eq : ∀ a, a < s.enc.wpos → wbufByte t a = wbufByte s a

/-! #### The ends of a command -/

theorem LeavesEnc.keepsOutput {i : Instr} {s t : State} {e : Enc} (h : LeavesEnc i s e) (ht : exec i s = .next t)
    (hpos : e.wpos = s.enc.wpos) (hbuf : e.wbuf = s.enc.wbuf) : KeepsOutput s t := by
  obtain rfl : s.withEnc e = t := Host.Outcome.next.inj (h.symm.trans ht)
  exact ⟨hpos.ge, fun a _ => by simp only [wbufByte, State.withEnc_enc, State.withEnc_epoch, hbuf]⟩

/-- What is emitted goes to the write position and behind it. -/
theorem Emits.keepsOutput {i : Instr} {s t : State} {bs : List Byte} {tail base len : Nat} {valid : Bool}
    {r0 r1 : Word} (h : Emits i s bs tail valid base len r0 r1) (ht : exec i s = .next t) : KeepsOutput s t := by
  obtain ⟨t', ht', hframe, -, hkept⟩ := h
  obtain rfl : t' = t := Host.Outcome.next.inj (ht'.symm.trans ht)
  have hpos : t'.enc.wpos = s.enc.wpos + bs.length + tail := congrArg (·.enc.wpos) hframe
  exact ⟨by omega, fun a ha => hkept a (.inl ha)⟩

/-- In the Fault state nothing is written, so a command has to keep the output in the Active state only. -/
theorem keepsOutput_of_latched {i : Instr} {s t : State} (ht : exec i s = .next t)
    (hlatched : s.enc.efault = true → LeavesEnc i s (encLatched s))
    (hactive : s.enc.efault = false → KeepsOutput s t) : KeepsOutput s t := by
  cases hf : s.enc.efault with
  | true => exact (hlatched hf).keepsOutput ht rfl rfl
  | false => exact hactive hf

/-! #### The commands -/

theorem AddsField.keepsOutput {i : Instr} {s t : State} {bs : List Byte} (h : AddsField i s bs)
    (ht : exec i s = .next t) : KeepsOutput s t := by
  obtain ⟨hlatched, hemits, hraised⟩ := h
  refine keepsOutput_of_latched ht hlatched fun hf => ?_
  rcases Nat.lt_or_ge s.enc.wcap (s.enc.wpos + bs.length) with hfull | hfit
  · exact (hraised hf hfull).keepsOutput ht rfl rfl
  · exact (hemits hf hfit).keepsOutput ht

theorem addFixed_keepsOutput {k : FixedKind} {v : Word} {s t : State} (ht : encCommand (addFixed k v) s = .next t) :
    KeepsOutput s t :=
  (addsField_fixed k s v).keepsOutput ((exec_addInstr k v s).trans ht)

theorem addShort_keepsOutput {v : Word} {s t : State} (ht : exec (.addShort v) s = .next t) : KeepsOutput s t := by
  obtain ⟨hadds, hraises⟩ := shortFieldsAreAdded s v
  rcases Nat.lt_or_ge 15 (v.toNat % 256) with hlarge | hsmall
  · obtain ⟨hlatched, hraised⟩ := hraises hlarge
    exact keepsOutput_of_latched ht hlatched fun hf => (hraised hf).keepsOutput ht rfl rfl
  · exact (hadds hsmall).keepsOutput ht

theorem addVector_keepsOutput {n : Word} {s t : State} (ht : exec (.addVector n) s = .next t) : KeepsOutput s t := by
  obtain ⟨hlatched, hemits, hraised⟩ := vectorSpansAreReserved s n _ rfl
  refine keepsOutput_of_latched ht hlatched fun hf => ?_
  rcases Nat.lt_or_ge _ _ with hfull | hfit
  · exact (hraised hf hfull).keepsOutput ht rfl rfl
  · exact (hemits hf hfit).keepsOutput ht

theorem encRead_keepsOutput {off : Word} {s t : State} (ht : exec (.encRead off) s = .next t) : KeepsOutput s t := by
  obtain ⟨hlatched, hrefused, hread⟩ := encReadAnswersOutput s off
  refine keepsOutput_of_latched ht hlatched fun hf => ?_
  rcases Nat.lt_or_ge off.toNat s.enc.wpos with hin | hout
  · exact (hread hf hin).keepsOutput ht rfl rfl
  · exact (hrefused hf hout).keepsOutput ht rfl rfl

/-- `ENC_FILL` rewrites at most one byte, and that one lies in the valid span (R192). -/
theorem encFill_keepsOutput_or {idx b : Word} {s t : State} (ht : exec (.encFill idx b) s = .next t) :
    KeepsOutput s t ∨
    (s.enc.vvalid = true ∧ idx.toNat < s.enc.vlen ∧ t.enc.wpos = s.enc.wpos ∧
      ∀ a, a ≠ s.enc.vbase + idx.toNat → wbufByte t a = wbufByte s a) := by
  obtain ⟨hlatched, hrefused, hwrites⟩ := encFillWritesTheSpan s idx b
  cases hf : s.enc.efault with
  | true => exact .inl ((hlatched hf).keepsOutput ht rfl rfl)
  | false =>
    by_cases hin : s.enc.vvalid = true ∧ idx.toNat < s.enc.vlen
    · obtain ⟨hvalid, hidx⟩ := hin
      obtain ⟨t', ht', hframe, hbyte⟩ := hwrites hf hvalid hidx
      obtain rfl : t' = t := Host.Outcome.next.inj (ht'.symm.trans ht)
      exact .inr ⟨hvalid, hidx, congrArg (·.enc.wpos) hframe, fun a ha => (hbyte a).trans (if_neg ha)⟩
    · have hout : s.enc.vvalid = false ∨ s.enc.vlen ≤ idx.toNat :=
        (not_and_or.1 hin).imp Bool.eq_false_of_not_eq_true Nat.le_of_not_lt
      exact .inl ((hrefused hf hout).keepsOutput ht rfl rfl)

/-- Every `ENC` command that neither constructs, restarts nor fills keeps the output. -/
theorem exec_keepsOutput {i : Instr} {s t : State} (hi : i.isEnc = true) (hc : i.isConstructor = false)
    (hreset : i ≠ .encReset) (hfill : ∀ idx b, i ≠ .encFill idx b) (ht : exec i s = .next t) : KeepsOutput s t := by
  cases i with
  | addInt8 v | addUint8 v | addInt16 v | addUint16 v | addInt32 v | addUint32 v | addInt64 v | addUint64 v
  | addFloat32 v | addFloat64 v => exact addFixed_keepsOutput ht
  | addUleb128 v => exact (lebFieldsAreAdded s v).1.keepsOutput ht
  | addSleb128 v => exact (lebFieldsAreAdded s v).2.keepsOutput ht
  | addShort v => exact addShort_keepsOutput ht
  | addVector n => exact addVector_keepsOutput ht
  | reserved0E => exact (reservedCommandIsRefused s).keepsOutput ht rfl rfl
  | addEof => exact (eofFieldsAreAdded s).keepsOutput ht
  | encInit cap => cases hc
  | encReset => exact absurd rfl hreset
  | encFill idx b => exact absurd rfl (hfill idx b)
  | encRead off => exact encRead_keepsOutput ht
  | _ => cases hi

/-- Settles O28: a fill rewrites one byte of the valid span, every other such command keeps the output. -/
theorem encoderIsMonotone : Obligations.EncoderIsMonotone := by
  intro i s t hi hc hreset ht
  by_cases hkeeps : KeepsOutput s t
  · exact ⟨hkeeps.wpos_le, fun a ha hne => absurd (hkeeps.below_eq a ha) hne⟩
  · obtain ⟨idx, b, rfl⟩ : ∃ idx b, i = .encFill idx b := by
      by_contra hfill
      exact hkeeps (exec_keepsOutput hi hc hreset (fun idx b he => hfill ⟨idx, b, he⟩) ht)
    obtain ⟨hvalid, hidx, hpos, hbyte⟩ := (encFill_keepsOutput_or ht).resolve_left hkeeps
    refine ⟨hpos.ge, fun a _ hne => ?_⟩
    obtain rfl : a = s.enc.vbase + idx.toNat := by_contra fun ha => hne (hbyte a ha)
    exact ⟨⟨idx, b, rfl⟩, hvalid, by omega, by omega⟩

end Sys2Proof.Machine
end

section
/-! ### The output of the encoder is the stream (R68, R112, R228)

A run of records is described without the port it stands on, so that runs compose; what it does is described on the
output as a list, so that appending composes with it. A vector is reserved and then filled: the reservation appends
its lead and moves past the span, and each fill settles one more byte of the output. -/

namespace Sys2Proof.Machine

/-! #### Runs of records on the port of `ENC` -/

/-- The records `cs`, next on the port before whatever else stands there, take the machine from `s` to `t`. The
ports of `s` and `t` themselves are not looked at. -/
def EncRuns (cs : List CmdRecord) (s t : State) : Prop :=
  ∀ rest k, core.run (cs.length + k) (s.withPort (cs.map (.command .enc) ++ rest)) = core.run k (t.withPort rest)

theorem run_succ_of_step {s t : State} (h : step s = .next t) (k : Nat) : core.run (k + 1) s = core.run k t := by
  have hstep : core.step s = .next t := h
  simp only [Host.Core.run, hstep]

theorem EncRuns.nil (s : State) : EncRuns [] s s := fun rest k => by
  rw [List.length_nil, Nat.zero_add, List.map_nil, List.nil_append]

theorem decodeEncOp_isEnc {op : Nat} {a b : Word} {i : Instr} (h : decodeEncOp op a b = some i) : i.isEnc = true := by
  unfold decodeEncOp at h
  split at h <;> cases h <;> rfl

/-- An `ENC` command does not see the port, so what it does at `s` it does with any port (R62). -/
theorem EncRuns.cons {c : CmdRecord} {cs : List CmdRecord} {i : Instr} {s t u : State}
    (hc : decodeOpOf .enc c = some i) (ht : exec i s = .next t) (h : EncRuns cs t u) : EncRuns (c :: cs) s u := by
  intro rest k
  have hacts : ActsOnEnc (exec i) := exec_actsOnEnc i (decodeEncOp_isEnc hc)
  have hport : t.withPort (cs.map (.command .enc) ++ rest) =
      (s.withPort (cs.map (.command .enc) ++ rest)).withEnc t.enc := congrArg (State.withPort · _) (hacts.frame ht)
  have hstep : step (s.withPort ((c :: cs).map (.command .enc) ++ rest)) =
      .next (t.withPort (cs.map (.command .enc) ++ rest)) := by
    rw [step_command rfl (decode_command_ok_iff.2 hc), hport]
    exact hacts.same ht ⟨rfl, rfl, rfl⟩
  rw [List.length_cons, Nat.add_right_comm, run_succ_of_step hstep]
  exact h rest k

theorem EncRuns.append {cs cs' : List CmdRecord} {s t u : State} (h : EncRuns cs s t) (h' : EncRuns cs' t u) :
    EncRuns (cs ++ cs') s u := fun rest k => by
  rw [List.length_append, Nat.add_assoc, List.map_append, List.append_assoc, h, h']

/-! #### The output as a list -/

@[simp] theorem length_outputBytes (s : State) : (outputBytes s).length = s.enc.wpos := by
  simp only [outputBytes, List.length_map, List.length_range]

/-- `t` is Active as `s`, of the same capacity and with the same decoder, and its output is that of `s` and then
`bs`. -/
structure Appends (bs : List Byte) (s t : State) : Prop where
  efault : t.enc.efault = false
  wcap : t.enc.wcap = s.enc.wcap
  dec : t.dec = s.dec
  output : outputBytes t = outputBytes s ++ bs

theorem Appends.nil {s : State} (hf : s.enc.efault = false) : Appends [] s s :=
  ⟨hf, rfl, rfl, (List.append_nil _).symm⟩

theorem Appends.append {bs bs' : List Byte} {s t u : State} (h : Appends bs s t) (h' : Appends bs' t u) :
    Appends (bs ++ bs') s u :=
  ⟨h'.efault, h'.wcap.trans h.wcap, h'.dec.trans h.dec, by rw [h'.output, h.output, List.append_assoc]⟩

theorem Appends.wpos {bs : List Byte} {s t : State} (h : Appends bs s t) :
    t.enc.wpos = s.enc.wpos + bs.length := by
  simpa using congrArg List.length h.output

/-- Bytes put at the write position follow the output, whatever the cursor moves past behind them. -/
theorem take_outputBytes_of_emitted {s t : State} {bs : List Byte} {tail : Nat}
    (hpos : t.enc.wpos = s.enc.wpos + bs.length + tail)
    (hbytes : ∀ k b, bs[k]? = some b → wbufByte t (s.enc.wpos + k) = b)
    (hbelow : ∀ a, a < s.enc.wpos → wbufByte t a = wbufByte s a) :
    (outputBytes t).take (s.enc.wpos + bs.length) = outputBytes s ++ bs := by
  have hkept : (List.range s.enc.wpos).map (wbufByte t) = outputBytes s :=
    List.map_congr_left fun a ha => hbelow a (List.mem_range.1 ha)
  have hnew : (List.range bs.length).map (fun k => wbufByte t (s.enc.wpos + k)) = bs :=
    List.ext_getElem (by simp) fun k _ hk => by
      rw [List.getElem_map, List.getElem_range]
      exact hbytes k _ (List.getElem?_eq_getElem hk)
  calc (outputBytes t).take (s.enc.wpos + bs.length)
    _ = (List.range (s.enc.wpos + bs.length)).map (wbufByte t) := by
      rw [outputBytes, ← List.map_take, List.take_range, hpos, Nat.min_eq_left (Nat.le_add_right _ _)]
    _ = (List.range s.enc.wpos).map (wbufByte t) ++
          (List.range bs.length).map (fun k => wbufByte t (s.enc.wpos + k)) := by
      rw [List.range_add, List.map_append, List.map_map]
      rfl
    _ = outputBytes s ++ bs := by rw [hkept, hnew]

/-! #### A field of one command -/

/-- A command that adds the field `bs` appends `bs`, on an Active encoder with room for it. -/
theorem AddsField.appends {i : Instr} {s : State} {bs : List Byte} (h : AddsField i s bs)
    (hf : s.enc.efault = false) (hfit : s.enc.wpos + bs.length ≤ s.enc.wcap) :
    ∃ t, exec i s = .next t ∧ Appends bs s t := by
  obtain ⟨-, hemits, -⟩ := h
  obtain ⟨t, ht, hframe, hbytes, hkept⟩ := hemits hf hfit
  have hpos : t.enc.wpos = s.enc.wpos + bs.length := congrArg (·.enc.wpos) hframe
  have htake := take_outputBytes_of_emitted (tail := 0) hpos hbytes fun a ha => hkept a (.inl ha)
  rw [← hpos, ← length_outputBytes t, List.take_length] at htake
  exact ⟨t, ht, (congrArg (·.enc.efault) hframe).trans hf, congrArg (·.enc.wcap) hframe,
    congrArg (·.dec) hframe, htake⟩

theorem runs_of_addsField {c : CmdRecord} {i : Instr} {s : State} {bs : List Byte}
    (hc : decodeOpOf .enc c = some i) (h : AddsField i s bs) (hf : s.enc.efault = false)
    (hfit : s.enc.wpos + bs.length ≤ s.enc.wcap) : ∃ t, EncRuns [c] s t ∧ Appends bs s t := by
  obtain ⟨t, ht, happ⟩ := h.appends hf hfit
  exact ⟨t, .cons hc ht (.nil t), happ⟩

/-- A nibble is a legal operand of `ADD_SHORT`, and its field is the header with the nibble as metadata (R180). -/
theorem addsField_short (v : Nibble) (s : State) : AddsField (.addShort (v.setWidth 64)) s [headerByte 12 v] := by
  have hv : v.toNat < 16 := v.isLt
  have hlow : (v.setWidth 64).toNat % 256 = v.toNat := by
    rw [BitVec.toNat_setWidth]
    omega
  have hheader : headerByte 12 v = BitVec.ofNat 8 (12 + 16 * v.toNat) := by
    simpa using headerByte_ofNat v.toNat (show 12 < 16 by decide)
  obtain ⟨hadds, -⟩ := shortFieldsAreAdded s (v.setWidth 64)
  rw [hlow] at hadds
  exact hheader ▸ hadds (by omega)

/-! #### A vector: the reservation and the fills -/

/-- The current span has room for `n` more bytes at index `i` of it, and then the output ends. -/
structure SpanOpen (i n : Nat) (s : State) : Prop where
  efault : s.enc.efault = false
  vvalid : s.enc.vvalid = true
  vlen : s.enc.vlen = i + n
  ends : s.enc.vbase + (i + n) = s.enc.wpos

theorem outputBytes_of_write {s t : State} {p : Nat} {b : Byte} (hpos : t.enc.wpos = s.enc.wpos)
    (hbyte : ∀ a, wbufByte t a = if a = p then b else wbufByte s a) : outputBytes t = (outputBytes s).set p b := by
  refine List.ext_getElem (by simp [hpos]) fun a _ _ => ?_
  simp only [outputBytes, List.getElem_set, List.getElem_map, List.getElem_range, hbyte, eq_comm]

/-- R103: a byte presented as an argument is its low byte. -/
theorem byteAt_setWidth_zero (b : Byte) : byteAt (b.setWidth 64) 0 = b := by
  rw [byteAt, BitVec.extractLsb'_setWidth_of_le (by decide)]
  exact BitVec.extractLsb'_eq_self

/-- A fill at the first open index settles one more byte of the output (R192). -/
theorem exec_encFill_of_spanOpen {i n : Nat} {s : State} (h : SpanOpen i (n + 1) s) (hi : i < 2 ^ 64) (b : Byte) :
    ∃ t, exec (.encFill (BitVec.ofNat 64 i) (b.setWidth 64)) s = .next t ∧ SpanOpen (i + 1) n t ∧
      t.enc.vbase = s.enc.vbase ∧ t.enc.wcap = s.enc.wcap ∧ t.dec = s.dec ∧
      outputBytes t = (outputBytes s).set (s.enc.vbase + i) b := by
  have hidx : (BitVec.ofNat 64 i).toNat = i := by
    rw [BitVec.toNat_ofNat, Nat.mod_eq_of_lt hi]
  have hlen := h.vlen
  have hends := h.ends
  obtain ⟨-, -, hwrites⟩ := encFillWritesTheSpan s (BitVec.ofNat 64 i) (b.setWidth 64)
  obtain ⟨t, ht, hframe, hbyte⟩ := hwrites h.efault h.vvalid (by omega)
  rw [hidx, byteAt_setWidth_zero] at hbyte
  have hpos : t.enc.wpos = s.enc.wpos := congrArg (·.enc.wpos) hframe
  have hbase : t.enc.vbase = s.enc.vbase := congrArg (·.enc.vbase) hframe
  have hlen' : t.enc.vlen = s.enc.vlen := congrArg (·.enc.vlen) hframe
  have hopen : SpanOpen (i + 1) n t :=
    ⟨(congrArg (·.enc.efault) hframe).trans h.efault, (congrArg (·.enc.vvalid) hframe).trans h.vvalid,
      by omega, by omega⟩
  exact ⟨t, ht, hopen, hbase, congrArg (·.enc.wcap) hframe, congrArg (·.dec) hframe, outputBytes_of_write hpos hbyte⟩

/-- The fills of the open rest of a span put their bytes in place of the end of the output. -/
theorem runs_fillsFrom (bs : List Byte) {i : Nat} {s : State} (h : SpanOpen i bs.length s)
    (hi : i + bs.length < 2 ^ 64) :
    ∃ t, EncRuns (fillsFrom i bs) s t ∧ t.enc.efault = false ∧ t.enc.wcap = s.enc.wcap ∧ t.dec = s.dec ∧
      outputBytes t = (outputBytes s).take (s.enc.vbase + i) ++ bs := by
  induction bs generalizing i s with
  | nil =>
    have hall : s.enc.vbase + i = (outputBytes s).length := by simpa using h.ends
    exact ⟨s, .nil s, h.efault, rfl, rfl, by rw [hall, List.take_length, List.append_nil]⟩
  | cons b bs ih =>
    rw [List.length_cons] at h hi
    obtain ⟨t, ht, hopen, hbase, hcap, hdec, hout⟩ := exec_encFill_of_spanOpen h (by omega) b
    obtain ⟨u, hu, hfu, hcapu, hdecu, houtu⟩ := ih hopen (by omega)
    refine ⟨u, .cons rfl ht hu, hfu, hcapu.trans hcap, hdecu.trans hdec, ?_⟩
    have hends := h.ends
    have hin : s.enc.vbase + i < ((outputBytes s).set (s.enc.vbase + i) b).length := by
      rw [List.length_set, length_outputBytes]
      omega
    calc outputBytes u
      _ = ((outputBytes s).set (s.enc.vbase + i) b).take (s.enc.vbase + i + 1) ++ bs := by
        rw [houtu, hbase, hout, Nat.add_assoc]
      _ = (outputBytes s).take (s.enc.vbase + i) ++ [b] ++ bs := by
        rw [List.take_succ_eq_append_getElem hin, List.getElem_set_self, List.take_set_of_le (Nat.le_refl _)]
      _ = (outputBytes s).take (s.enc.vbase + i) ++ b :: bs := by
        rw [List.append_assoc, List.singleton_append]

theorem vectorLead_eq {n : Nat} (hn : n < 2 ^ 64) :
    vectorLead n = if (BitVec.ofNat 64 n).toNat < 15 then [BitVec.ofNat 8 (13 + 16 * (BitVec.ofNat 64 n).toNat)]
      else 0xFD#8 :: ulebBytes (BitVec.ofNat 64 n) := by
  have hheader : headerByte 13 (BitVec.ofNat 4 n) = BitVec.ofNat 8 (13 + 16 * n) :=
    headerByte_ofNat n (show 13 < 16 by decide)
  rw [vectorLead, BitVec.toNat_ofNat, Nat.mod_eq_of_lt hn, hheader]

/-- The reservation of a vector appends its lead and opens the span behind it (R190). -/
theorem exec_addVector_opens {n : Nat} {s : State} (hn : n < 2 ^ 64) (hf : s.enc.efault = false)
    (hfit : s.enc.wpos + (vectorLead n).length + n ≤ s.enc.wcap) :
    ∃ t, exec (.addVector (BitVec.ofNat 64 n)) s = .next t ∧ SpanOpen 0 n t ∧
      t.enc.wcap = s.enc.wcap ∧ t.dec = s.dec ∧
      (outputBytes t).take t.enc.vbase = outputBytes s ++ vectorLead n := by
  have hlen : (BitVec.ofNat 64 n).toNat = n := by
    rw [BitVec.toNat_ofNat, Nat.mod_eq_of_lt hn]
  obtain ⟨-, hemits, -⟩ := vectorSpansAreReserved s (BitVec.ofNat 64 n) (vectorLead n) (vectorLead_eq hn)
  rw [hlen] at hemits
  obtain ⟨t, ht, hframe, hbytes, hkept⟩ := hemits hf hfit
  have hpos : t.enc.wpos = s.enc.wpos + (vectorLead n).length + n := congrArg (·.enc.wpos) hframe
  have hbase : t.enc.vbase = s.enc.wpos + (vectorLead n).length := congrArg (·.enc.vbase) hframe
  have hvlen : t.enc.vlen = n := congrArg (·.enc.vlen) hframe
  have hopen : SpanOpen 0 n t :=
    ⟨(congrArg (·.enc.efault) hframe).trans hf, congrArg (·.enc.vvalid) hframe, by omega, by omega⟩
  have htake := take_outputBytes_of_emitted hpos hbytes fun a ha => hkept a (.inl ha)
  exact ⟨t, ht, hopen, congrArg (·.enc.wcap) hframe, congrArg (·.dec) hframe, hbase ▸ htake⟩

/-- R112: reserved and filled, a vector is its lead and its bytes. -/
theorem runs_addVectorBytes {bs : List Byte} {s : State} (hn : bs.length < 2 ^ 64) (hf : s.enc.efault = false)
    (hfit : s.enc.wpos + (vectorLead bs.length ++ bs).length ≤ s.enc.wcap) :
    ∃ t, EncRuns (addVectorBytes bs) s t ∧ Appends (vectorLead bs.length ++ bs) s t := by
  rw [List.length_append, ← Nat.add_assoc] at hfit
  obtain ⟨t, ht, hopen, hcap, hdec, hout⟩ := exec_addVector_opens hn hf hfit
  obtain ⟨u, hu, hfu, hcapu, hdecu, houtu⟩ := runs_fillsFrom bs hopen (by omega)
  refine ⟨u, .cons rfl ht hu, hfu, hcapu.trans hcap, hdecu.trans hdec, ?_⟩
  rw [houtu, Nat.add_zero, hout, List.append_assoc]

/-! #### Fields and streams -/

/-- The commands that add a field append its canonical bytes. -/
theorem runs_field {f : Field} {s : State} (hv : f.valid = true) (hf : s.enc.efault = false)
    (hfit : s.enc.wpos + f.bytes.length ≤ s.enc.wcap) : ∃ t, EncRuns f.commands s t ∧ Appends f.bytes s t := by
  cases f with
  | int8 v => exact runs_of_addsField rfl (addsField_fixed .int8 s _) hf hfit
  | uint8 v => exact runs_of_addsField rfl (addsField_fixed .uint8 s _) hf hfit
  | int16 v => exact runs_of_addsField rfl (addsField_fixed .int16 s _) hf hfit
  | uint16 v => exact runs_of_addsField rfl (addsField_fixed .uint16 s _) hf hfit
  | int32 v => exact runs_of_addsField rfl (addsField_fixed .int32 s _) hf hfit
  | uint32 v => exact runs_of_addsField rfl (addsField_fixed .uint32 s _) hf hfit
  | int64 v => exact runs_of_addsField rfl (addsField_fixed .int64 s _) hf hfit
  | uint64 v => exact runs_of_addsField rfl (addsField_fixed .uint64 s _) hf hfit
  | float32 v => exact runs_of_addsField rfl (addsField_fixed .float32 s _) hf hfit
  | float64 v => exact runs_of_addsField rfl (addsField_fixed .float64 s _) hf hfit
  | uleb128 v => exact runs_of_addsField rfl (lebFieldsAreAdded s v).1 hf hfit
  | sleb128 v => exact runs_of_addsField rfl (lebFieldsAreAdded s v).2 hf hfit
  | short v => exact runs_of_addsField rfl (addsField_short v s) hf hfit
  | vector bs => exact runs_addVectorBytes (by simpa [Field.valid] using hv) hf hfit
  | eof => exact runs_of_addsField rfl (eofFieldsAreAdded s) hf hfit

/-- The commands that add a list of fields append the stream of them, field by field. -/
theorem runs_stream (fs : List Field) {s : State} (hv : ∀ f ∈ fs, Field.valid f = true) (hf : s.enc.efault = false)
    (hfit : s.enc.wpos + (streamBytes fs).length ≤ s.enc.wcap) :
    ∃ t, EncRuns (fs.flatMap Field.commands) s t ∧ Appends (streamBytes fs) s t := by
  induction fs generalizing s with
  | nil => exact ⟨s, .nil s, .nil hf⟩
  | cons f fs ih =>
    obtain ⟨hvf, hvfs⟩ := List.forall_mem_cons.1 hv
    have hbytes : streamBytes (f :: fs) = f.bytes ++ streamBytes fs := List.flatMap_cons
    rw [hbytes, List.length_append] at hfit
    obtain ⟨t, ht, happ⟩ := runs_field hvf hf (by omega)
    have hpos := happ.wpos
    have hcap := happ.wcap
    obtain ⟨u, hu, happu⟩ := ih hvfs happ.efault (by omega)
    rw [List.flatMap_cons, hbytes]
    exact ⟨u, ht.append hu, happ.append happu⟩

/-- Settles O52: the run of the whole stream, on a port that holds nothing else. -/
theorem encoderOutputIsTheStream : Obligations.EncoderOutputIsTheStream := by
  intro s fs hf hv hport hfit
  obtain ⟨t, hruns, happ⟩ := runs_stream fs hv hf hfit
  have hs : s.withPort (streamCommands fs ++ []) = s := by
    rw [List.append_nil, ← hport]
    rfl
  have hlen : (streamCommands fs).length = (fs.flatMap Field.commands).length + 0 := List.length_map _
  refine ⟨t.withPort [], ?_, happ.efault, happ.dec, happ.output⟩
  calc core.run (streamCommands fs).length s
    _ = core.run ((fs.flatMap Field.commands).length + 0) (s.withPort (streamCommands fs ++ [])) := by rw [hlen, hs]
    _ = .next (t.withPort []) := hruns [] 0

end Sys2Proof.Machine
end

section
/-! ### Pulls, one at a time and as a run (R260 to R273)

What a pull can do in a pass is said once, of every arm. A run is then described by the pull it begins with: where
that delivers a field, the run is the run from there with the field's event in front. Whatever is claimed of a run is
an induction on the bytes left, in which neither the loop nor its bound appears. -/

namespace Sys2Proof.Machine

/-! #### What a pull can do in a pass -/

/-- Every pull but `DEC_RUN` is one step of the dispatcher with some arm (R260, R261). -/
theorem exec_eq_nextField_of_isPull {i : Instr} (hi : i.isPull = true) (hrun : i ≠ .decRun) :
    ∃ arm, GoodArm arm ∧ exec i = nextField arm := by
  cases i with
  | int8 m | uint8 m | int16 m | uint16 m | int32 m | uint32 m | int64 m | uint64 m | float32 m | float64 m =>
    exact ⟨_, armFixed_good _, rfl⟩
  | uleb128 m => exact ⟨_, armUleb128_good m, rfl⟩
  | sleb128 m => exact ⟨_, armSleb128_good m, rfl⟩
  | short m => exact ⟨_, armShort_good m, rfl⟩
  | vector m => exact ⟨_, armVector_good m, rfl⟩
  | vectorLarge => exact ⟨_, armVectorLarge_good, rfl⟩
  | reserved14 m => exact ⟨_, armReserved14_good m, rfl⟩
  | eof m => exact ⟨_, armEof_good m, rfl⟩
  | decNext => exact ⟨_, armAt_good, rfl⟩
  | decRun => exact absurd rfl hrun
  | _ => cases hi

/-- Every instruction completes: no arm of `exec` stops the machine. -/
theorem exec_completes (i : Instr) (s : State) : ∃ t, exec i s = .next t := by
  cases hi : i.isEnc with
  | true =>
    obtain ⟨e, he, -⟩ := exec_actsOnEnc i hi s s (.refl s)
    exact ⟨_, he⟩
  | false =>
    obtain ⟨d, hd, -⟩ := exec_actsOnDec i hi s s (.refl s)
    exact ⟨_, hd⟩

/-- The four ends of a pull with the arm `arm`, from a pass at `s`: a fault, the implicit EOF, an EOF field, or any
other field (R260, R262, R268). -/
inductive PullEnds (arm : Arm) (s : State) : State → Prop
  | raised (c : Cause) (hp : s.dec.rpos < s.dec.rsize) (harm : arm s s.dec.rpos = .error c) :
      PullEnds arm s (s.withDec (decRaised [] c s))
  | exhausted (hp : s.dec.rsize ≤ s.dec.rpos) :
      PullEnds arm s (s.withDec (delivered (eofCommit s.dec.rpos) .done s))
  | eof (hp : s.dec.rpos < s.dec.rsize) (harm : arm s s.dec.rpos = .ok (eofCommit (s.dec.rpos + 1))) :
      PullEnds arm s (s.withDec (delivered (eofCommit (s.dec.rpos + 1)) .done s))
  | field (c : Commit) (hp : s.dec.rpos < s.dec.rsize) (harm : arm s s.dec.rpos = .ok c)
      (hgood : GoodCommit s.dec.rpos s.dec.rsize c) (htype : c.ltype ≠ 15#4) :
      PullEnds arm s (s.withDec (delivered c .decoding s))

theorem Live.ne_aborted {s : State} (h : Live s) : s.dec.dstate ≠ .aborted := by
  rcases h with h | h <;> simp [h]

theorem Live.ne_done {s : State} (h : Live s) : s.dec.dstate ≠ .done := by
  rcases h with h | h <;> simp [h]

theorem nextField_pullEnds {arm : Arm} (ha : GoodArm arm) {s t : State} (hlive : Live s)
    (ht : nextField arm s = .next t) : PullEnds arm s t := by
  rcases nextField_cases ht with ⟨hs, -⟩ | ⟨hs, -⟩ | ⟨-, c, hc, rfl⟩ | ⟨-, d, hd, rfl⟩
  · exact absurd hs hlive.ne_aborted
  · exact absurd hs hlive.ne_done
  · obtain ⟨hp, harm⟩ := fieldStep_error hc
    exact .raised c hp harm
  · rcases fieldStep_ok hd with ⟨hp, rfl⟩ | ⟨hp, c, harm, rfl⟩
    · exact .exhausted hp
    · have hgood := ha.commits s _ c hp harm
      by_cases htype : c.ltype = 15#4
      · obtain rfl := hgood.eof htype
        exact .eof hp harm
      · rw [if_neg htype]
        exact .field c hp harm hgood htype

/-- Where no header is left, every pull reports the implicit EOF (R262). -/
theorem leavesDec_of_exhausted {i : Instr} {arm : Arm} {s : State} (hlive : Live s) (hp : s.dec.rsize ≤ s.dec.rpos)
    (hi : exec i s = nextField arm s) : LeavesDec i s (delivered (eofCommit s.dec.rpos) .done s) := by
  have hstep : fieldStep arm s = .ok { s.dec.commit (eofCommit s.dec.rpos) with dstate := .done } := if_pos hp
  rw [LeavesDec, hi]
  rcases hlive with hd | hd <;> simp only [nextField, hd, hstep] <;> rfl

/-- Settles O35: the header is read inside the source, and its arm is its row's. -/
theorem nextRunsTheFieldUnderTheCursor : Obligations.NextRunsTheFieldUnderTheCursor := fun _ _ =>
  exec_decNext_of_lt

/-- Settles O44: of the four ends of a pull, only the implicit EOF finds no header. -/
theorem pullsAdvanceInsideTheSource : Obligations.PullsAdvanceInsideTheSource := by
  intro i s t hi hrun hlive hp ht
  obtain ⟨arm, ha, hexec⟩ := exec_eq_nextField_of_isPull hi hrun
  cases nextField_pullEnds ha hlive (hexec ▸ ht) with
  | raised c => exact .inr (.inr ⟨rfl, rfl⟩)
  | exhausted hend => exact absurd hp (Nat.not_lt.2 hend)
  | eof => exact .inr (.inl ⟨rfl, rfl⟩)
  | field c _ _ hgood => exact .inl ⟨rfl, hgood.forward, hgood.inside⟩

/-! #### The loop of `DEC_RUN`: what it does not depend on -/

theorem sameSource_answerDec (evs : List Event) (r : Response) (s : State) : SameSource s (answerDec evs r s) :=
  ⟨rfl, fun _ _ => rfl⟩

theorem fieldStep_answerDec (evs : List Event) (r : Response) (s : State) :
    fieldStep armAt (answerDec evs r s) =
      (fieldStep armAt s).map fun d => { d with resp := some r, events := evs } := by
  simp only [fieldStep, armAt_seesSource _ _ (sameSource_answerDec evs r s), answerDec_dec]
  split
  · rfl
  · cases armAt s s.dec.rpos <;> rfl

/-- The run reads no response and no event an earlier command left (log 4). -/
theorem runLoop_answerDec (fuel n : Nat) (es evs : List Event) (r : Response) (s : State) :
    runLoop fuel n es (answerDec evs r s) = runLoop fuel n es s := by
  induction fuel generalizing n es s with
  | zero => rfl
  | succ fuel ih =>
    simp only [runLoop, fieldStep_answerDec, answerDec_dec]
    split
    · rfl
    · cases fieldStep armAt s with
      | error c => rfl
      | ok d =>
        simp only [Except.map]
        split
        · rfl
        · exact ih (n + 1) (es ++ [eventOf d]) (s.withDec d)

/-- A field that is no EOF takes at least one byte of those left. -/
theorem fieldStep_ok_left_lt {s : State} {d : Dec} (h : fieldStep armAt s = .ok d) (htype : d.ltype ≠ 15#4) :
    d.rsize - d.rpos < s.dec.rsize - s.dec.rpos := by
  rcases fieldStep_ok h with ⟨-, rfl⟩ | ⟨hp, c, harm, rfl⟩
  · exact absurd rfl htype
  · have hforward := (armAt_good.commits s _ c hp harm).forward
    simp only [Dec.commit_rsize, Dec.commit_rpos]
    omega

/-- R273: one turn for each byte left and one more are enough, so the bound is never what ends the loop. -/
theorem runLoop_eq_of_fuel {fuel fuel' : Nat} (n : Nat) (evs : List Event) {s : State}
    (h : s.dec.rsize - s.dec.rpos < fuel) (h' : s.dec.rsize - s.dec.rpos < fuel') :
    runLoop fuel n evs s = runLoop fuel' n evs s := by
  induction fuel generalizing fuel' n evs s with
  | zero => omega
  | succ fuel ih =>
    obtain ⟨k, rfl⟩ : ∃ k, fuel' = k + 1 := ⟨fuel' - 1, by omega⟩
    simp only [runLoop]
    split
    · rfl
    · cases hd : fieldStep armAt s with
      | error c => rfl
      | ok d =>
        simp only
        split
        case isTrue => rfl
        case isFalse htype =>
          have hleft := fieldStep_ok_left_lt hd htype
          exact ih _ _ (s := s.withDec d) (show d.rsize - d.rpos < fuel by omega)
            (show d.rsize - d.rpos < k by omega)

/-- The response of a run that delivered one more field first (R271). -/
def Response.oneMore (r : Response) : Response := if r.status = .ok then { r with r0 := r.r0 + 1 } else r

/-- The end of a run that delivered one more field first, by the event `e`. -/
def State.afterEvent (e : Event) (u : State) : State :=
  u.withDec { u.dec with resp := u.dec.resp.map Response.oneMore, events := e :: u.dec.events }

theorem runEnd_afterEvent (e : Event) (n : Nat) (evs : List Event) (s : State) :
    runEnd (n + 1) (e :: evs) s = (runEnd n evs s).afterEvent e := by
  simp only [State.afterEvent, runEnd_eq_withDec, State.withDec_withDec, State.withDec_dec, Option.map_some,
    Response.oneMore, Response.okWith, if_true, BitVec.ofNat_add]
  rfl

/-- The events and the count that the loop carries along stand in front of what it adds. -/
theorem runLoop_afterEvent (fuel n : Nat) (e : Event) (evs : List Event) (s : State) :
    runLoop fuel (n + 1) (e :: evs) s = (runLoop fuel n evs s).afterEvent e := by
  induction fuel generalizing n evs s with
  | zero => exact runEnd_afterEvent e n evs s
  | succ fuel ih =>
    simp only [runLoop]
    split
    · exact runEnd_afterEvent e n evs s
    · cases fieldStep armAt s with
      | error c => rfl
      | ok d =>
        simp only
        split
        · exact runEnd_afterEvent e n evs (s.withDec d)
        · exact ih (n + 1) (evs ++ [eventOf d]) (s.withDec d)

/-! #### A run, by the pull it begins with (R271) -/

theorem exec_decRun_of_ne_aborted {s : State} (h : s.dec.dstate ≠ .aborted) :
    exec .decRun s = .next (runLoop (s.dec.rsize - s.dec.rpos + 1) 0 [] s) := if_neg h

/-- The first turn of a run in a pass, where it raises. -/
theorem exec_decRun_of_fieldStep_error {s : State} {c : Cause} (hlive : Live s) (h : fieldStep armAt s = .error c) :
    exec .decRun s = .next (takeFault .dec [] c s) := by
  simp only [exec_decRun_of_ne_aborted hlive.ne_aborted, runLoop, if_neg hlive.ne_done, h]

/-- The first turn of a run in a pass, where it finds EOF. -/
theorem exec_decRun_of_fieldStep_eof {s : State} {d : Dec} (hlive : Live s) (h : fieldStep armAt s = .ok d)
    (htype : d.ltype = 15#4) : exec .decRun s = .next (runEnd 0 [] (s.withDec d)) := by
  simp only [exec_decRun_of_ne_aborted hlive.ne_aborted, runLoop, if_neg hlive.ne_done, h, htype, if_true]

/-- The first turn of a run in a pass, where it delivers a field. -/
theorem exec_decRun_of_fieldStep_field {s : State} {d : Dec} (hlive : Live s) (h : fieldStep armAt s = .ok d)
    (htype : d.ltype ≠ 15#4) :
    exec .decRun s = .next (runLoop (s.dec.rsize - s.dec.rpos) 1 [eventOf d] (s.withDec d)) := by
  simp only [exec_decRun_of_ne_aborted hlive.ne_aborted, runLoop, if_neg hlive.ne_done, h, if_neg htype, Nat.zero_add,
    List.nil_append]

theorem fieldStep_of_arm {arm : Arm} {s : State} (hp : s.dec.rpos < s.dec.rsize) :
    fieldStep arm s = (arm s s.dec.rpos).map fun c =>
      { s.dec.commit c with dstate := if c.ltype = 15#4 then .done else .decoding } := by
  rw [fieldStep, if_neg (Nat.not_le.2 hp)]
  cases arm s s.dec.rpos <;> rfl

/-- A run whose first pull raises is that pull. -/
theorem exec_decRun_of_decNext_aborted {s t : State} (hlive : Live s) (ht : exec .decNext s = .next t)
    (hd : t.dec.dstate = .aborted) : exec .decRun s = .next t := by
  cases nextField_pullEnds armAt_good hlive ht with
  | raised c hp harm =>
    have hstep : fieldStep armAt s = .error c := by rw [fieldStep_of_arm hp, harm, Except.map]
    exact exec_decRun_of_fieldStep_error hlive hstep
  | exhausted | eof | field => cases hd

/-- A run whose first pull reports EOF is that pull with the terminal event and a count of 0. -/
theorem exec_decRun_of_decNext_done {s t : State} (hlive : Live s) (ht : exec .decNext s = .next t)
    (hd : t.dec.dstate = .done) : exec .decRun s = .next (answerDec [terminalEvent] (.okWith 0 0) t) := by
  cases nextField_pullEnds armAt_good hlive ht with
  | exhausted hp =>
    have hstep : fieldStep armAt s = .ok { s.dec.commit (eofCommit s.dec.rpos) with dstate := .done } := if_pos hp
    have hrun := exec_decRun_of_fieldStep_eof hlive hstep rfl
    exact hrun
  | eof hp harm =>
    have hstep : fieldStep armAt s = .ok { s.dec.commit (eofCommit (s.dec.rpos + 1)) with dstate := .done } := by
      rw [fieldStep_of_arm hp, harm]
      rfl
    have hrun := exec_decRun_of_fieldStep_eof hlive hstep rfl
    exact hrun
  | raised | field => cases hd

/-- The turns behind a field: the loop from where the pull of that field leaves `DEC`. -/
theorem runLoop_after_field {fuel : Nat} {s : State} {d : Dec} (h : d.rsize - d.rpos < fuel) (r : Response) :
    runLoop fuel 1 [eventOf d] (s.withDec d) =
      (runLoop (d.rsize - d.rpos + 1) 0 [] (answerDec [] r (s.withDec d))).afterEvent (eventOf d) :=
  calc runLoop fuel 1 [eventOf d] (s.withDec d)
    _ = (runLoop fuel 0 [] (s.withDec d)).afterEvent (eventOf d) := runLoop_afterEvent fuel 0 _ [] _
    _ = (runLoop (d.rsize - d.rpos + 1) 0 [] (s.withDec d)).afterEvent (eventOf d) := by
      rw [runLoop_eq_of_fuel 0 [] (s := s.withDec d) h (Nat.lt_succ_self (d.rsize - d.rpos))]
    _ = _ := by rw [runLoop_answerDec]

/-- A run whose first pull delivers a field is the run from there, with the event of the field in front. -/
theorem exec_decRun_of_decNext_decoding {s t : State} (hlive : Live s) (ht : exec .decNext s = .next t)
    (hd : t.dec.dstate = .decoding) :
    ∃ u, exec .decRun t = .next u ∧ exec .decRun s = .next (u.afterEvent (eventOf t.dec)) := by
  cases nextField_pullEnds armAt_good hlive ht with
  | field c hp harm hgood htype =>
    have hforward := hgood.forward
    have hstep : fieldStep armAt s = .ok { s.dec.commit c with dstate := .decoding } := by
      rw [fieldStep_of_arm hp, harm, Except.map, if_neg htype]
    refine ⟨_, exec_decRun_of_ne_aborted (by simp [delivered]), ?_⟩
    have hleft : s.dec.rsize - c.rpos < s.dec.rsize - s.dec.rpos := by omega
    exact (exec_decRun_of_fieldStep_field hlive hstep htype).trans (congrArg _ (runLoop_after_field hleft _))
  | raised | exhausted | eof => cases hd

/-! #### Responses of pulls (R104) -/

/-- R104: a cause belongs to a fault, results belong to a completion. -/
def Response.Regular (r : Response) : Prop :=
  (r.status = .fault ∨ r.cause = .noFault) ∧ (r.status = .ok ∨ (r.r0 = 0 ∧ r.r1 = 0))

theorem Response.okWith_regular (r0 r1 : Word) : (Response.okWith r0 r1).Regular := ⟨.inr rfl, .inl rfl⟩

theorem Response.faultOf_regular (c : Cause) : (Response.faultOf c).Regular := ⟨.inl rfl, .inr ⟨rfl, rfl⟩⟩

theorem Response.refusal_regular : Response.refusal.Regular := ⟨.inr rfl, .inr ⟨rfl, rfl⟩⟩

theorem runLoop_responds (fuel n : Nat) (evs : List Event) (s : State) :
    ∃ r, (runLoop fuel n evs s).dec.resp = some r ∧ r.Regular := by
  induction fuel generalizing n evs s with
  | zero => exact ⟨_, rfl, Response.okWith_regular _ _⟩
  | succ fuel ih =>
    simp only [runLoop]
    split
    · exact ⟨_, rfl, Response.okWith_regular _ _⟩
    · cases fieldStep armAt s with
      | error c => exact ⟨_, rfl, Response.faultOf_regular c⟩
      | ok d =>
        simp only
        split
        · exact ⟨_, rfl, Response.okWith_regular _ _⟩
        · exact ih _ _ _

theorem execDecRun_responds {s t : State} (ht : execDecRun s = .next t) :
    ∃ r, t.dec.resp = some r ∧ r.Regular := by
  unfold execDecRun at ht
  split at ht <;> cases ht
  · exact ⟨_, rfl, Response.faultOf_regular _⟩
  · exact runLoop_responds _ _ _ _

/-! #### The ends of a pass -/

/-- Settles O42: with no header left the first pull of the run is the EOF. -/
theorem exhaustionIsImplicitEof : Obligations.ExhaustionIsImplicitEof := fun s hlive hp =>
  have hnext : LeavesDec .decNext s (delivered (eofCommit s.dec.rpos) .done s) :=
    leavesDec_of_exhausted hlive hp rfl
  ⟨hnext, exec_decRun_of_decNext_done hlive hnext rfl⟩

/-- Settles O43: both pulls look at the state of `DEC` first. -/
theorem doneIsAbsorbing : Obligations.DoneIsAbsorbing := fun _ hdone =>
  ⟨leavesDec_decNext_of_done hdone, leavesDec_decRun_of_done hdone⟩

theorem leavesDec_decRun_of_aborted {s : State} (h : s.dec.dstate = .aborted) :
    LeavesDec .decRun s (decLatched s) := by
  have hrun : execDecRun s = .next (answerDec [] (.faultOf s.dec.dcause) s) := if_pos h
  exact hrun

/-- Settles O45: in a pass, a run by each end its first pull can have. -/
theorem runRepeatsNext : Obligations.RunRepeatsNext := by
  refine fun s => ⟨leavesDec_decRun_of_aborted, fun hdone _ => leavesDec_decRun_of_done hdone,
    fun t hlive ht => ⟨exec_decRun_of_decNext_aborted hlive ht, exec_decRun_of_decNext_done hlive ht, fun hd => ?_⟩⟩
  obtain ⟨u, hu, hs⟩ := exec_decRun_of_decNext_decoding hlive ht hd
  obtain ⟨r, hr, -⟩ := execDecRun_responds hu
  refine ⟨u, r, hu, hr, hs.trans ?_⟩
  rw [State.afterEvent, hr]
  rfl

end Sys2Proof.Machine
end

section
/-! ### Over the canonical bytes of a stream `DEC_RUN` delivers its fields (R214, R271, R275)

A field under the cursor is delivered by one pull: its arm commits the record its event shows, and the cursor comes
to stand on the next field. So the run over a stream is, by induction on its fields, the run at its end with the
events of the fields in front. -/

namespace Sys2Proof.Machine

/-! #### A source that holds a list of bytes -/

theorem SourceHolds.head {s : State} {p : Nat} {b : Byte} {bs : List Byte} (h : SourceHolds s p (b :: bs)) :
    p < s.dec.rsize ∧ src s p = b := by
  obtain ⟨hin, hbytes⟩ := h
  rw [List.length_cons] at hin
  exact ⟨by omega, hbytes 0 b rfl⟩

theorem sourceHolds_append {s : State} {p : Nat} {bs bs' : List Byte} :
    SourceHolds s p (bs ++ bs') ↔ SourceHolds s p bs ∧ SourceHolds s (p + bs.length) bs' := by
  constructor
  · rintro ⟨hin, hbytes⟩
    rw [List.length_append] at hin
    refine ⟨⟨by omega, fun k b hb => ?_⟩, by omega, fun k b hb => ?_⟩
    · obtain ⟨hk, -⟩ := List.getElem?_eq_some_iff.1 hb
      exact hbytes k b (by rw [List.getElem?_append_left hk, hb])
    · rw [Nat.add_assoc]
      exact hbytes _ b (by rw [List.getElem?_append_right (by omega), Nat.add_sub_cancel_left, hb])
  · rintro ⟨⟨-, hbytes⟩, hin', hbytes'⟩
    refine ⟨by rw [List.length_append]; omega, fun k b hb => ?_⟩
    rcases Nat.lt_or_ge k bs.length with hk | hk
    · exact hbytes k b (by rw [← hb, List.getElem?_append_left hk])
    · rw [List.getElem?_append_right hk] at hb
      have := hbytes' _ b hb
      rwa [show p + bs.length + (k - bs.length) = p + k by omega] at this

theorem SourceHolds.tail {s : State} {p : Nat} {b : Byte} {bs : List Byte} (h : SourceHolds s p (b :: bs)) :
    SourceHolds s (p + 1) bs := (sourceHolds_append (bs := [b]).1 h).2

theorem SameSource.sourceHolds {s s' : State} (h : SameSource s s') {p : Nat} {bs : List Byte}
    (hs : SourceHolds s p bs) : SourceHolds s' p bs := by
  obtain ⟨hin, hbytes⟩ := hs
  refine ⟨h.rsize ▸ hin, fun k b hb => ?_⟩
  obtain ⟨hk, -⟩ := List.getElem?_eq_some_iff.1 hb
  rw [h.src _ (by omega), hbytes k b hb]

/-- A read of bytes the source holds answers them (R251). -/
theorem SourceHolds.readBytes {s : State} {p : Nat} {bs : List Byte} (h : SourceHolds s p bs) :
    Machine.readBytes s p bs.length = .ok bs := by
  obtain ⟨hin, hbytes⟩ := h
  rw [readBytes_of_le hin]
  exact congrArg _ (List.ext_getElem (by simp) fun k _ hk => by
    rw [List.getElem_map, List.getElem_range]
    exact hbytes k _ (List.getElem?_eq_getElem hk))

/-- The arm of a header the source holds is that of the header's row. -/
theorem SourceHolds.armAt {s : State} {p : Nat} {b : Byte} {bs : List Byte} (h : SourceHolds s p (b :: bs)) :
    Machine.armAt s p = armOf b s p := by
  obtain ⟨hp, rfl⟩ := h.head
  exact armAt_of_lt hp

/-! #### The value of a fixed-width field -/

@[simp] theorem length_leBytes (v : Word) (w : Nat) : (leBytes v w).length = w := by
  simp only [leBytes, List.length_map, List.length_range]

/-- R176: the pattern of the `w` bytes of a value is its low `8w` bits. -/
theorem setWidth_leValue_leBytes (v : Word) {w : Nat} (hw : w ≤ 8) :
    (leValue (leBytes v w)).setWidth (8 * w) = v.setWidth (8 * w) := by
  refine BitVec.eq_of_getLsbD_eq fun j hj => ?_
  have hbyte : (leBytes v w)[j / 8]? = some (v.extractLsb' (8 * (j / 8)) 8) := by
    rw [leBytes, List.getElem?_map, List.getElem?_range (by omega), Option.map_some]
  rw [BitVec.getLsbD_setWidth, BitVec.getLsbD_setWidth, getLsbD_leValue _ _ (by omega), hbyte, Option.getD_some,
    BitVec.getLsbD_extractLsb', decide_eq_true (Nat.mod_lt j (by decide)), Bool.true_and, Nat.div_add_mod]

theorem armOf_fixed (k : FixedKind) : armOf (BitVec.ofNat 8 k.tag) = armFixed k := by cases k <;> rfl

/-- The field of kind `k` that carries the low bits of `v` (R153, R174). -/
theorem armAt_of_fixed {k : FixedKind} {v : Word} {s : State} {p : Nat}
    (h : SourceHolds s p (BitVec.ofNat 8 k.tag :: leBytes v k.width)) :
    armAt s p =
      .ok { ltype := BitVec.ofNat 4 k.tag, lvalue := extendTo64 k.signed k.width v, lsize := k.width,
            lrefk := .inbuf, loff := p + 1, rpos := p + 1 + k.width } := by
  have hread := h.tail.readBytes
  rw [length_leBytes] at hread
  simp only [h.armAt, armOf_fixed, armFixed, hread, extendTo64, setWidth_leValue_leBytes v k.width_le]

/-- A pattern of `w` bytes presented as an argument and delivered again (R45, R103). -/
theorem extendTo64_setWidth (signed : Bool) {w : Nat} (hw : w ≤ 8) (x : BitVec (8 * w)) :
    extendTo64 signed w (x.setWidth 64) = widen signed x := by
  rw [extendTo64, BitVec.setWidth_setWidth_of_le _ (by omega), BitVec.setWidth_eq, widen]

theorem armAt_of_fixed_pattern {k : FixedKind} {x : BitVec (8 * k.width)} {s : State} {p : Nat}
    (h : SourceHolds s p (BitVec.ofNat 8 k.tag :: leBytes (x.setWidth 64) k.width)) :
    armAt s p =
      .ok { ltype := BitVec.ofNat 4 k.tag, lvalue := widen k.signed x, lsize := k.width,
            lrefk := .inbuf, loff := p + 1, rpos := p + 1 + k.width } := by
  rw [armAt_of_fixed h, extendTo64_setWidth _ k.width_le]

/-- A pattern of eight bytes is its own extension. -/
theorem extendTo64_eight (signed : Bool) (v : Word) : extendTo64 signed 8 v = v := by
  cases signed <;> simp [extendTo64]

theorem armAt_of_fixed_word {k : FixedKind} {v : Word} {s : State} {p : Nat} (hk : k.width = 8)
    (h : SourceHolds s p (BitVec.ofNat 8 k.tag :: leBytes v k.width)) :
    armAt s p =
      .ok { ltype := BitVec.ofNat 4 k.tag, lvalue := v, lsize := k.width, lrefk := .inbuf, loff := p + 1,
            rpos := p + 1 + k.width } := by
  rw [armAt_of_fixed h, hk, extendTo64_eight]

/-! #### The fields of a stream -/

/-- The commit record the event of a field shows, with the cursor past the field. -/
def Field.commit (p : Nat) (f : Field) : Commit :=
  let e := f.event p
  { ltype := e.evType, lvalue := e.evValue, lsize := e.evSize, lrefk := e.evRefk, loff := e.evOff,
    rpos := p + f.bytes.length }

/-- A vector of `n` bytes whose lead the source holds is a view of the bytes behind it (R195). -/
theorem armAt_of_vectorLead {n : Nat} {s : State} {p : Nat} (hn : n < 2 ^ 64)
    (h : SourceHolds s p (vectorLead n)) (hfit : p + (vectorLead n).length + n ≤ s.dec.rsize) :
    armAt s p = .ok (viewCommit n (p + (vectorLead n).length)) := by
  unfold vectorLead at h hfit ⊢
  split at h
  case isTrue hsmall =>
    have hm : (BitVec.ofNat 4 n).toNat = n := by
      rw [BitVec.toNat_ofNat]
      omega
    have hne : BitVec.ofNat 4 n ≠ 15#4 := fun he => by
      have : n = 15 := hm.symm.trans (congrArg BitVec.toNat he)
      omega
    have harm : armOf (headerByte 13 (BitVec.ofNat 4 n)) = armVector (BitVec.ofNat 4 n) := by
      simp only [armOf, unpack_headerByte, hne, if_false]
      rfl
    rw [if_pos hsmall] at hfit ⊢
    rw [h.armAt, harm, armVector, hm]
    exact commitView_of_le hfit
  case isFalse hlarge =>
    have hv : (BitVec.ofNat 64 n).toNat = n := by rw [BitVec.toNat_ofNat, Nat.mod_eq_of_lt hn]
    have harm : armOf 0xFD#8 = armVectorLarge := rfl
    rw [if_neg hlarge] at hfit ⊢
    rw [List.length_cons, Nat.add_comm _ 1, ← Nat.add_assoc] at hfit ⊢
    rw [h.armAt, harm, armVectorLarge_of_lebAt (lebAt_ulebBytes h.tail), hv]
    exact commitView_of_le hfit

/-- The arm of a field the source holds commits what the event of the field shows (R40, R45, R270). -/
theorem armAt_of_field {f : Field} {s : State} {p : Nat} (hv : f.valid = true) (heof : f ≠ .eof)
    (h : SourceHolds s p f.bytes) : armAt s p = .ok (f.commit p) := by
  cases f with
  | int8 v => exact armAt_of_fixed_pattern (k := .int8) h
  | uint8 v => exact armAt_of_fixed_pattern (k := .uint8) h
  | int16 v => exact armAt_of_fixed_pattern (k := .int16) h
  | uint16 v => exact armAt_of_fixed_pattern (k := .uint16) h
  | int32 v => exact armAt_of_fixed_pattern (k := .int32) h
  | uint32 v => exact armAt_of_fixed_pattern (k := .uint32) h
  | float32 v => exact armAt_of_fixed_pattern (k := .float32) h
  | int64 v => exact armAt_of_fixed_word (k := .int64) rfl h
  | uint64 v => exact armAt_of_fixed_word (k := .uint64) rfl h
  | float64 v => exact armAt_of_fixed_word (k := .float64) rfl h
  | uleb128 v =>
    have harm := armUleb128_of_lebAt 0 (lebAt_ulebBytes h.tail)
    rw [Nat.add_right_comm] at harm
    exact h.armAt.trans harm
  | sleb128 v =>
    obtain ⟨u, hu, hext⟩ := lebAt_slebBytes h.tail
    have harm := armSleb128_of_lebAt 0 hu hext
    rw [Nat.add_right_comm] at harm
    exact h.armAt.trans harm
  | short v =>
    have harm : armOf (headerByte 12 v) = armShort v := by
      simp only [armOf, unpack_headerByte]
      rfl
    rw [h.armAt, harm]
    rfl
  | vector bs =>
    obtain ⟨hlead, hfit, -⟩ := sourceHolds_append.1 h
    have hlen : bs.length < 2 ^ 64 := by simpa [Field.valid] using hv
    rw [armAt_of_vectorLead hlen hlead hfit, viewCommit, Nat.add_assoc p, ← List.length_append]
    rfl
  | eof => exact absurd rfl heof

theorem Field.commit_ltype_ne_eof {f : Field} (heof : f ≠ .eof) (p : Nat) : (f.commit p).ltype ≠ 15 := by
  cases f with
  | eof => exact absurd rfl heof
  | _ => simp [Field.commit, Field.event]

/-- An arm of the dispatcher commits only at a header it could read. -/
theorem lt_rsize_of_armAt_ok {s : State} {p : Nat} {c : Commit} (h : armAt s p = .ok c) : p < s.dec.rsize := by
  unfold armAt at h
  split at h
  · cases h
  · rename_i hread
    exact (readByte_ok hread).1

/-- One pull delivers the field under the cursor. -/
theorem leavesDec_decNext_of_field {f : Field} {s : State} (hlive : Live s) (hv : f.valid = true) (heof : f ≠ .eof)
    (h : SourceHolds s s.dec.rpos f.bytes) :
    LeavesDec .decNext s (delivered (f.commit s.dec.rpos) .decoding s) := by
  have harm := armAt_of_field hv heof h
  have hleaves := leavesDec_of_arm_ok (i := .decNext) hlive (lt_rsize_of_armAt_ok harm) rfl harm
  rwa [if_neg (Field.commit_ltype_ne_eof heof _)] at hleaves

/-! #### The end of a stream -/

/-- A stream ends at offset `p`, in an EOF byte or with the source, and its end leaves the cursor at `q` (R212,
R262). -/
inductive StreamEnds (s : State) (p : Nat) : (q : Nat) → Prop
  | eofByte (h : SourceHolds s p [0x0F]) : StreamEnds s p (p + 1)
  | source (h : p = s.dec.rsize) : StreamEnds s p p

theorem SameSource.streamEnds {s s' : State} (h : SameSource s s') {p q : Nat} (he : StreamEnds s p q) :
    StreamEnds s' p q := by
  cases he with
  | eofByte hbyte => exact .eofByte (h.sourceHolds hbyte)
  | source hp => exact .source (hp.trans h.rsize.symm)

theorem leavesDec_decNext_of_streamEnds {s : State} {q : Nat} (hlive : Live s) (h : StreamEnds s s.dec.rpos q) :
    LeavesDec .decNext s (delivered (eofCommit q) .done s) := by
  cases h with
  | eofByte hbyte =>
    have harm : armAt s s.dec.rpos = .ok (eofCommit (s.dec.rpos + 1)) := hbyte.armAt
    exact leavesDec_of_arm_ok hlive (lt_rsize_of_armAt_ok harm) rfl harm
  | source hp => exact leavesDec_of_exhausted hlive hp.ge rfl

/-- `DEC` after a run that delivered `n` fields by the events `evs` and found the end of the stream, with the cursor
at `q` (R271). -/
def ranToEnd (q n : Nat) (evs : List Event) (s : State) : Dec :=
  { s.dec with
    ltype := 15, lvalue := 0, lsize := 0, lrefk := .null, loff := 0, dstate := .done, rpos := q,
    resp := some (okResponse (BitVec.ofNat 64 n) 0), events := evs ++ [terminalEvent] }

theorem leavesDec_decRun_of_streamEnds {s : State} {q : Nat} (hlive : Live s) (h : StreamEnds s s.dec.rpos q) :
    LeavesDec .decRun s (ranToEnd q 0 [] s) :=
  exec_decRun_of_decNext_done hlive (leavesDec_decNext_of_streamEnds hlive h) rfl

/-- A run that begins with a field is the run behind it with one more event and one more counted. -/
theorem leavesDec_decRun_of_field {s : State} {c : Commit} {q n : Nat} {evs : List Event} (hlive : Live s)
    (hnext : LeavesDec .decNext s (delivered c .decoding s))
    (hrest : LeavesDec .decRun (s.withDec (delivered c .decoding s))
      (ranToEnd q n evs (s.withDec (delivered c .decoding s)))) :
    LeavesDec .decRun s (ranToEnd q (n + 1) (eventOf (delivered c .decoding s) :: evs) s) := by
  obtain ⟨u, hu, hs⟩ := exec_decRun_of_decNext_decoding hlive hnext rfl
  obtain rfl := Host.Outcome.next.inj (hrest.symm.trans hu)
  have hcount : BitVec.ofNat 64 (n + 1) = BitVec.ofNat 64 n + 1 := BitVec.ofNat_add n 1
  rw [LeavesDec, ranToEnd, hcount]
  exact hs

/-! #### The stream -/

theorem streamBytes_cons (f : Field) (fs : List Field) : streamBytes (f :: fs) = f.bytes ++ streamBytes fs :=
  List.flatMap_cons

/-- A pull moves neither the source nor what is in it. -/
theorem sameSource_delivered (c : Commit) (st : DState) (s : State) : SameSource s (s.withDec (delivered c st s)) :=
  ⟨rfl, fun j _ => src_withDec s (delivered c st s) rfl rfl rfl j⟩

theorem leavesDec_decRun_of_stream (fs : List Field) {s : State} {q : Nat} (hlive : Live s) (heof : .eof ∉ fs)
    (hv : ∀ f ∈ fs, Field.valid f = true) (h : SourceHolds s s.dec.rpos (streamBytes fs))
    (hend : StreamEnds s (s.dec.rpos + (streamBytes fs).length) q) :
    LeavesDec .decRun s (ranToEnd q fs.length (streamEvents s.dec.rpos fs) s) := by
  induction fs generalizing s with
  | nil => exact leavesDec_decRun_of_streamEnds hlive hend
  | cons f fs ih =>
    obtain ⟨hvf, hvfs⟩ := List.forall_mem_cons.1 hv
    have hne : .eof ≠ f := List.ne_of_not_mem_cons heof
    have heofs : .eof ∉ fs := List.not_mem_of_not_mem_cons heof
    rw [streamBytes_cons] at h hend
    rw [List.length_append, ← Nat.add_assoc] at hend
    obtain ⟨hfield, hrest⟩ := sourceHolds_append.1 h
    have hsame := sameSource_delivered (f.commit s.dec.rpos) .decoding s
    have hnext := leavesDec_decNext_of_field hlive hvf hne.symm hfield
    exact leavesDec_decRun_of_field hlive hnext
      (ih (.inr rfl) heofs hvfs (hsame.sourceHolds hrest) (hsame.streamEnds hend))

/-- Settles O53: the two ends of the stream are an EOF byte behind it and the end of the source. -/
theorem runDeliversTheStream : Obligations.RunDeliversTheStream := by
  refine fun s fs hlive heof hv => ⟨fun h => ?_, fun h hend => ?_⟩
  · obtain ⟨hstream, hbyte⟩ := sourceHolds_append.1 h
    exact leavesDec_decRun_of_stream fs hlive heof hv hstream (.eofByte hbyte)
  · rw [← hend]
    exact leavesDec_decRun_of_stream fs hlive heof hv h (.source hend)

/-! #### What was encoded is decoded -/

/-- A stream is the fields before its first EOF, and then nothing or that EOF (R211). -/
theorem fieldsToEof_append (fs : List Field) :
    ∃ tail, fs = fieldsToEof fs ++ tail ∧ (tail = [] ∨ ∃ rest, tail = .eof :: rest) := by
  induction fs with
  | nil => exact ⟨[], rfl, .inl rfl⟩
  | cons f fs ih =>
    by_cases hf : f = .eof
    · subst hf
      exact ⟨.eof :: fs, rfl, .inr ⟨fs, rfl⟩⟩
    · obtain ⟨tail, hsplit, htail⟩ := ih
      rw [fieldsToEof, if_neg hf]
      exact ⟨tail, congrArg (f :: ·) hsplit, htail⟩

theorem mem_of_mem_fieldsToEof {f : Field} {fs : List Field} (h : f ∈ fieldsToEof fs) : f ∈ fs := by
  obtain ⟨tail, hsplit, -⟩ := fieldsToEof_append fs
  rw [hsplit]
  exact List.mem_append_left tail h

theorem eof_not_mem_fieldsToEof (fs : List Field) : .eof ∉ fieldsToEof fs := by
  induction fs with
  | nil => exact List.not_mem_nil
  | cons f fs ih =>
    rw [fieldsToEof]
    split
    case isTrue => exact List.not_mem_nil
    case isFalse hf => exact List.not_mem_cons_of_ne_of_not_mem (Ne.symm hf) ih

/-- Over a source that is a stream, what stands in front of its first EOF is a stream that ends. -/
theorem streamEnds_fieldsToEof {fs : List Field} {u : State} {p : Nat} (h : SourceHolds u p (streamBytes fs))
    (hsize : p + (streamBytes fs).length = u.dec.rsize) :
    SourceHolds u p (streamBytes (fieldsToEof fs)) ∧
    ∃ q, StreamEnds u (p + (streamBytes (fieldsToEof fs)).length) q := by
  obtain ⟨tail, hsplit, htail⟩ := fieldsToEof_append fs
  have hbytes : streamBytes fs = streamBytes (fieldsToEof fs) ++ streamBytes tail :=
    (congrArg streamBytes hsplit).trans List.flatMap_append
  rw [hbytes] at h hsize
  obtain ⟨hfields, hrest⟩ := sourceHolds_append.1 h
  rcases htail with rfl | ⟨rest, rfl⟩
  · have hnil : streamBytes [] = [] := rfl
    rw [hnil, List.append_nil] at hsize
    exact ⟨hfields, _, .source hsize⟩
  · rw [streamBytes_cons] at hrest
    exact ⟨hfields, _, .eofByte (sourceHolds_append.1 hrest).1⟩

/-- A source that is the output of the encoder holds it. -/
theorem sourceHolds_outputBytes {t u : State} (hsize : u.dec.rsize = t.enc.wpos)
    (hsrc : ∀ i, i < t.enc.wpos → src u i = wbufByte t i) : SourceHolds u 0 (outputBytes t) := by
  refine ⟨by rw [length_outputBytes, hsize, Nat.zero_add], fun k b hb => ?_⟩
  obtain ⟨hk, rfl⟩ := List.getElem?_eq_some_iff.1 hb
  rw [length_outputBytes] at hk
  simp only [outputBytes, List.getElem_map, List.getElem_range, Nat.zero_add, hsrc k hk]

/-- Settles O54: the output of the encoder is the stream, and over a source that holds it the run is that of the
fields before the first EOF. -/
theorem streamsRoundTrip : Obligations.StreamsRoundTrip := by
  intro s fs hf hpos hv hport hfit
  obtain ⟨t, hrun, -, -, hout⟩ := encoderOutputIsTheStream s fs hf hv hport (by omega)
  have hempty : outputBytes s = [] := List.length_eq_zero_iff.1 ((length_outputBytes s).trans hpos)
  rw [hempty, List.nil_append] at hout
  refine ⟨t, hrun, fun u hlive hstart hsize hsrc => ?_⟩
  have hholds := sourceHolds_outputBytes hsize hsrc
  have hwpos : t.enc.wpos = (streamBytes fs).length :=
    (length_outputBytes t).symm.trans (congrArg List.length hout)
  rw [hout] at hholds
  obtain ⟨hfields, q, hend⟩ := streamEnds_fieldsToEof hholds (by omega)
  rw [← hstart] at hfields hend ⊢
  exact ⟨_, leavesDec_decRun_of_stream _ hlive (eof_not_mem_fieldsToEof fs)
    (fun f hmem => hv f (mem_of_mem_fieldsToEof hmem)) hfields hend, rfl, rfl, rfl⟩

end Sys2Proof.Machine
end

section
/-! ### The decoder, constructed, filled, restarted and read out (R255 to R259) -/

namespace Sys2Proof.Machine

/-! #### What a `DEC` command does that runs no step of the dispatcher -/

/-- In `Aborted` a command answers the latched cause (R297). -/
theorem leavesDec_of_aborted {i : Instr} {body : State → Dec × Reply} {s : State} (hi : exec i s = decCommand body s)
    (ha : s.dec.dstate = .aborted) : LeavesDec i s (decLatched s) := by
  rw [LeavesDec, hi, decCommand, if_pos ha]
  rfl

/-- Outside `Aborted` a command leaves `DEC` as its body says, and answers. -/
theorem leavesDec_of_body {i : Instr} {body : State → Dec × Reply} {s : State} {d : Dec} {r : Reply}
    (hi : exec i s = decCommand body s) (ha : s.dec.dstate ≠ .aborted) (hb : body s = (d, r)) :
    LeavesDec i s { d with resp := some r.response, events := [] } := by
  rw [LeavesDec, hi, decCommand, if_neg ha, hb]
  rfl

/-! #### The two constructors -/

theorem leavesDec_decAttach_of_fits {base size : Word} {s : State} (hsize : size.toNat ≤ 2 ^ s.cfg.aw - 1)
    (hwindow : base.toNat + size.toNat ≤ 2 ^ s.cfg.haw) :
    LeavesDec (.decAttach base size) s
      { s.dec.construct .borrowed base.toNat size.toNat with resp := some (okResponse 0 0), events := [] } := by
  have hrun : execDecAttach base size s =
      .next (answerDec [] (.okWith 0 0) (s.withDec (s.dec.construct .borrowed base.toNat size.toNat))) :=
    if_neg (not_or.2 ⟨Nat.not_lt.2 hsize, Nat.not_lt.2 hwindow⟩)
  exact hrun

theorem leavesDec_decAttach_of_not_fits {base size : Word} {s : State}
    (h : 2 ^ s.cfg.aw - 1 < size.toNat ∨ 2 ^ s.cfg.haw < base.toNat + size.toNat) :
    LeavesDec (.decAttach base size) s (decRaised [] .invalidArgument s) := by
  have hrun : execDecAttach base size s = .next (takeFault .dec [] .invalidArgument s) := if_pos h
  exact hrun

theorem leavesDec_decAlloc_of_fits {size : Word} {s : State} (h : size.toNat ≤ s.cfg.rbufMax) :
    LeavesDec (.decAlloc size) s
      { s.dec.construct .owned 0 size.toNat with resp := some (okResponse 0 0), events := [] } := by
  have hrun : execDecAlloc size s =
      .next (answerDec [] (.okWith 0 0) (s.withDec (s.dec.construct .owned 0 size.toNat))) :=
    if_neg (Nat.not_lt.2 h)
  exact hrun

theorem leavesDec_decAlloc_of_not_fits {size : Word} {s : State} (h : s.cfg.rbufMax < size.toNat) :
    LeavesDec (.decAlloc size) s (decRaised [] .invalidArgument s) := by
  have hrun : execDecAlloc size s = .next (takeFault .dec [] .invalidArgument s) := if_pos h
  exact hrun

/-- Settles O30: the two checks decide, and `Dec.construct` writes every register but `rbuf`. -/
theorem decAttachConstructs : Obligations.DecAttachConstructs := fun _ _ _ =>
  ⟨leavesDec_decAttach_of_fits, leavesDec_decAttach_of_not_fits⟩

/-- Settles O31: the check of the size decides, and `Dec.construct` writes every register but `rbuf`. -/
theorem decAllocConstructs : Obligations.DecAllocConstructs := fun _ _ =>
  ⟨leavesDec_decAlloc_of_fits, leavesDec_decAlloc_of_not_fits⟩

/-! #### `DEC_LOAD` -/

theorem decLoadBody_of_refused {idx : Word} {s : State}
    (h : s.dec.rmode ≠ .owned ∨ s.dec.dstate ≠ .ready ∨ s.dec.rsize ≤ idx.toNat) (b : Word) :
    decLoadBody idx b s = (s.dec, .refused) := if_pos h

theorem decLoadBody_of_inside {idx : Word} {s : State} (hmode : s.dec.rmode = .owned) (hready : s.dec.dstate = .ready)
    (hidx : idx.toNat < s.dec.rsize) (b : Word) :
    decLoadBody idx b s = ({ s.dec with rbuf := Memory.write s.dec.rbuf idx.toNat (byteAt b 0) }, .ok 0 0) :=
  if_neg (by simp [hmode, hready, hidx])

theorem rbufByte_withDec_of_write {s : State} {d : Dec} {p : Nat} {b : Byte}
    (hw : d.rbuf = Memory.write s.dec.rbuf p b) (a : Nat) :
    rbufByte (s.withDec d) a = if a = p then b else rbufByte s a := by
  simp only [rbufByte, State.withDec_dec, State.withDec_epoch, hw, Memory.read_write]
  split <;> rfl

/-- Settles O32: past the three checks the body is one write, short of them it leaves the decoder alone. -/
theorem decLoadFillsTheBuffer : Obligations.DecLoadFillsTheBuffer := fun s idx b => by
  have hi : exec (.decLoad idx b) s = decCommand (decLoadBody idx b) s := rfl
  refine ⟨leavesDec_of_aborted hi, fun ha hout => ?_, fun hmode hready hidx => ?_⟩
  · exact leavesDec_of_body hi ha (decLoadBody_of_refused hout b)
  · have hleaves := leavesDec_of_body hi (by simp [hready]) (decLoadBody_of_inside hmode hready hidx b)
    exact ⟨_, hleaves, rfl, rbufByte_withDec_of_write rfl⟩

/-! #### `DEC_RESET` and `DEC_READ` -/

/-- Settles O33: outside `Aborted` the body is `rewind`. -/
theorem decResetRestarts : Obligations.DecResetRestarts := fun s => by
  have hi : exec .decReset s = decCommand decResetBody s := rfl
  exact ⟨leavesDec_of_aborted hi, fun ha => leavesDec_of_body hi ha rfl⟩

theorem decReadBody_of_le {off : Word} {s : State} (h : s.dec.rsize ≤ off.toNat) :
    decReadBody off s = (s.dec, .refused) := if_pos h

theorem decReadBody_of_lt {off : Word} {s : State} (h : off.toNat < s.dec.rsize) :
    decReadBody off s = (s.dec, .ok (byteWord (src s off.toNat)) 0) := if_neg (Nat.not_le.2 h)

/-- Settles O34: both ends of the body leave the decoder as it is and differ in the answer alone. -/
theorem decReadAnswersSource : Obligations.DecReadAnswersSource := fun s off => by
  have hi : exec (.decRead off) s = decCommand (decReadBody off) s := rfl
  refine ⟨leavesDec_of_aborted hi, fun ha hout => ?_, fun ha hin => ?_⟩
  · exact leavesDec_of_body hi ha (decReadBody_of_le hout)
  · exact leavesDec_of_body hi ha (decReadBody_of_lt hin)

end Sys2Proof.Machine
end

section
/-! ### Faults (R290 to R304)

Beside the constructors and the reserved code, an `ENC` command is `encCommand` of a body, and a `DEC` instruction is a
pull or `decCommand` of a body. What a fault state answers, what a raise writes and what leaves a fault state is said
of these few forms. -/

namespace Sys2Proof.Machine

theorem LeavesEnc.eq_withEnc {i : Instr} {s t : State} {e : Enc} (h : LeavesEnc i s e) (ht : exec i s = .next t) :
    t = s.withEnc e := Host.Outcome.next.inj (ht.symm.trans h)

theorem LeavesDec.eq_withDec {i : Instr} {s t : State} {d : Dec} (h : LeavesDec i s d) (ht : exec i s = .next t) :
    t = s.withDec d := Host.Outcome.next.inj (ht.symm.trans h)

theorem exec_dec_enc_eq {i : Instr} (hi : i.isEnc = false) {s t : State} (ht : exec i s = .next t) :
    t.enc = s.enc := by
  rw [(exec_actsOnDec i hi).frame ht]
  rfl

/-! #### The forms of an instruction -/

/-- The body of an `ENC` command raises the two kinds of `ENC` only (R290), and where it does not raise it leaves the
fault state as it is. -/
structure RaisesEncKinds (body : State → Except Cause (Enc × Reply)) : Prop where
  raises : ∀ s c, body s = .error c → c = .capacityExceeded ∨ c = .invalidArgument
  efault_eq : ∀ s e r, body s = .ok (e, r) → e.efault = s.enc.efault

theorem addBytes_raisesEncKinds (bs : List Byte) : RaisesEncKinds fun s => addBytes bs s.enc where
  raises s c h := .inl (addBytes_error h).1
  efault_eq s e r h := by
    obtain ⟨-, -, rfl⟩ := addBytes_ok h
    rfl

theorem addFixed_raisesEncKinds (k : FixedKind) (v : Word) : RaisesEncKinds (addFixed k v) :=
  funext (addFixed_eq k v) ▸ addBytes_raisesEncKinds _

theorem addLeb_raisesEncKinds {t : Nat} (ht : t < 16) (bs : List Byte) : RaisesEncKinds (addLeb t bs) :=
  funext (addLeb_eq ht bs) ▸ addBytes_raisesEncKinds _

theorem addEofBody_raisesEncKinds : RaisesEncKinds addEofBody :=
  funext addEofBody_eq ▸ addBytes_raisesEncKinds _

theorem addShortBody_raisesEncKinds (v : Word) : RaisesEncKinds (addShortBody v) := by
  rw [funext (addShortBody_eq v)]
  split
  · exact ⟨fun _ _ h => .inr (Except.error.inj h).symm, by simp⟩
  · exact addBytes_raisesEncKinds _

theorem addVectorBody_raisesEncKinds (n : Word) : RaisesEncKinds (addVectorBody n) where
  raises s c h := by
    obtain ⟨hdr, -, ⟨-, hb⟩ | ⟨-, hb⟩⟩ := addVectorBody_cases n s <;> cases hb.symm.trans h
    exact .inl rfl
  efault_eq s e r h := by
    obtain ⟨hdr, -, ⟨-, hb⟩ | ⟨-, hb⟩⟩ := addVectorBody_cases n s <;> cases hb.symm.trans h
    rfl

theorem encResetBody_raisesEncKinds : RaisesEncKinds encResetBody where
  raises s c h := nomatch h
  efault_eq s e r h := by
    cases h
    rfl

theorem encFillBody_raisesEncKinds (idx v : Word) : RaisesEncKinds (encFillBody idx v) where
  raises s c h := by
    unfold encFillBody at h
    split at h <;> cases h
  efault_eq s e r h := by
    unfold encFillBody at h
    split at h <;> cases h <;> rfl

theorem encReadBody_raisesEncKinds (off : Word) : RaisesEncKinds (encReadBody off) where
  raises s c h := by
    unfold encReadBody at h
    split at h <;> cases h
  efault_eq s e r h := by
    unfold encReadBody at h
    split at h <;> cases h <;> rfl

theorem exec_eq_encCommand {i : Instr} (hi : i.isEnc = true) (hc : i.isConstructor = false) (hr : i ≠ .reserved0E) :
    ∃ body, RaisesEncKinds body ∧ exec i = encCommand body := by
  cases i with
  | addInt8 v | addUint8 v | addInt16 v | addUint16 v | addInt32 v | addUint32 v | addInt64 v | addUint64 v
  | addFloat32 v | addFloat64 v => exact ⟨_, addFixed_raisesEncKinds _ v, rfl⟩
  | addUleb128 v | addSleb128 v => exact ⟨_, addLeb_raisesEncKinds (by decide) _, rfl⟩
  | addShort v => exact ⟨_, addShortBody_raisesEncKinds v, rfl⟩
  | addVector n => exact ⟨_, addVectorBody_raisesEncKinds n, rfl⟩
  | addEof => exact ⟨_, addEofBody_raisesEncKinds, rfl⟩
  | encReset => exact ⟨_, encResetBody_raisesEncKinds, rfl⟩
  | encFill idx v => exact ⟨_, encFillBody_raisesEncKinds idx v, rfl⟩
  | encRead off => exact ⟨_, encReadBody_raisesEncKinds off, rfl⟩
  | reserved0E => exact absurd rfl hr
  | encInit cap => cases hc
  | _ => cases hi

/-- A `DEC` command that is no pull and no constructor never takes `DEC` to `Aborted`. -/
theorem exec_eq_decCommand {i : Instr} (hi : i.isEnc = false) (hc : i.isConstructor = false) (hp : i.isPull = false) :
    ∃ body, (∀ s, s.dec.dstate ≠ .aborted → (body s).1.dstate ≠ .aborted) ∧ exec i = decCommand body := by
  cases i with
  | decLoad idx v => exact ⟨decLoadBody idx v, fun s ha => decLoadBody_dstate idx v s ▸ ha, rfl⟩
  | decReset => exact ⟨decResetBody, fun _ _ => nofun, rfl⟩
  | decRead off => exact ⟨decReadBody off, fun s ha => decReadBody_fst off s ▸ ha, rfl⟩
  | decAttach base size | decAlloc size => cases hc
  | int8 | uint8 | int16 | uint16 | int32 | uint32 | int64 | uint64 | uleb128 | sleb128 | float32 | float64 | short
  | vector | vectorLarge | reserved14 | eof | decNext | decRun => cases hp
  | _ => cases hi

theorem eq_encInit_of_isConstructor {i : Instr} (hi : i.isEnc = true) (hc : i.isConstructor = true) :
    ∃ cap, i = .encInit cap := by
  cases i with
  | encInit cap => exact ⟨cap, rfl⟩
  | decAttach | decAlloc => cases hi
  | _ => cases hc

theorem eq_decAttach_or_decAlloc_of_isConstructor {i : Instr} (hi : i.isEnc = false) (hc : i.isConstructor = true) :
    (∃ base size, i = .decAttach base size) ∨ ∃ size, i = .decAlloc size := by
  cases i with
  | decAttach base size => exact .inl ⟨base, size, rfl⟩
  | decAlloc size => exact .inr ⟨size, rfl⟩
  | encInit => cases hi
  | _ => cases hc

/-- The two ends of the constructor of `ENC` (R225). -/
theorem encInit_ends {cap : Word} {s t : State} (ht : exec (.encInit cap) s = .next t) :
    t = s.withEnc (encRaised .invalidArgument s) ∨
    (cap.toNat ≤ s.cfg.wbufMax ∧ t = s.withEnc { s.enc.construct cap.toNat with resp := some (okResponse 0 0) }) := by
  obtain ⟨hconstructs, hraised⟩ := encInitConstructs s cap
  rcases Nat.lt_or_ge s.cfg.wbufMax cap.toNat with hlarge | hroom
  · exact .inl ((hraised hlarge).eq_withEnc ht)
  · exact .inr ⟨hroom, (hconstructs hroom).eq_withEnc ht⟩

/-- The two ends of a constructor of `DEC` (R255, R256). -/
theorem decConstructor_ends {i : Instr} (hi : i.isEnc = false) (hc : i.isConstructor = true) {s t : State}
    (ht : exec i s = .next t) :
    t = s.withDec (decRaised [] .invalidArgument s) ∨
    ∃ mode base size,
      t = s.withDec { s.dec.construct mode base size with resp := some (okResponse 0 0), events := [] } := by
  rcases eq_decAttach_or_decAlloc_of_isConstructor hi hc with ⟨base, size, rfl⟩ | ⟨size, rfl⟩
  · by_cases hlarge : 2 ^ s.cfg.aw - 1 < size.toNat ∨ 2 ^ s.cfg.haw < base.toNat + size.toNat
    · exact .inl ((leavesDec_decAttach_of_not_fits hlarge).eq_withDec ht)
    · obtain ⟨hsize, hwindow⟩ := not_or.1 hlarge
      exact .inr ⟨_, _, _,
        (leavesDec_decAttach_of_fits (Nat.not_lt.1 hsize) (Nat.not_lt.1 hwindow)).eq_withDec ht⟩
  · rcases Nat.lt_or_ge s.cfg.rbufMax size.toNat with hlarge | hfits
    · exact .inl ((leavesDec_decAlloc_of_not_fits hlarge).eq_withDec ht)
    · exact .inr ⟨_, _, _, (leavesDec_decAlloc_of_fits hfits).eq_withDec ht⟩

/-! #### In a fault state (R297) -/

theorem leavesDec_pull_of_aborted {i : Instr} {arm : Arm} {s : State} (hi : exec i s = nextField arm s)
    (ha : s.dec.dstate = .aborted) : LeavesDec i s (decLatched s) := by
  simp only [LeavesDec, hi, nextField, ha]
  rfl

theorem leavesEnc_encLatched {i : Instr} {s : State} (hf : s.enc.efault = true) (hi : i.isEnc = true)
    (hc : i.isConstructor = false) (hr : i ≠ .reserved0E) : LeavesEnc i s (encLatched s) := by
  obtain ⟨body, -, hexec⟩ := exec_eq_encCommand hi hc hr
  exact leavesEnc_of_efault (congrFun hexec s) hf

theorem leavesDec_decLatched {i : Instr} {s : State} (ha : s.dec.dstate = .aborted) (hi : i.isEnc = false)
    (hc : i.isConstructor = false) : LeavesDec i s (decLatched s) := by
  cases hp : i.isPull with
  | true =>
    by_cases hrun : i = .decRun
    · exact hrun ▸ leavesDec_decRun_of_aborted ha
    · obtain ⟨arm, -, hexec⟩ := exec_eq_nextField_of_isPull hp hrun
      exact leavesDec_pull_of_aborted (congrFun hexec s) ha
  | false =>
    obtain ⟨body, -, hexec⟩ := exec_eq_decCommand hi hc hp
    exact leavesDec_of_aborted (congrFun hexec s) ha

/-- A record that does not decode is refused, whatever state the units are in (R105). -/
theorem step_of_decode_error {s : State} {u : UnitId} {c : CmdRecord} {rest : List HostAction} {e : DecodeRefusal}
    (hp : s.port = .command u c :: rest) (hd : decode (.command u c) = .error e) :
    step s = .next (refuse u (s.withPort rest)) := by
  simp only [step, fetch, hp, hd]

/-- Settles O46: each form of a command looks at the fault state first; a refusal does not look at it. -/
theorem faultStatesAreSticky : Obligations.FaultStatesAreSticky := fun s =>
  ⟨fun hf _ => leavesEnc_encLatched hf, fun ha _ => leavesDec_decLatched ha, reservedCommandIsRefused s,
    fun _ _ _ _ => step_of_decode_error⟩

/-! #### Leaving a fault state (R300, R302) -/

theorem encInit_of_fault_line_falls {i : Instr} {s t : State} (ht : exec i s = .next t) (hf : s.enc.efault = true)
    (hclear : t.enc.efault = false) : ∃ cap, i = .encInit cap ∧ cap.toNat ≤ s.cfg.wbufMax := by
  have hkept (he : t.enc.efault = s.enc.efault) : False := by simp [he, hf] at hclear
  cases hi : i.isEnc with
  | false => exact (hkept (congrArg Enc.efault (exec_dec_enc_eq hi ht))).elim
  | true =>
    cases hc : i.isConstructor with
    | true =>
      obtain ⟨cap, rfl⟩ := eq_encInit_of_isConstructor hi hc
      rcases encInit_ends ht with rfl | ⟨hroom, -⟩
      · cases hclear
      · exact ⟨cap, rfl, hroom⟩
    | false =>
      by_cases hr : i = .reserved0E
      · subst hr
        obtain rfl := (reservedCommandIsRefused s).eq_withEnc ht
        exact (hkept rfl).elim
      · obtain rfl := (leavesEnc_encLatched hf hi hc hr).eq_withEnc ht
        exact (hkept rfl).elim

theorem decAttach_of_not_aborted {base size : Word} {s t : State} (ht : exec (.decAttach base size) s = .next t)
    (hclear : t.dec.dstate ≠ .aborted) : base.toNat + size.toNat ≤ 2 ^ s.cfg.haw := by
  refine Nat.not_lt.1 fun hlarge => ?_
  obtain rfl := (leavesDec_decAttach_of_not_fits (.inr hlarge)).eq_withDec ht
  exact hclear rfl

theorem decAlloc_of_not_aborted {size : Word} {s t : State} (ht : exec (.decAlloc size) s = .next t)
    (hclear : t.dec.dstate ≠ .aborted) : size.toNat ≤ s.cfg.rbufMax := by
  refine Nat.not_lt.1 fun hlarge => ?_
  obtain rfl := (leavesDec_decAlloc_of_not_fits hlarge).eq_withDec ht
  exact hclear rfl

theorem constructor_of_leaves_aborted {i : Instr} {s t : State} (ht : exec i s = .next t)
    (ha : s.dec.dstate = .aborted) (hclear : t.dec.dstate ≠ .aborted) :
    (∃ base size, i = .decAttach base size ∧ base.toNat + size.toNat ≤ 2 ^ s.cfg.haw) ∨
    ∃ size, i = .decAlloc size ∧ size.toNat ≤ s.cfg.rbufMax := by
  cases hi : i.isEnc with
  | true => exact absurd (exec_enc_dec_eq hi ht ▸ ha) hclear
  | false =>
    cases hc : i.isConstructor with
    | true =>
      rcases eq_decAttach_or_decAlloc_of_isConstructor hi hc with ⟨base, size, rfl⟩ | ⟨size, rfl⟩
      · exact .inl ⟨base, size, rfl, decAttach_of_not_aborted ht hclear⟩
      · exact .inr ⟨size, rfl, decAlloc_of_not_aborted ht hclear⟩
    | false =>
      obtain rfl := (leavesDec_decLatched ha hi hc).eq_withDec ht
      exact absurd ha hclear

/-- Settles O48: every other command of the unit answers the latched cause and stays, and a constructor that does not
succeed raises anew. -/
theorem faultLinesFallOnlyByConstructors : Obligations.FaultLinesFallOnlyByConstructors := fun _ _ _ ht =>
  ⟨encInit_of_fault_line_falls ht,
    fun ha hclear => constructor_of_leaves_aborted ht (of_decide_eq_true ha) (of_decide_eq_false hclear)⟩

/-! #### Coming to a fault state (R296) -/

theorem encCommand_raised {body : State → Except Cause (Enc × Reply)} (hb : RaisesEncKinds body) {s t : State}
    (ht : encCommand body s = .next t) (hs : s.enc.efault = false) (hf : t.enc.efault = true) :
    ∃ c, (c = .capacityExceeded ∨ c = .invalidArgument) ∧ t = s.withEnc (encRaised c s) := by
  rcases encCommand_cases ht with ⟨hs', -⟩ | ⟨-, c, hc, rfl⟩ | ⟨-, e, r, he, rfl⟩
  · simp [hs] at hs'
  · exact ⟨c, hb.raises s c hc, rfl⟩
  · have hkept : e.efault = true := hf
    simp [hb.efault_eq s e r he, hs] at hkept

/-- Whatever takes `ENC` to the Fault state is a raise of one of its two kinds. -/
theorem exec_enc_raised {i : Instr} {s t : State} (ht : exec i s = .next t) (hs : s.enc.efault = false)
    (hf : t.enc.efault = true) :
    ∃ c, (c = .capacityExceeded ∨ c = .invalidArgument) ∧ t = s.withEnc (encRaised c s) := by
  have hkept (he : t.enc.efault = s.enc.efault) : False := by simp [he, hs] at hf
  cases hi : i.isEnc with
  | false => exact (hkept (congrArg Enc.efault (exec_dec_enc_eq hi ht))).elim
  | true =>
    cases hc : i.isConstructor with
    | true =>
      obtain ⟨cap, rfl⟩ := eq_encInit_of_isConstructor hi hc
      rcases encInit_ends ht with rfl | ⟨-, rfl⟩
      · exact ⟨_, .inr rfl, rfl⟩
      · cases hf
    | false =>
      by_cases hr : i = .reserved0E
      · subst hr
        obtain rfl := (reservedCommandIsRefused s).eq_withEnc ht
        exact (hkept rfl).elim
      · obtain ⟨body, hb, hexec⟩ := exec_eq_encCommand hi hc hr
        exact encCommand_raised hb (hexec ▸ ht) hs hf

theorem live_of_ne {s : State} (ha : s.dec.dstate ≠ .aborted) (hd : s.dec.dstate ≠ .done) : Live s := by
  cases h : s.dec.dstate with
  | ready => exact .inl h
  | decoding => exact .inr h
  | done => exact absurd h hd
  | aborted => exact absurd h ha

/-- A pull that takes `DEC` to `Aborted` raises what its arm raises. -/
theorem nextField_raised {arm : Arm} (hgood : GoodArm arm) {s t : State} (ht : nextField arm s = .next t)
    (hs : s.dec.dstate ≠ .aborted) (ha : t.dec.dstate = .aborted) :
    ∃ c, (c = .truncated ∨ c = .overflow ∨ c = .unknownType) ∧ t = s.withDec (decRaised [] c s) := by
  by_cases hd : s.dec.dstate = .done
  · rcases nextField_cases ht with ⟨hs', -⟩ | ⟨-, rfl⟩ | ⟨hlive, -⟩ | ⟨hlive, -⟩
    · exact absurd hs' hs
    · exact absurd ha hs
    · exact absurd hd (Live.ne_done hlive)
    · exact absurd hd (Live.ne_done hlive)
  · cases nextField_pullEnds hgood (live_of_ne hs hd) ht with
    | raised c _ harm => exact ⟨c, hgood.raises s _ c harm, rfl⟩
    | exhausted | eof | field => cases ha

/-- Whatever but `DEC_RUN` takes `DEC` to `Aborted` is a raise: of a kind of a stream in a pull, of `InvalidArgument`
in a constructor, and of nothing else. -/
theorem exec_dec_raised {i : Instr} {s t : State} (ht : exec i s = .next t) (hrun : i ≠ .decRun)
    (hs : s.dec.dstate ≠ .aborted) (ha : t.dec.dstate = .aborted) :
    ∃ c, t = s.withDec (decRaised [] c s) ∧
      if i.isPull = true then c = .truncated ∨ c = .overflow ∨ c = .unknownType else c = .invalidArgument := by
  cases hi : i.isEnc with
  | true => exact absurd (exec_enc_dec_eq hi ht ▸ ha) hs
  | false =>
    cases hp : i.isPull with
    | true =>
      obtain ⟨arm, hgood, hexec⟩ := exec_eq_nextField_of_isPull hp hrun
      obtain ⟨c, hc, heq⟩ := nextField_raised hgood (hexec ▸ ht) hs ha
      exact ⟨c, heq, hc⟩
    | false =>
      cases hc : i.isConstructor with
      | true =>
        rcases decConstructor_ends hi hc ht with rfl | ⟨mode, base, size, rfl⟩
        · exact ⟨_, rfl, rfl⟩
        · cases ha
      | false =>
        obtain ⟨body, hb, hexec⟩ := exec_eq_decCommand hi hc hp
        exact absurd ha (decCommand_ne_aborted (hexec ▸ ht) hs (hb s hs))

/-- Settles O47: for each unit, over the forms of its instructions. -/
theorem faultsArePrecise : Obligations.FaultsArePrecise := fun _ _ _ ht =>
  ⟨exec_enc_raised ht, exec_dec_raised ht⟩

/-! #### Responses (R104, R350) -/

theorem Reply.response_regular (r : Reply) : r.response.Regular := by
  cases r with
  | ok r0 r1 => exact Response.okWith_regular r0 r1
  | refused => exact Response.refusal_regular

theorem encCommand_responds {body : State → Except Cause (Enc × Reply)} {s t : State}
    (ht : encCommand body s = .next t) : ∃ r, t.enc.resp = some r ∧ r.Regular := by
  rcases encCommand_cases ht with ⟨-, rfl⟩ | ⟨-, c, -, rfl⟩ | ⟨-, e, r, -, rfl⟩
  · exact ⟨_, rfl, Response.faultOf_regular _⟩
  · exact ⟨_, rfl, Response.faultOf_regular c⟩
  · exact ⟨_, rfl, r.response_regular⟩

theorem decCommand_responds {body : State → Dec × Reply} {s t : State} (ht : decCommand body s = .next t) :
    ∃ r, t.dec.resp = some r ∧ r.Regular := by
  rcases decCommand_cases ht with ⟨-, rfl⟩ | ⟨-, rfl⟩
  · exact ⟨_, rfl, Response.faultOf_regular _⟩
  · exact ⟨_, rfl, (body s).2.response_regular⟩

theorem nextField_responds {arm : Arm} {s t : State} (ht : nextField arm s = .next t) :
    ∃ r, t.dec.resp = some r ∧ r.Regular := by
  rcases nextField_cases ht with ⟨-, rfl⟩ | ⟨-, rfl⟩ | ⟨-, c, -, rfl⟩ | ⟨-, d, -, rfl⟩
  · exact ⟨_, rfl, Response.faultOf_regular _⟩
  · exact ⟨_, rfl, Response.okWith_regular _ _⟩
  · exact ⟨_, rfl, Response.faultOf_regular c⟩
  · exact ⟨_, rfl, Response.okWith_regular _ _⟩

theorem exec_enc_responds {i : Instr} (hi : i.isEnc = true) {s t : State} (ht : exec i s = .next t) :
    ∃ r, t.enc.resp = some r ∧ r.Regular := by
  cases hc : i.isConstructor with
  | true =>
    obtain ⟨cap, rfl⟩ := eq_encInit_of_isConstructor hi hc
    rcases encInit_ends ht with rfl | ⟨-, rfl⟩
    · exact ⟨_, rfl, Response.faultOf_regular _⟩
    · exact ⟨_, rfl, Response.okWith_regular _ _⟩
  | false =>
    by_cases hr : i = .reserved0E
    · subst hr
      cases ht
      exact ⟨_, rfl, Response.refusal_regular⟩
    · obtain ⟨body, -, hexec⟩ := exec_eq_encCommand hi hc hr
      exact encCommand_responds (hexec ▸ ht)

theorem exec_dec_responds {i : Instr} (hi : i.isEnc = false) {s t : State} (ht : exec i s = .next t) :
    ∃ r, t.dec.resp = some r ∧ r.Regular := by
  cases hp : i.isPull with
  | true =>
    by_cases hrun : i = .decRun
    · subst hrun
      exact execDecRun_responds ht
    · obtain ⟨arm, -, hexec⟩ := exec_eq_nextField_of_isPull hp hrun
      exact nextField_responds (hexec ▸ ht)
  | false =>
    cases hc : i.isConstructor with
    | true =>
      rcases decConstructor_ends hi hc ht with rfl | ⟨mode, base, size, rfl⟩
      · exact ⟨_, rfl, Response.faultOf_regular _⟩
      · exact ⟨_, rfl, Response.okWith_regular _ _⟩
    | false =>
      obtain ⟨body, -, hexec⟩ := exec_eq_decCommand hi hc hp
      exact decCommand_responds (hexec ▸ ht)

/-- Settles O9: every instruction completes, and each form of one ends in an answer. -/
theorem everyCommandResponds : Obligations.EveryCommandResponds := fun i s => by
  obtain ⟨t, ht⟩ := exec_completes i s
  cases hi : i.isEnc with
  | true =>
    obtain ⟨r, hr, hregular⟩ := exec_enc_responds hi ht
    exact ⟨t, r, ht, hr, hregular⟩
  | false =>
    obtain ⟨r, hr, hregular⟩ := exec_dec_responds hi ht
    exact ⟨t, r, ht, hr, hregular⟩

end Sys2Proof.Machine
end

section
/-! ### The state machine of `DEC` (R268) -/

namespace Sys2Proof.Machine

/-! #### Commands that are no pull -/

theorem decCommand_dstate_eq {body : State → Dec × Reply} (hb : ∀ s, (body s).1.dstate = s.dec.dstate) {s t : State}
    (ht : decCommand body s = .next t) : t.dec.dstate = s.dec.dstate := by
  rcases decCommand_cases ht with ⟨-, rfl⟩ | ⟨-, rfl⟩
  · rfl
  · exact hb s

/-- `DEC_LOAD` and `DEC_READ` move no state (R257, R259). -/
theorem decLoad_decRead_dstate_eq {i : Instr} (hi : ∃ a b, i = .decLoad a b ∨ i = .decRead a) {s t : State}
    (ht : exec i s = .next t) : t.dec.dstate = s.dec.dstate := by
  obtain ⟨a, b, rfl | rfl⟩ := hi
  · exact decCommand_dstate_eq (decLoadBody_dstate a b) ht
  · exact decCommand_dstate_eq (fun s => congrArg Dec.dstate (decReadBody_fst a s)) ht

theorem decConstructor_dstate {i : Instr} (hi : ∃ a b, i = .decAttach a b ∨ i = .decAlloc a) {s t : State}
    (ht : exec i s = .next t) :
    (t.dec.dstate = .ready ∧ t.dec.resp = some (okResponse 0 0)) ∨
    (t.dec.dstate = .aborted ∧ t.dec.dcause = .invalidArgument) := by
  obtain ⟨henc, hcons⟩ : i.isEnc = false ∧ i.isConstructor = true := by
    obtain ⟨a, b, rfl | rfl⟩ := hi <;> exact ⟨rfl, rfl⟩
  rcases decConstructor_ends henc hcons ht with rfl | ⟨mode, base, size, rfl⟩
  · exact .inr ⟨rfl, rfl⟩
  · exact .inl ⟨rfl, rfl⟩

theorem decReset_dstate {s t : State} (ht : exec .decReset s = .next t) (ha : s.dec.dstate ≠ .aborted) :
    t.dec.dstate = .ready := by
  obtain ⟨-, hrestarts⟩ := decResetRestarts s
  obtain rfl := (hrestarts ha).eq_withDec ht
  rfl

/-! #### Pulls -/

theorem pull_dstate_of_done {i : Instr} (hi : i.isPull = true) {s t : State} (ht : exec i s = .next t)
    (hd : s.dec.dstate = .done) : t.dec.dstate = .done := by
  by_cases hrun : i = .decRun
  · subst hrun
    obtain rfl := (leavesDec_decRun_of_done hd).eq_withDec ht
    exact hd
  · obtain ⟨arm, -, hexec⟩ := exec_eq_nextField_of_isPull hi hrun
    rcases nextField_cases (hexec ▸ ht) with ⟨ha, -⟩ | ⟨-, rfl⟩ | ⟨hlive, -⟩ | ⟨hlive, -⟩
    · simp [hd] at ha
    · exact hd
    · exact absurd hd (Live.ne_done hlive)
    · exact absurd hd (Live.ne_done hlive)

/-- `DEC` stands at the end of a pass: at the EOF it found, or at the fault it raised. -/
def PassEnded (t : State) : Prop :=
  (t.dec.dstate = .done ∧ t.dec.ltype = 15) ∨ (t.dec.dstate = .aborted ∧ t.dec.dcause ≠ .noFault)

/-- A pull in a pass delivers a field and goes on, or ends the pass. -/
theorem PullEnds.decoding_or_passEnded {arm : Arm} (ha : GoodArm arm) {s t : State} (h : PullEnds arm s t) :
    (t.dec.dstate = .decoding ∧ t.dec.ltype ≠ 15) ∨ PassEnded t := by
  cases h with
  | raised c hp harm => exact .inr (.inr ⟨rfl, ha.ne_noFault harm⟩)
  | exhausted => exact .inr (.inl ⟨rfl, rfl⟩)
  | eof => exact .inr (.inl ⟨rfl, rfl⟩)
  | field c hp harm hgood htype => exact .inl ⟨rfl, htype⟩

/-- A field delivered leaves fewer bytes for the rest of the pass. -/
theorem PullEnds.left_lt {arm : Arm} {s t : State} (h : PullEnds arm s t) (hd : t.dec.dstate = .decoding) :
    t.dec.rsize - t.dec.rpos < s.dec.rsize - s.dec.rpos := by
  cases h with
  | field c hp harm hgood =>
    have hforward := hgood.forward
    have hleft : s.dec.rsize - c.rpos < s.dec.rsize - s.dec.rpos := by omega
    exact hleft
  | raised | exhausted | eof => cases hd

/-- R273: a run in a pass ends it, by induction on the bytes left. -/
theorem decRun_passEnded {s u : State} (hlive : Live s) (hu : exec .decRun s = .next u) : PassEnded u := by
  induction hn : s.dec.rsize - s.dec.rpos using Nat.strong_induction_on generalizing s u with
  | _ n ih =>
    obtain ⟨t, ht⟩ := exec_completes .decNext s
    have hends := nextField_pullEnds armAt_good hlive ht
    rcases hends.decoding_or_passEnded armAt_good with ⟨hd, -⟩ | ⟨hd, htype⟩ | ⟨hd, hcause⟩
    · obtain ⟨v, hv, hs⟩ := exec_decRun_of_decNext_decoding hlive ht hd
      obtain rfl := Host.Outcome.next.inj (hs.symm.trans hu)
      have hrest : PassEnded v := ih _ (hn ▸ hends.left_lt hd) (.inr hd) hv rfl
      exact hrest
    · obtain rfl := Host.Outcome.next.inj ((exec_decRun_of_decNext_done hlive ht hd).symm.trans hu)
      exact .inl ⟨hd, htype⟩
    · obtain rfl := Host.Outcome.next.inj ((exec_decRun_of_decNext_aborted hlive ht hd).symm.trans hu)
      exact .inr ⟨hd, hcause⟩

theorem pull_dstate_of_live {i : Instr} (hi : i.isPull = true) {s t : State} (ht : exec i s = .next t)
    (hlive : Live s) : (t.dec.dstate = .decoding ∧ i ≠ .decRun ∧ t.dec.ltype ≠ 15) ∨ PassEnded t := by
  by_cases hrun : i = .decRun
  · subst hrun
    exact .inr (decRun_passEnded hlive ht)
  · obtain ⟨arm, ha, hexec⟩ := exec_eq_nextField_of_isPull hi hrun
    exact ((nextField_pullEnds ha hlive (hexec ▸ ht)).decoding_or_passEnded ha).imp_left
      fun ⟨hd, htype⟩ => ⟨hd, hrun, htype⟩

/-- Settles O49: one row of R268 after the other. -/
theorem decoderFollowsItsStateMachine : Obligations.DecoderFollowsItsStateMachine := by
  intro i s t ht
  refine ⟨fun hi => congrArg Dec.dstate (exec_enc_dec_eq hi ht), fun hi => decLoad_decRead_dstate_eq hi ht,
    fun hi => decConstructor_dstate hi ht, fun hi hc ha => ?_, ?_, fun hi => pull_dstate_of_done hi ht,
    fun hi => pull_dstate_of_live hi ht⟩
  · obtain rfl := (leavesDec_decLatched ha hi hc).eq_withDec ht
    exact ha
  · rintro rfl ha
    exact decReset_dstate ht ha

end Sys2Proof.Machine
end

section
/-! ### Reset, and what the host does (R48, R312, R330, R336) -/

namespace Sys2Proof.Machine

/-! #### Hardware reset -/

/-- The reset values of R48, as the status port shows them. -/
def resetTable : List (StatusReg × Nat) :=
  [(.wcap, 0), (.wpos, 0), (.efault, 0), (.ecause, 0), (.vvalid, 0), (.vbase, 0), (.vlen, 0),
   (.rmode, 0), (.rbase, 0), (.rsize, 0), (.rpos, 0), (.dstate, 0), (.dcause, 0), (.ltype, 15), (.lvalue, 0),
   (.lsize, 0), (.lrefk, 0), (.loff, 0)]

theorem statusPort_reset : ∀ x ∈ resetTable, statusPort State.reset x.1 = x.2 := by decide

/-- After a reset no byte of the buffers is listed, so each reads as the free value of the epoch (log 6, 7). -/
theorem wbufByte_hardwareReset (s : State) (i : Nat) :
    wbufByte (hardwareReset s) i = Config.freeWbufByte (s.epoch + 1) i := rfl

theorem rbufByte_hardwareReset (s : State) (i : Nat) :
    rbufByte (hardwareReset s) i = Config.freeRbufByte (s.epoch + 1) i := rfl

/-- The status port shows registers of the two units and nothing else. -/
theorem statusPort_congr {s t : State} (henc : t.enc = s.enc) (hdec : t.dec = s.dec) (r : StatusReg) :
    statusPort t r = statusPort s r := by
  cases r <;> simp only [statusPort, henc, hdec]

/-- Settles O1: the table row by row; the reset state lists no byte. -/
theorem resetGivesTheTableValues : Obligations.ResetGivesTheTableValues :=
  ⟨fun r v h => statusPort_reset (r, v) h, rfl, rfl, rfl, rfl, fun _ => rfl, fun _ => rfl⟩

theorem step_hardwareReset {s : State} {rest : List HostAction} (hp : s.port = .hardwareReset :: rest) :
    step s = .next (hardwareReset (s.withPort rest)) := by
  simp only [step, fetch, hp]

/-- Settles O3: the step is the reset, which puts both units at the values of `State.reset`. -/
theorem hardwareResetStepResets : Obligations.HardwareResetStepResets := fun s rest hp =>
  ⟨hardwareReset (s.withPort rest), step_hardwareReset hp,
    statusPort_congr (s := State.reset) (hardwareReset_enc _) (hardwareReset_dec _),
    wbufByte_hardwareReset (s.withPort rest), rbufByte_hardwareReset (s.withPort rest), rfl, rfl, rfl⟩

/-! #### Fresh units -/

/-- With no room at the cursor a field of at least one byte raises `CapacityExceeded` (R222). -/
theorem AddsField.leavesEnc_of_full {i : Instr} {s : State} {bs : List Byte} (h : AddsField i s bs)
    (hf : s.enc.efault = false) (hfull : s.enc.wcap ≤ s.enc.wpos) (hpos : 0 < bs.length) :
    LeavesEnc i s (encRaised .capacityExceeded s) := by
  obtain ⟨-, -, hraised⟩ := h
  exact hraised hf (by omega)

theorem addShort_mod_of_full {v : Word} {s : State} (hf : s.enc.efault = false) (hfull : s.enc.wcap ≤ s.enc.wpos) :
    LeavesEnc (.addShort (v % 16)) s (encRaised .capacityExceeded s) := by
  obtain ⟨hadds, -⟩ := shortFieldsAreAdded s (v % 16)
  have hlegal : (v % 16).toNat % 256 ≤ 15 := by
    rw [BitVec.toNat_umod, show (16 : Word).toNat = 16 from rfl]
    omega
  exact (hadds hlegal).leavesEnc_of_full hf hfull Nat.one_pos

theorem addVector_of_full {n : Word} {s : State} (hf : s.enc.efault = false) (hfull : s.enc.wcap ≤ s.enc.wpos) :
    LeavesEnc (.addVector n) s (encRaised .capacityExceeded s) := by
  obtain ⟨-, -, hraised⟩ := vectorSpansAreReserved s n _ rfl
  refine hraised hf ?_
  split
  · rw [List.length_singleton]
    omega
  · rw [List.length_cons]
    omega

/-- R224: a full encoder takes none of the fifteen kinds of field. -/
theorem leavesEnc_add_of_full {s : State} (hf : s.enc.efault = false) (hfull : s.enc.wcap ≤ s.enc.wpos) {v : Word}
    {i : Instr}
    (hi : i ∈ [Instr.addInt8 v, .addUint8 v, .addInt16 v, .addUint16 v, .addInt32 v, .addUint32 v, .addInt64 v,
      .addUint64 v, .addUleb128 v, .addSleb128 v, .addFloat32 v, .addFloat64 v, .addShort (v % 16), .addVector v,
      .addEof]) : LeavesEnc i s (encRaised .capacityExceeded s) := by
  have hfixed (k : FixedKind) : LeavesEnc (k.addInstr v) s (encRaised .capacityExceeded s) :=
    (addsField_fixed k s v).leavesEnc_of_full hf hfull (Nat.succ_pos _)
  obtain ⟨huleb, hsleb⟩ := lebFieldsAreAdded s v
  simp only [List.mem_cons, List.not_mem_nil, or_false] at hi
  rcases hi with rfl | rfl | rfl | rfl | rfl | rfl | rfl | rfl | rfl | rfl | rfl | rfl | rfl | rfl | rfl
  · exact hfixed .int8
  · exact hfixed .uint8
  · exact hfixed .int16
  · exact hfixed .uint16
  · exact hfixed .int32
  · exact hfixed .uint32
  · exact hfixed .int64
  · exact hfixed .uint64
  · exact huleb.leavesEnc_of_full hf hfull (Nat.succ_pos _)
  · exact hsleb.leavesEnc_of_full hf hfull (Nat.succ_pos _)
  · exact hfixed .float32
  · exact hfixed .float64
  · exact addShort_mod_of_full hf hfull
  · exact addVector_of_full hf hfull
  · exact (eofFieldsAreAdded s).leavesEnc_of_full hf hfull Nat.one_pos

/-- Settles O2: a fresh decoder is in a pass over an empty source, a fresh encoder is full. -/
theorem freshUnitsAreUsable : Obligations.FreshUnitsAreUsable :=
  ⟨(exhaustionIsImplicitEof State.reset (.inl rfl) (Nat.le_refl 0)).1, rfl,
    fun _ _ => leavesEnc_add_of_full rfl (Nat.le_refl 0)⟩

/-! #### An empty port and host writes -/

theorem step_idle {s : State} (hp : s.port = []) : step s = .next s := by
  simp only [step, fetch, hp]

theorem step_writeHost {s : State} {addr : Nat} {b : Byte} {rest : List HostAction}
    (hp : s.port = .writeHost addr b :: rest) : step s = hostWrite addr b (s.withPort rest) := by
  simp only [step, fetch, hp]

theorem hostByte_withHmem_write (s : State) (addr : Nat) (b : Byte) (a : Nat) :
    hostByte (s.withHmem (Memory.write s.hmem addr b)) a = if a = addr then b else hostByte s a := by
  simp only [hostByte, State.withHmem_hmem, Memory.read_write]
  split <;> rfl

/-- Settles O8: the step is idle, or the write of one byte behind the check of its address. -/
theorem stepTakesHostActions : Obligations.StepTakesHostActions := by
  refine ⟨fun s => step_idle, fun s addr b rest hp => ⟨fun hin => ?_, fun hout => ?_⟩⟩
  · have hrun : hostWrite addr b (s.withPort rest) =
        .next ((s.withPort rest).withHmem (Memory.write s.hmem addr b)) := if_neg (Nat.not_le.2 hin)
    exact ⟨_, (step_writeHost hp).trans hrun, rfl, hostByte_withHmem_write (s.withPort rest) addr b⟩
  · exact (step_writeHost hp).trans (if_pos hout)

end Sys2Proof.Machine
end
